-- ==== Sys2Proof/Word.lean ====
section
/-! DEFINITION. The words of the SWGen PLL solver: bytes, register addresses, frequencies, the 8-byte block, the channel number. -/

namespace Sys2Proof

/-- One byte of the chip's register space (spec/20_memory.md R57). -/
abbrev Byte := BitVec 8

/-- A chip register address: 8 bits (spec/20_memory.md R57). -/
abbrev RegAddr := BitVec 8

/-- A frequency in hertz, `u32` (spec/00_scope.md R13). -/
abbrev Hz := BitVec 32

/-- A block: eight bytes, `b0` at the lowest register address (spec/00_scope.md R14). -/
structure Block where
  b0 : Byte
  b1 : Byte
  b2 : Byte
  b3 : Byte
  b4 : Byte
  b5 : Byte
  b6 : Byte
  b7 : Byte
  deriving DecidableEq, Repr

/-- The bytes of a block, lowest register address first. -/
def Block.toList (b : Block) : List Byte := [b.b0, b.b1, b.b2, b.b3, b.b4, b.b5, b.b6, b.b7]

/-- The three output channels (spec/00_scope.md R8, `NCH` = 3). -/
inductive Channel where
  | ch0
  | ch1
  | ch2
  deriving DecidableEq, Repr

/-- The two PLLs of the chip (spec/00_scope.md R17). -/
inductive PllSource where
  | A
  | B
  deriving DecidableEq, Repr

end Sys2Proof
end

