-- ==== Sys2Proof/Config.lean ====
section
/-! DEFINITION. What an implementation fixes (the parameters of spec/00_scope.md R10) and the free values: what no rule of the spec determines. -/

namespace Sys2Proof

/-- The parameters the source leaves to the implementation (spec/00_scope.md R10). They are the block's own configuration
registers: read-only to every operation, without an address (spec/10_state.md R35). -/
structure Params where
  /-- `XTAL_HZ`, the crystal's frequency; constrained by R11, not checked at run time (U19). -/
  xtalHz : Hz
  /-- `CHIP_ADDR`, the chip's 7-bit bus address. -/
  chipAddr : BitVec 7
  /-- `IDRV`, the drive-strength field. -/
  idrv : BitVec 2
  /-- `RST_A`, the byte that resets PLLA. -/
  rstA : Byte
  /-- `RST_B`, the byte that resets PLLB. -/
  rstB : Byte
  /-- `DIVBY4_BLOCK`, the fixed divide-by-4 pattern. -/
  divBy4Block : Block
  /-- `VERIFY_ENABLE`: the read-backs S6V and S7V are issued. -/
  verifyEnable : Bool
  /-- `PLLB_BASE`, first register of the second PLL block (R9). -/
  pllbBase : RegAddr
  /-- `RETRY_DELAY`: never read by a rule (U14). DESIGN CHOICE, log 15: a count without a unit. -/
  retryDelay : Nat
  deriving DecidableEq, Repr

/-- The default column of spec/00_scope.md R10. Five of these values the spec takes from general knowledge (GK1 to GK5, log 17);
`retryDelay` is a DESIGN CHOICE (log 15). -/
def Params.default : Params where
  xtalHz := 25000000
  chipAddr := 0x60
  idrv := 3
  rstA := 0x20
  rstB := 0x80
  divBy4Block := ⟨0x00, 0x01, 0x0C, 0x00, 0x00, 0x00, 0x00, 0x00⟩
  verifyEnable := false
  pllbBase := 90
  retryDelay := 0

/-- One draw of the Transport oracle: what the Transport answers to the next transaction, whichever it is
(spec/20_memory.md R54, R57; log 1). -/
inductive Answer where
  /-- The deterministic device model of R57 answers: a write is taken whole, a read returns the register's byte. -/
  | device
  /-- To a write: `bytesWritten`, or `none` for `Error`. To a read of one byte: the byte, or `none` for `Error`. -/
  | reply (written : Option Nat) (byte : Option Byte)
  deriving DecidableEq, Repr, Inhabited

/-- FREE VALUE (log 1): the Transport's answer to the `k`-th transaction for which State holds no answer. "Nothing in this spec
determines the answer" (spec/20_memory.md R54). -/
opaque Config.transportAnswer : Nat → Answer

/-- FREE VALUE (log 2): the byte of a chip register whose content is unknown, read under the device model (U13, U12). -/
opaque Config.unknownByte : Nat → Byte

/-- FREE VALUE (log 7): what a `u32` register holds when the exact result it is given does not fit 32 bits. No operation wraps
(spec/00_scope.md R13), and no rule states the value. -/
opaque Config.outOfRange32 : Nat → Hz

/-- FREE VALUE (log 8): the outcome of CHR for `fout_hz = 0`, which is outside its domain (spec/40_planner.md R127); `none` is
`NoValidDivider`. -/
opaque Config.chrOutsideDomain : Nat → Option (BitVec 3)

end Sys2Proof
end

