-- ==== Sys2Proof/Syntax.lean ====
section
/-! DEFINITION. The operation set: one constructor per row of spec/opcode_table.json (spec/30_encoding.md R100). -/

namespace Sys2Proof

/-- The fourteen operations. The three host commands carry the fields of `CMD64` (R82); the eleven micro-operations carry none,
"operands are the working registers named in each operation's rule, not bit fields" (R101). -/
inductive Instr where
  /-- SETF `set_channel_frequency(channel, fout_hz, invert, phase_offset_units)` (R181). -/
  | setf (ch : BitVec 2) (inv : Bool) (ph : BitVec 16) (hz : Hz)
  /-- GETR `get_realized_frequency(channel)` (R199). -/
  | getr (ch : BitVec 2)
  /-- GETQ `get_requested_frequency(channel)` (R200). -/
  | getq (ch : BitVec 2)
  /-- CPLL `compute_pll_params` (R123). -/
  | cpll
  /-- CMS `compute_ms_params` (R125). -/
  | cms
  /-- CHR `choose_r_divider` (R127). -/
  | chr
  /-- SVCO `search_vco` (R130). -/
  | svco
  /-- APHO `apply_phase_offset` (R135). -/
  | apho
  /-- ENCP `encode_pll_block` (R150). -/
  | encp
  /-- ENCM, the MultiSynth variant of the layout (R151, R152). -/
  | encm
  /-- DECB, the decoder of a block (R154). -/
  | decb
  /-- WRB `write_block` (R161). -/
  | wrb
  /-- WR1 `write_byte` (R162). -/
  | wr1
  /-- VFY `verify_write` (R164). -/
  | vfy
  deriving DecidableEq, Repr

end Sys2Proof
end

