-- ==== Sys2Proof/WellFormed.lean ====
section
/-! DEFINITION. Which terms of Instr are instructions: the constraint column of spec/opcode_table.json. -/

namespace Sys2Proof

/-- `ch` is 0, 1 or 2; 3 is illegal (spec/30_encoding.md R82, R88). -/
def channelLegal (ch : BitVec 2) : Bool := ch != 3

/-- An instruction is well formed when its channel field names a channel (spec/30_encoding.md R85, step 2). The widths of the other
fields are those of their types. -/
def Instr.wellFormed : Instr → Bool
  | .setf ch _ _ _ => channelLegal ch
  | .getr ch => channelLegal ch
  | .getq ch => channelLegal ch
  | .cpll => true
  | .cms => true
  | .chr => true
  | .svco => true
  | .apho => true
  | .encp => true
  | .encm => true
  | .decb => true
  | .wrb => true
  | .wr1 => true
  | .vfy => true

end Sys2Proof
end

