-- ==== Sys2Proof/Decode.lean ====
section
/-! DEFINITION. The decoder of command words and of micro-operation select codes, total, rejecting by name; after it the encoder
(spec/30_encoding.md R82 to R90). -/

namespace Sys2Proof

/-- An encoded operation. A command is one 64-bit word (R102) and has no byte order of its own; a micro-operation is a 4-bit select
code that never appears at a port (R90). -/
inductive Code where
  | cmd (w : BitVec 64)
  | uop (c : BitVec 4)
  deriving DecidableEq, Repr

/-- Why a word or a select code decodes to nothing (R85, R88, R90). -/
inductive Reject where
  /-- `op` is 0 or 4 to 15 (R89). -/
  | unusedOpcode
  /-- A field that must be zero is not (R84). -/
  | mustBeZero
  /-- `ch` is 3 (R85, step 2). -/
  | illegalChannel
  /-- A select code 11 to 15, which names no micro-operation (R90). -/
  | unusedSelectCode
  deriving DecidableEq, Repr

/-- One row of the opcode table in match and mask form (R84, R90). -/
structure Row where
  mask : BitVec 64
  pattern : BitVec 64
  deriving DecidableEq, Repr

/-- A word fits a row when `(word & mask) == match` (R84). -/
def Row.fits (r : Row) (w : BitVec 64) : Bool := (w &&& r.mask) == r.pattern

/-- SETF's row (R84). -/
def rowSetf : Row := ⟨0xF1FF000000000000, 0x1000000000000000⟩
/-- GETR's row (R84). -/
def rowGetr : Row := ⟨0xF3FFFFFFFFFFFFFF, 0x2000000000000000⟩
/-- GETQ's row (R84). -/
def rowGetq : Row := ⟨0xF3FFFFFFFFFFFFFF, 0x3000000000000000⟩

/-- Field `op` of a command word (R82). -/
def fieldOp (w : BitVec 64) : BitVec 4 := w.extractLsb' 60 4
/-- Field `ch` of a command word (R82). -/
def fieldCh (w : BitVec 64) : BitVec 2 := w.extractLsb' 58 2
/-- Field `inv` of a command word (R82). -/
def fieldInv (w : BitVec 64) : Bool := w.extractLsb' 57 1 == 1#1
/-- Field `rsv` of a command word (R82). -/
def fieldRsv (w : BitVec 64) : BitVec 9 := w.extractLsb' 48 9
/-- Field `ph` of a command word (R82). -/
def fieldPh (w : BitVec 64) : BitVec 16 := w.extractLsb' 32 16
/-- Field `hz` of a command word (R82). -/
def fieldHz (w : BitVec 64) : Hz := w.extractLsb' 0 32

/-- Step 2 of R85, after a row was found. -/
def checkChannel (w : BitVec 64) (i : Instr) : Except Reject Instr :=
  if channelLegal (fieldCh w) then .ok i else .error .illegalChannel

/-- Decoding a command word: find the row, check the channel, extract the fields (R85). Total on all 2^64 words. -/
def decodeCmd (w : BitVec 64) : Except Reject Instr :=
  if rowSetf.fits w then checkChannel w (.setf (fieldCh w) (fieldInv w) (fieldPh w) (fieldHz w))
  else if rowGetr.fits w then checkChannel w (.getr (fieldCh w))
  else if rowGetq.fits w then checkChannel w (.getq (fieldCh w))
  else if fieldOp w == 1 || fieldOp w == 2 || fieldOp w == 3 then .error .mustBeZero
  else .error .unusedOpcode

/-- The micro-operation of a select code (R90). -/
def decodeUop (c : BitVec 4) : Except Reject Instr :=
  match c.toNat with
  | 0 => .ok .cpll
  | 1 => .ok .cms
  | 2 => .ok .chr
  | 3 => .ok .svco
  | 4 => .ok .apho
  | 5 => .ok .encp
  | 6 => .ok .encm
  | 7 => .ok .decb
  | 8 => .ok .wrb
  | 9 => .ok .wr1
  | 10 => .ok .vfy
  | _ => .error .unusedSelectCode

/-- The decoder of both formats. -/
def decode : Code → Except Reject Instr
  | .cmd w => decodeCmd w
  | .uop c => decodeUop c

/-- A command word from its fields, `rsv` zero (R82, R104): `(op << 60) | (ch << 58) | (inv << 57) | (ph << 32) | hz`. -/
def packCmd (op : BitVec 4) (ch : BitVec 2) (inv : Bool) (ph : BitVec 16) (hz : Hz) : BitVec 64 :=
  op ++ ch ++ BitVec.ofBool inv ++ (0 : BitVec 9) ++ ph ++ hz

/-- The encoder, from the tables of R84 and R90. -/
def encode : Instr → Code
  | .setf ch inv ph hz => .cmd (packCmd 1 ch inv ph hz)
  | .getr ch => .cmd (packCmd 2 ch false 0 0)
  | .getq ch => .cmd (packCmd 3 ch false 0 0)
  | .cpll => .uop 0
  | .cms => .uop 1
  | .chr => .uop 2
  | .svco => .uop 3
  | .apho => .uop 4
  | .encp => .uop 5
  | .encm => .uop 6
  | .decb => .uop 7
  | .wrb => .uop 8
  | .wr1 => .uop 9
  | .vfy => .uop 10

/-- The format a table row's width names: a command is always exactly 64 bits (R102), anything narrower is a select code, whose mask
is 0xF (opcode_table.json). -/
def codeOfTableWord (nbits w : Nat) : Code :=
  if nbits < 64 then .uop (BitVec.ofNat 4 w) else .cmd (BitVec.ofNat 64 w)

/-- What the decoder reads from a table row's word. -/
def decodeTableWord (nbits w : Nat) : Option Instr :=
  match decode (codeOfTableWord nbits w) with
  | .ok i => some i
  | .error _ => none

/-- `SETF ch, hz [, inv [, ph]]` as the assembly writes it: omitted optional fields are zero (R81, R104). -/
def asmSetf (ch : BitVec 2) (hz : Hz) (inv : Bool := false) (ph : BitVec 16 := 0) : Instr := .setf ch inv ph hz

end Sys2Proof
end

