-- ==== Sys2Proof/Machine/State.lean ====
section
/-! DEFINITION. The state of the block, of its ports and of the chip's register space as plain data, the reasons a step can stop,
and the state after reset (spec/10_state.md). -/

namespace Sys2Proof.Machine

/-- The error kinds (spec/30_encoding.md R87, spec/60_exceptions.md R220). -/
inductive ErrorKind where
  | invalidFrequency
  | noValidDivider
  | phaseConstraintViolation
  | transportError
  | verificationMismatch
  | illegalCommand
  deriving DecidableEq, Repr

/-- `CH[ch].phase` (R30, R32). -/
inductive Phase where
  | idle
  | configuring
  | active
  | failed (reason : ErrorKind)
  deriving DecidableEq, Repr

/-- The persistent record of one channel (R30). -/
structure ChannelRecord where
  requestedHz : Hz
  realizedHz : Hz
  phase : Phase
  deriving DecidableEq, Repr

/-- `CH[0..2]` (R30). -/
structure Channels where
  c0 : ChannelRecord
  c1 : ChannelRecord
  c2 : ChannelRecord
  deriving DecidableEq, Repr

/-- The values of the step register `SEQ`, the block's program counter (R26). -/
inductive Seq where
  | idle
  | s1
  | s2
  | s3
  | s4
  | s5a
  | s5b
  | s6
  | s6v
  | s7
  | s7v
  | s8
  | s9
  deriving DecidableEq, Repr

/-- The names of the working registers (R22). -/
inductive WReg where
  | ch | fout | inv | ph | vco | n | r
  | pllP1 | pllP2 | pllP3 | pllInt
  | msP1 | msP2 | msP3 | msInt | msDiv4 | msR
  | blk | ctl | oe | rst
  deriving DecidableEq, Repr

/-- The working registers `W.*` (R22). `none` is the spec's own "no value": not written by a step of the current command (R24, R44, D32). -/
structure Work where
  ch : Option Channel
  fout : Option Hz
  inv : Option Bool
  ph : Option (BitVec 16)
  vco : Option Hz
  n : Option (BitVec 11)
  r : Option (BitVec 3)
  pllP1 : Option (BitVec 32)
  pllP2 : Option (BitVec 20)
  pllP3 : Option (BitVec 21)
  pllInt : Option Bool
  msP1 : Option (BitVec 32)
  msP2 : Option (BitVec 20)
  msP3 : Option (BitVec 21)
  msInt : Option Bool
  msDiv4 : Option Bool
  msR : Option (BitVec 3)
  blk : Option Block
  ctl : Option Byte
  oe : Option Byte
  rst : Option Byte
  deriving DecidableEq, Repr

/-- No working register holds a value (R24, R44). -/
def Work.unwritten : Work where
  ch := none
  fout := none
  inv := none
  ph := none
  vco := none
  n := none
  r := none
  pllP1 := none
  pllP2 := none
  pllP3 := none
  pllInt := none
  msP1 := none
  msP2 := none
  msP3 := none
  msInt := none
  msDiv4 := none
  msR := none
  blk := none
  ctl := none
  oe := none
  rst := none

/-- The kind of a bus transaction and what it carries (R42). -/
inductive TxnKind where
  /-- `RegWrite(addr, n, data)` (spec/20_memory.md R52). -/
  | write (data : List Byte)
  /-- `RegRead(addr, n)` (spec/20_memory.md R53). -/
  | read (len : Nat)
  deriving DecidableEq, Repr

/-- The Transport's answer as TRACE records it (spec/20_memory.md R50). -/
inductive TxnAnswer where
  | bytesWritten (count : Nat)
  | bytes (data : List Byte)
  | error
  deriving DecidableEq, Repr

/-- One entry of TRACE: kind, chip address, register address, data and answer (R42). -/
structure Txn where
  chip : BitVec 7
  reg : RegAddr
  kind : TxnKind
  answer : TxnAnswer
  deriving DecidableEq, Repr

/-- The chip's register space (spec/20_memory.md R57) as a list of cells with rising addresses; an address that is not listed holds a
byte nothing in the spec determines (R44: "unspecified"; log 2). -/
abbrev Memory := List Host.Cell

/-- The fields DECB extracts from a block (spec/41_register_protocol.md R154). -/
structure Decoded where
  p3f : BitVec 20
  p1f : BitVec 18
  p2f : BitVec 20
  rDivExp : BitVec 3
  div4f : BitVec 2
  deriving DecidableEq, Repr

/-- What the last directly called unit operation returned to its caller (the model's own, log 5). -/
inductive UnitReturn where
  /-- No unit operation was called since reset. -/
  | nothing
  /-- An operation that writes registers, and raised no error. -/
  | done
  /-- CHR's result. -/
  | rDivExp (r : BitVec 3)
  /-- DECB's result. -/
  | decoded (d : Decoded)
  /-- An error raised outside a SETF (log 6). -/
  | raised (e : ErrorKind)
  deriving DecidableEq, Repr

/-- The latched arguments of WRB (`addr`), WR1 and VFY (`addr`, `val`) (the model's own, log 5). -/
structure UnitOperand where
  addr : RegAddr
  val : Byte
  deriving DecidableEq, Repr

/-- The port RST (spec/30_encoding.md R80), sampled between two steps (log 11). -/
inductive ResetPin where
  | low
  | high
  /-- Reset arrives while the transaction of the step in progress is on the bus (spec/70_reset_and_hazards.md R262). -/
  | highInFlight
  deriving DecidableEq, Repr

/-- The state. -/
structure State where
  /-- `CH[0..2]` (R30). -/
  chan : Channels
  /-- `W.*` (R22). -/
  w : Work
  /-- `SEQ` (R26). -/
  seq : Seq
  /-- `ATT` (R41). -/
  att : BitVec 2
  /-- `BUSY` (R28). -/
  busy : Bool
  /-- `BUSLOCK` (R28), the level of the port LOCK (spec/30_encoding.md R80). -/
  busLock : Bool
  /-- `VM` (R28). -/
  vm : Bool
  /-- `TRACE`, oldest first (R42). -/
  trace : List Txn
  /-- The parameters of spec/00_scope.md R10, the block's configuration registers (R35). -/
  cfg : Params
  /-- `CHIPREG[0..255]` (spec/20_memory.md R57). -/
  chip : Memory
  /-- Port CMD: the words the host will present, the next one first (log 12). -/
  cmd : List (BitVec 64)
  /-- Port RSP: the responses delivered, oldest first (log 13). -/
  rsp : List (BitVec 64)
  /-- Port XPORT: the Transport's next answers, the next one first (log 1). -/
  xport : List Answer
  /-- Port RST (log 11). -/
  rst : ResetPin
  /-- The select code of a directly called micro-operation (log 5). -/
  uop : Option (BitVec 4)
  /-- The latched arguments of WRB, WR1 and VFY (log 5). -/
  opnd : UnitOperand
  /-- What the last directly called micro-operation returned (log 5). -/
  ret : UnitReturn
  /-- How many free values were drawn (log 1, log 2). -/
  draws : Nat
  deriving DecidableEq, Repr

/-- Why a step stops. -/
inductive Fault where
  /-- A read of a working register that no step of the current command has written. Raised by any operation that reads `W.*`; the spec
  asks for this stop by name: spec/10_state.md R24 ("faults on a read of it"), spec/93_implementation_defined.md U18 (`fault`),
  spec/92_eei_decisions.md D32 ("a model fault"). Safe: "errs toward unprovable". -/
  | unwrittenRegister (reg : WReg)
  /-- A command given to the unit while BUSY = 1: it is not accepted, the spec's treatment is `stuck` (U16, spec/20_memory.md R61). Raised
  by SETF, GETR, GETQ executed in such a state; `step` leaves the word at the port instead. Safe. -/
  | commandWhileBusy
  deriving DecidableEq, Repr

/-- What has no meaning. -/
inductive Refusal where
  /-- An instruction whose arm in `exec` has no meaning yet. Raised by `exec` alone. Safe. -/
  | notModelled (mnemonic : String)
  /-- `FRAC` outside its precondition: "a model refuses it (no value, no wrap-around)" (spec/40_planner.md R124, D12, U1, U2). Raised by
  CPLL and CMS. Safe. -/
  | fracPrecondition
  /-- A division by `W.n = 0` in step 9: "division by zero has no meaning" (spec/00_scope.md R12). Raised by the commit step, in states no
  run reaches. Safe. -/
  | divisionByZero
  /-- A select code 11 to 15, which names no micro-operation (spec/30_encoding.md R90). Raised by `step`. Safe. -/
  | unusedSelectCode
  deriving DecidableEq, Repr

/-- How a piece of an operation ends: with a value, with `raise E` (spec/00_scope.md R15) in the state reached so far, or with a stop. -/
inductive Result (α : Type) where
  | ok (a : α)
  | raised (e : ErrorKind) (s : State)
  | fault (f : Fault)
  | refused (r : Refusal)
  deriving DecidableEq, Repr

/-- A channel record after reset (R44). -/
def ChannelRecord.reset : ChannelRecord where
  requestedHz := 0
  realizedHz := 0
  phase := .idle

/-- The state right after reset (R44). -/
def State.reset : State where
  chan := ⟨ChannelRecord.reset, ChannelRecord.reset, ChannelRecord.reset⟩
  w := Work.unwritten
  seq := .idle
  att := 0
  busy := false
  busLock := false
  vm := false
  trace := []
  cfg := Params.default
  chip := []
  cmd := []
  rsp := []
  xport := []
  rst := .low
  uop := none
  opnd := ⟨0, 0⟩
  ret := .nothing
  draws := 0

end Sys2Proof.Machine
end

