-- ==== Sys2Proof/Machine/Constants.lean ====
section
/-! DEFINITION. The constants of spec/00_scope.md R8 and the channel multiplexer's constant tables (spec/10_state.md R33). -/

namespace Sys2Proof.Machine

/-- `F_MIN`: lowest accepted target frequency. -/
abbrev fMin : Nat := 8000
/-- `F_MAX`: highest accepted target frequency. -/
abbrev fMax : Nat := 160000000
/-- `F_DIV4`: a target strictly above this uses the divide-by-4 path. -/
abbrev fDiv4 : Nat := 150000000
/-- `VCO_MIN`. -/
abbrev vcoMin : Nat := 600000000
/-- `VCO_MAX`. -/
abbrev vcoMax : Nat := 900000000
/-- `N_MIN`. -/
abbrev nMin : Nat := 6
/-- `N_MAX`. -/
abbrev nMax : Nat := 1800
/-- The R-divider exponents 0 to `R_MAX` = 7, ascending. -/
def rExponents : List Nat := [0, 1, 2, 3, 4, 5, 6, 7]
/-- `MSDIV_MIN`. -/
abbrev msDivMin : Nat := 8
/-- `MSDIV_MAX`. -/
abbrev msDivMax : Nat := 2048
/-- `C_FRAC` = 2^20. -/
abbrev cFrac : Nat := 1048576
/-- `ATTEMPTS`. -/
abbrev attempts : Nat := 3
/-- `PH_MAX`. -/
abbrev phMax : Nat := 127
/-- `PH_MAX_DIV4`. -/
abbrev phMaxDiv4 : Nat := 1
/-- `REG_OE`. -/
abbrev regOe : RegAddr := 3
/-- `REG_RST`. -/
abbrev regRst : RegAddr := 177
/-- `PLLA_BASE`. -/
abbrev pllaBase : RegAddr := 26

/-- The channel's number in two bits. -/
def chBits : Channel → BitVec 2
  | .ch0 => 0
  | .ch1 => 1
  | .ch2 => 2

/-- The channel a field `ch` names; 3 names none (spec/30_encoding.md R82). -/
def chOfBits (b : BitVec 2) : Option Channel :=
  if b = 0 then some .ch0 else if b = 1 then some .ch1 else if b = 2 then some .ch2 else none

/-- `REG_CLK(ch)` = 16 + ch. -/
def regClk (c : Channel) : RegAddr := 16 + (chBits c).setWidth 8

/-- `MS_BASE(ch)` = 42 + 8*ch. -/
def msBase (c : Channel) : RegAddr := 42 + 8 * (chBits c).setWidth 8

/-- `PLLSRC` (spec/10_state.md R33). -/
def pllSrc : Channel → PllSource
  | .ch0 => .B
  | .ch1 => .A
  | .ch2 => .A

/-- `PLL_BASE` (spec/10_state.md R33). -/
def pllBase (p : Params) : PllSource → RegAddr
  | .A => pllaBase
  | .B => p.pllbBase

/-- The sibling on the same PLL (spec/42_coordinator.md R184): channel 0 has none. -/
def sibling : Channel → Option Channel
  | .ch0 => none
  | .ch1 => some .ch2
  | .ch2 => some .ch1

/-- The status code of a completed command (spec/30_encoding.md R87). -/
abbrev statusOk : BitVec 4 := 0

/-- The status code of an error kind (spec/30_encoding.md R87). -/
def ErrorKind.code : ErrorKind → BitVec 4
  | .invalidFrequency => 1
  | .noValidDivider => 2
  | .phaseConstraintViolation => 3
  | .transportError => 4
  | .verificationMismatch => 5
  | .illegalCommand => 15

end Sys2Proof.Machine
end

