-- ==== Sys2Proof/Machine/Ops.lean ====
section
/-! DEFINITION. The shared operations: the chip's register space, the Transport boundary, the attempt loop, channel records, the response,
and taking an error (there is no return from one, spec/60_exceptions.md R233). -/

namespace Sys2Proof.Machine

/-! ### Pieces of an operation -/

/-- One piece after another: `raise` and a stop end the operation. -/
def Result.bind {α β : Type} (x : Result α) (f : α → Result β) : Result β :=
  match x with
  | .ok a => f a
  | .raised e s => .raised e s
  | .fault q => .fault q
  | .refused q => .refused q

/-- A read of a working register; one that holds no value faults, as spec/10_state.md R24 and spec/93_implementation_defined.md U18 say. -/
def need {α : Type} (reg : WReg) (v : Option α) : Result α :=
  match v with
  | some a => .ok a
  | none => .fault (.unwrittenRegister reg)

/-! ### The chip's register space (spec/20_memory.md R57) -/

/-- What a register that is not listed reads as: nothing the spec determines (log 2). -/
def Memory.unlisted : Option Byte := none

/-- The content of register `a`, where it is known. -/
def Memory.read (m : Memory) (a : Nat) : Option Byte :=
  match m with
  | [] => Memory.unlisted
  | (k, b) :: rest => if k = a then some b else Memory.read rest a

/-- The register becomes unknown. -/
def Memory.forget (m : Memory) (a : Nat) : Memory :=
  match m with
  | [] => []
  | (k, b) :: rest => if k = a then rest else if a < k then (k, b) :: rest else (k, b) :: Memory.forget rest a

/-- Register `a` holds `v`. -/
def Memory.write (m : Memory) (a : Nat) (v : Byte) : Memory :=
  match m with
  | [] => [(a, v)]
  | (k, b) :: rest =>
    if k = a then (a, v) :: rest else if a < k then (a, v) :: (k, b) :: rest else (k, b) :: Memory.write rest a v

/-- The chip stores `data[i]` at register `a + i` (spec/20_memory.md R52). What a burst past register 255 does is stated nowhere: the
register a wrapping pointer would reach becomes unknown (log 3). -/
def Memory.store (m : Memory) (a : Nat) (data : List Byte) : Memory :=
  match data with
  | [] => m
  | b :: rest =>
    if a < 256 then Memory.store (Memory.write m a b) (a + 1) rest else Memory.store (Memory.forget m (a - 256)) (a + 1) rest

/-- Registers become unknown. -/
def Memory.forgetAll (m : Memory) (addrs : List Nat) : Memory :=
  match addrs with
  | [] => m
  | a :: rest => Memory.forgetAll (Memory.forget m a) rest

/-- Addresses above `lo` (when given), rising strictly, below 256. -/
def Memory.risingAbove (lo : Option Nat) (m : Memory) : Bool :=
  match m with
  | [] => true
  | (k, _) :: rest =>
    (match lo with
      | none => true
      | some l => decide (l < k)) && decide (k < 256) && Memory.risingAbove (some k) rest

/-- The canonical form: strictly rising register addresses, each an 8-bit address. No entry can equal what an unlisted register reads as. -/
def Memory.wf (m : Memory) : Bool := Memory.risingAbove none m

/-! ### The Transport boundary (spec/20_memory.md R50 to R56) -/

/-- One draw of the oracle: the next answer State holds, or a free one (R54, log 1). -/
def draw (s : State) : Answer × State :=
  match s.xport with
  | a :: rest => (a, { s with xport := rest })
  | [] => (Config.transportAnswer s.draws, { s with draws := s.draws + 1 })

/-- What `write` answers to a frame of `len` bytes: `bytesWritten`, or `none` for `Error`. -/
def answerToWrite (a : Answer) (len : Nat) : Option Nat :=
  match a with
  | .device => some len
  | .reply written _ => written

/-- The bytes of a write transaction, the register address first (R52, format WFRAME of spec/30_encoding.md R91). -/
def wframe (addr : RegAddr) (data : List Byte) : List Byte := addr :: data

/-- The bytes a recorded transaction sends after the chip address: a write's frame, a read's register address. -/
def Txn.frame (t : Txn) : List Byte :=
  match t.kind with
  | .write data => wframe t.reg data
  | .read _ => [t.reg]

/-- Whether a recorded transaction was answered `ok` (R53, R54): all bytes written, or exactly the bytes asked for. -/
def Txn.ok (t : Txn) : Bool :=
  match t.kind, t.answer with
  | .write data, .bytesWritten n => n == data.length + 1
  | .read len, .bytes bs => bs.length == len
  | .write _, .bytes _ => false
  | .write _, .error => false
  | .read _, .bytesWritten _ => false
  | .read _, .error => false

/-- TRACE records a write's answer. -/
def writeAnswer (written : Option Nat) : TxnAnswer :=
  match written with
  | some n => .bytesWritten n
  | none => .error

/-- TRACE records the answer to a read of one byte. -/
def readAnswer (byte : Option Byte) : TxnAnswer :=
  match byte with
  | some b => .bytes [b]
  | none => .error

/-- `RegWrite(addr, n, data)`: one transaction; `ok` (`some ()`) iff the answer is `bytesWritten == n + 1`; on `ok` all registers are
stored, on `fail` none (R52, R54). -/
def regWrite (addr : RegAddr) (data : List Byte) (s : State) : Option Unit × State :=
  let (a, s1) := draw s
  let len := (wframe addr data).length
  let written := answerToWrite a len
  let s2 := { s1 with trace := s1.trace ++ [⟨s1.cfg.chipAddr, addr, .write data, writeAnswer written⟩] }
  if written = some len then (some (), { s2 with chip := s2.chip.store addr.toNat data }) else (none, s2)

/-- The byte a read of one register is answered with, `none` for `Error`; the device model answers with the register's byte, a free one
where it is unknown (R53, R57, log 2). -/
def readByte (a : Answer) (addr : RegAddr) (s : State) : Option Byte × State :=
  match a with
  | .reply _ byte => (byte, s)
  | .device =>
    match s.chip.read addr.toNat with
    | some b => (some b, s)
    | none => (some (Config.unknownByte s.draws), { s with draws := s.draws + 1 })

/-- `RegRead(addr, 1)`: one transaction, `some byte` for `ok` and `none` for `fail` (R53). -/
def regRead (addr : RegAddr) (s : State) : Option Byte × State :=
  let (a, s1) := draw s
  let (byte, s2) := readByte a addr s1
  (byte, { s2 with trace := s2.trace ++ [⟨s2.cfg.chipAddr, addr, .read 1, readAnswer byte⟩] })

/-- The body of the attempt loop, `fuel` transactions at most (spec/41_register_protocol.md R160). The loop ends by its own test `ATT == 3`;
`fuel` runs out only where ATT was not 0 at the start. -/
def attemptLoop {α : Type} (op : State → Option α × State) (fuel : Nat) (s : State) : Result (α × State) :=
  match fuel with
  | 0 => .raised .transportError { s with att := 0 }
  | fuel + 1 =>
    match op { s with att := s.att + 1 } with
    | (some a, t) => .ok (a, { t with att := 0 })
    | (none, t) =>
      if t.att.toNat = attempts then .raised .transportError { t with att := 0 } else attemptLoop op fuel t

/-- `Attempt(op)`: at most `ATTEMPTS` transactions, the first included (R160, D20). -/
def attempt {α : Type} (op : State → Option α × State) (s : State) : Result (α × State) :=
  attemptLoop op attempts { s with att := 0 }

/-! ### Channel records -/

/-- `CH[c]`. -/
def Channels.get (cs : Channels) (c : Channel) : ChannelRecord :=
  match c with
  | .ch0 => cs.c0
  | .ch1 => cs.c1
  | .ch2 => cs.c2

/-- `CH[c] <- v`. -/
def Channels.set (cs : Channels) (c : Channel) (v : ChannelRecord) : Channels :=
  match c with
  | .ch0 => { cs with c0 := v }
  | .ch1 => { cs with c1 := v }
  | .ch2 => { cs with c2 := v }

/-- `CH[c].phase <- p`. -/
def setPhase (c : Channel) (p : Phase) (s : State) : State :=
  { s with chan := s.chan.set c { s.chan.get c with phase := p } }

/-! ### The response (spec/30_encoding.md R86) -/

/-- A response word: `status[63:60] ch[59:58] vm[57] 0[56:32] hz[31:0]`. -/
def rspWord (status : BitVec 4) (ch : BitVec 2) (vm : Bool) (hz : Hz) : BitVec 64 :=
  status ++ ch ++ BitVec.ofBool vm ++ (0 : BitVec 25) ++ hz

/-- A response is delivered at RSP. -/
def respond (status : BitVec 4) (ch : BitVec 2) (vm : Bool) (hz : Hz) (s : State) : State :=
  { s with rsp := s.rsp ++ [rspWord status ch vm hz] }

/-- `SEQ <- IDLE ; BUSY <- 0`: the command in progress ends. With it the working registers hold no value: none was written in a command that
is still the current one (spec/10_state.md R24), and nothing of the request survives its command (R34). -/
def release (s : State) : State := { s with seq := .idle, busy := false, w := Work.unwritten }

/-- The answer to an illegal command: IllegalCommand, the command's `ch`, `vm = 0`, `hz = 0`, and nothing else (R88, R226). -/
def respondIllegal (ch : BitVec 2) (s : State) : State := respond ErrorKind.illegalCommand.code ch false 0 s

/-! ### Taking an error (spec/60_exceptions.md R231) -/

/-- A rejection in step 1 or 2 (spec/42_coordinator.md R185). -/
def reject (e : ErrorKind) (c : Channel) (s : State) : State := release (respond e.code (chBits c) s.vm 0 s)

/-- The abort of a sequence in steps 3 to 8 (spec/42_coordinator.md R196). -/
def abort (e : ErrorKind) (c : Channel) (s : State) : State :=
  release (respond e.code (chBits c) s.vm 0 (setPhase c (.failed e) { s with busLock := false }))

/-- Taking error `e`: in steps 1 and 2 the rejection, in steps 3 to 8 the abort; nothing is saved and nothing is vectored (R231). With no
step of a SETF in progress that can raise, the operation was called directly and its caller gets the error (log 6). The rejection and the abort
read `W.ch`: unwritten, it faults (spec/10_state.md R24). -/
def takeError (e : ErrorKind) (s : State) : Host.Outcome State Fault Refusal :=
  match s.seq, s.w.ch with
  | .idle, _ | .s9, _ => .next { s with ret := .raised e }
  | .s1, some c | .s2, some c => .next (reject e c s)
  | .s3, some c | .s4, some c | .s5a, some c | .s5b, some c | .s6, some c | .s6v, some c | .s7, some c | .s7v, some c | .s8, some c =>
    .next (abort e c s)
  | .s1, none | .s2, none | .s3, none | .s4, none | .s5a, none | .s5b, none | .s6, none | .s6v, none | .s7, none | .s7v, none
  | .s8, none => .fault (.unwrittenRegister .ch)

/-- The outcome of a whole operation: a raised error is taken. -/
def finish (x : Result State) : Host.Outcome State Fault Refusal :=
  match x with
  | .ok s => .next s
  | .raised e s => takeError e s
  | .fault q => .fault q
  | .refused q => .refused q

/-- The outcome of a directly called unit operation that writes registers. -/
def finishUnit (x : Result State) : Host.Outcome State Fault Refusal :=
  finish (x.bind fun s => .ok { s with ret := .done })

end Sys2Proof.Machine
end

