-- ==== Sys2Proof/Machine/Flags.lean ====
section
/-! DEFINITION. Every flag computation of the spec (spec/10_state.md R28, R29). -/

namespace Sys2Proof.Machine

/-- `integerMode` of a ratio: 1 iff the remainder is zero (R28, spec/40_planner.md R122). -/
def integerMode (num den : Nat) : Bool := num % den == 0

/-- `divBy4`: 1 iff the output frequency is strictly above `F_DIV4` (R28, spec/40_planner.md R125). -/
def isDivBy4 (fout : Nat) : Bool := decide (fDiv4 < fout)

/-- The integer-mode bit of the control register: "set iff `integerMode && !divBy4`" (spec/42_coordinator.md R191). -/
def controlIntBit (int div4 : Bool) : Bool := int && !div4

/-- `VM` after a read-back: set on a mismatch, never cleared by VFY (spec/41_register_protocol.md R164). -/
def vmAfter (vm : Bool) (got expected : Byte) : Bool := vm || got != expected

/-- `BUSY` at each value of SEQ: 1 from acceptance to response (R28). -/
def busyAt (q : Seq) : Bool := q != .idle

/-- `BUSLOCK` between two steps: 1 from the start of S5A to the end of the sequence (R28, spec/20_memory.md R62). -/
def busLockAt : Seq → Bool
  | .idle => false
  | .s1 => false
  | .s2 => false
  | .s3 => false
  | .s4 => false
  | .s5a => false
  | .s5b => true
  | .s6 => true
  | .s6v => true
  | .s7 => true
  | .s7v => true
  | .s8 => true
  | .s9 => true

end Sys2Proof.Machine
end

