-- ==== Sys2Proof/Machine/Operands.lean ====
section
/-! DEFINITION. The operand forms: the reads of working registers (spec/10_state.md R22, R24), the narrowing of exact results into
registers (spec/00_scope.md R13), and the bytes written to the control, output-enable and reset registers (R36, R37, R40). -/

namespace Sys2Proof.Machine

/-- Read `W.ch`. -/
def getCh (s : State) : Result Channel := need .ch s.w.ch
/-- Read `W.fout`. -/
def getFout (s : State) : Result Hz := need .fout s.w.fout
/-- Read `W.inv`. -/
def getInv (s : State) : Result Bool := need .inv s.w.inv
/-- Read `W.ph`. -/
def getPh (s : State) : Result (BitVec 16) := need .ph s.w.ph
/-- Read `W.vco`. -/
def getVco (s : State) : Result Hz := need .vco s.w.vco
/-- Read `W.n`. -/
def getN (s : State) : Result (BitVec 11) := need .n s.w.n
/-- Read `W.r`. -/
def getR (s : State) : Result (BitVec 3) := need .r s.w.r
/-- Read `W.pll.P1`. -/
def getPllP1 (s : State) : Result (BitVec 32) := need .pllP1 s.w.pllP1
/-- Read `W.pll.P2`. -/
def getPllP2 (s : State) : Result (BitVec 20) := need .pllP2 s.w.pllP2
/-- Read `W.pll.P3`. -/
def getPllP3 (s : State) : Result (BitVec 21) := need .pllP3 s.w.pllP3
/-- Read `W.ms.P1`. -/
def getMsP1 (s : State) : Result (BitVec 32) := need .msP1 s.w.msP1
/-- Read `W.ms.P2`. -/
def getMsP2 (s : State) : Result (BitVec 20) := need .msP2 s.w.msP2
/-- Read `W.ms.P3`. -/
def getMsP3 (s : State) : Result (BitVec 21) := need .msP3 s.w.msP3
/-- Read `W.ms.int`. -/
def getMsInt (s : State) : Result Bool := need .msInt s.w.msInt
/-- Read `W.ms.div4`. -/
def getMsDiv4 (s : State) : Result Bool := need .msDiv4 s.w.msDiv4
/-- Read `W.ms.r`. -/
def getMsR (s : State) : Result (BitVec 3) := need .msR s.w.msR
/-- Read `W.blk[0..7]`. -/
def getBlk (s : State) : Result Block := need .blk s.w.blk
/-- Read `W.ctl`. -/
def getCtl (s : State) : Result Byte := need .ctl s.w.ctl
/-- Read `W.oe`. -/
def getOe (s : State) : Result Byte := need .oe s.w.oe

/-- An exact natural in a `u32` register: itself when it fits, else a free value (R13, log 7). -/
def narrow32 (x : Nat) : BitVec 32 := if x < 4294967296 then BitVec.ofNat 32 x else Config.outOfRange32 x

/-- The channel control byte, format CTL8 (spec/10_state.md R37): power-down 0, integer mode, PLL source, invert, clock source 11, drive
strength. The bit positions are the spec's general knowledge (GK2, log 17). -/
def ctlByte (int src inv : Bool) (idrv : BitVec 2) : Byte :=
  (0 : BitVec 1) ++ BitVec.ofBool int ++ BitVec.ofBool src ++ BitVec.ofBool inv ++ (3 : BitVec 2) ++ idrv

/-- A channel is in use when it was configured successfully since reset or is the channel being configured (spec/42_coordinator.md R192). -/
def inUse (cs : Channels) (cur c : Channel) : Bool := (cs.get c).requestedHz != 0 || c == cur

/-- One bit of the sum of R192: `1 << c` when `c` is in use. -/
def oeBit (cs : Channels) (cur c : Channel) : Byte := if inUse cs cur c then 1 <<< (chBits c).toNat else 0

/-- The output-enable byte, format OE8 (R36): `0xFF & ~(sum over c in inuse of (1 << c))` (spec/42_coordinator.md R192). -/
def oeByte (cs : Channels) (cur : Channel) : Byte :=
  0xFF &&& ~~~(oeBit cs cur .ch0 + oeBit cs cur .ch1 + oeBit cs cur .ch2)

/-- The reset byte, format RST8 (R40, spec/42_coordinator.md R193). -/
def rstByte (p : Params) : PllSource → Byte
  | .A => p.rstA
  | .B => p.rstB

/-- Latch the arguments of WRB, WR1 or VFY (log 5). -/
def latch (addr : RegAddr) (val : Byte) (s : State) : State := { s with opnd := ⟨addr, val⟩ }

end Sys2Proof.Machine
end

