-- ==== Sys2Proof/Machine/Planner.lean ====
section
/-! DEFINITION. The FrequencyPlanner: FRAC, and the meanings of CPLL, CMS, CHR, SVCO, APHO (spec/40_planner.md). -/

namespace Sys2Proof.Machine

/-- `(P1, P2, P3, integerMode)`, exact (R122). -/
structure FracParams where
  p1 : Nat
  p2 : Nat
  p3 : Nat
  int : Bool
  deriving DecidableEq, Repr

/-- `FRAC(num, den)` (R122); no result outside the precondition `den > 0`, `num / den >= 4` (R124). -/
def frac (num den : Nat) : Option FracParams :=
  if den = 0 ∨ num / den < 4 then none
  else
    let a := num / den
    let rem := num % den
    if integerMode num den then some ⟨128 * a - 512, 0, 1, true⟩
    else
      let b := rem * cFrac / den
      let floorTerm := 128 * b / cFrac
      some ⟨128 * a + floorTerm - 512, 128 * b - cFrac * floorTerm, cFrac, false⟩

/-- `a` from `(P1, P2, P3)` (R137). -/
def inverseA (p : FracParams) : Nat := (p.p1 + 512) / 128

/-- `floor_term` from `(P1, P2, P3)` (R137). -/
def inverseFloorTerm (p : FracParams) : Nat := (p.p1 + 512) % 128

/-- `b` from `(P1, P2, P3)` (R137). -/
def inverseB (p : FracParams) : Nat :=
  if p.p3 = 1 then 0 else (p.p2 + p.p3 * inverseFloorTerm p) / 128

/-- `a + b/c`, the ratio `(P1, P2, P3)` stand for, as an exact rational (R137). -/
def inverseRatio (p : FracParams) : ℚ := (inverseA p : ℚ) + (inverseB p : ℚ) / (p.p3 : ℚ)

/-- `fvco' = xtal_hz * (a + b/P3)`: the frequency a PLL's parameters stand for (R137). -/
def inverseVco (xtal : Nat) (p : FracParams) : ℚ := (xtal : ℚ) * inverseRatio p

/-- `fout' = vco_hz / (a + b/P3)`: the frequency a MultiSynth's parameters stand for (R137). -/
def inverseFout (vco : Nat) (p : FracParams) : ℚ := (vco : ℚ) / inverseRatio p

/-! ### CPLL (R123) -/

/-- `W.pll <- CPLL(W.vco, XTAL_HZ)`. -/
def cpllOp (s : State) : Result State :=
  (getVco s).bind fun vco =>
    match frac vco.toNat s.cfg.xtalHz.toNat with
    | none => .refused .fracPrecondition
    | some p =>
      .ok { s with w := { s.w with
        pllP1 := some (narrow32 p.p1), pllP2 := some (BitVec.ofNat 20 p.p2),
        pllP3 := some (BitVec.ofNat 21 p.p3), pllInt := some p.int } }

/-- CPLL. -/
def execCpll (s : State) : Host.Outcome State Fault Refusal := finishUnit (cpllOp s)

/-! ### CMS (R125, R126) -/

/-- The MultiSynth parameters CMS writes; `W.ms.r` is not among them (R125). -/
def writeMs (p : FracParams) (div4 : Bool) (s : State) : State :=
  { s with w := { s.w with
    msP1 := some (narrow32 p.p1), msP2 := some (BitVec.ofNat 20 p.p2),
    msP3 := some (BitVec.ofNat 21 p.p3), msInt := some p.int, msDiv4 := some div4 } }

/-- `W.ms <- CMS(W.vco, W.fout * 2^W.r)`; on the divide-by-4 branch `vco_hz` is not read at all (R125). -/
def cmsOp (s : State) : Result State :=
  (getFout s).bind fun fout =>
  (getR s).bind fun r =>
    let f := fout.toNat * 2 ^ r.toNat
    if isDivBy4 f then .ok (writeMs ⟨0, 0, 1, true⟩ true s)
    else
      (getVco s).bind fun vco =>
        match frac vco.toNat f with
        | none => .refused .fracPrecondition
        | some p => .ok (writeMs p false s)

/-- CMS. -/
def execCms (s : State) : Host.Outcome State Fault Refusal := finishUnit (cmsOp s)

/-! ### CHR (R127) -/

/-- The exact quotient `vco / (fout * 2^r)` lies in [8, 2048], by cross-multiplication (R127). -/
def chrFits (vco fout r : Nat) : Bool :=
  decide (msDivMin * (fout * 2 ^ r) ≤ vco) && decide (vco ≤ msDivMax * (fout * 2 ^ r))

/-- The least exponent that fits (R127). -/
def chooseR (vco fout : Nat) : Option Nat := rExponents.find? (chrFits vco fout)

/-- `CHR(W.vco, W.fout)`: its result, or `NoValidDivider`; `fout_hz = 0` is outside its domain (R127, log 8). DESIGN CHOICE (log 22): R127 names
no working registers and no step calls CHR; the model takes `vco_hz` from `W.vco` and `fout_hz` from `W.fout`. -/
def chrOp (s : State) : Result (BitVec 3) :=
  (getVco s).bind fun vco =>
  (getFout s).bind fun fout =>
    if fout = 0 then
      match Config.chrOutsideDomain vco.toNat with
      | some r => .ok r
      | none => .raised .noValidDivider s
    else
      match chooseR vco.toNat fout.toNat with
      | some r => .ok (BitVec.ofNat 3 r)
      | none => .raised .noValidDivider s

/-- CHR: it writes no register of the spec; its result is returned to the caller (log 5). -/
def execChr (s : State) : Host.Outcome State Fault Refusal :=
  finish ((chrOp s).bind fun r => .ok { s with ret := .rDivExp r })

/-! ### SVCO (R130 to R134) -/

/-- The least `n >= 6` with `g * n >= 600,000,000`, for `g > 0` (R132, R133). -/
def leastN (g : Nat) : Nat := max nMin ((vcoMin + g - 1) / g)

/-- The candidate with exponent `r` and the least `n`, where exponent `r` has one (R130): for a fixed `r` the candidates' `n` are an interval. -/
def svcoAt (fout r : Nat) : Option (Nat × Nat × Nat) :=
  let g := fout * 2 ^ r
  let n := leastN g
  if n ≤ nMax ∧ vcoMin ≤ g * n ∧ g * n ≤ vcoMax then some (g * n, n, r) else none

/-- `search_vco`: `(vco, n, r)` of the candidate with the smallest `r`, then the smallest `n` (R132); none where no candidate exists (R134). -/
def searchVco (fout : Nat) : Option (Nat × Nat × Nat) := rExponents.findSome? (svcoAt fout)

/-- `(W.vco, W.n, W.r) <- SVCO(W.fout)`. -/
def svcoOp (s : State) : Result State :=
  (getFout s).bind fun fout =>
    match searchVco fout.toNat with
    | none => .raised .noValidDivider s
    | some (vco, n, r) =>
      .ok { s with w := { s.w with
        vco := some (BitVec.ofNat 32 vco), n := some (BitVec.ofNat 11 n), r := some (BitVec.ofNat 3 r) } }

/-- SVCO. -/
def execSvco (s : State) : Host.Outcome State Fault Refusal := finishUnit (svcoOp s)

/-! ### APHO (R135) -/

/-- The applied phase: the request, clamped silently (R135). -/
def appliedPhase (units : Nat) (div4 : Bool) : Nat := min units (if div4 then phMaxDiv4 else phMax)

/-- `W.ms <- APHO(W.ms, W.ph, W.ms.div4)`. -/
def aphoOp (s : State) : Result State :=
  (getMsP1 s).bind fun p1 =>
  (getPh s).bind fun ph =>
  (getMsDiv4 s).bind fun div4 =>
    .ok { s with w := { s.w with msP1 := some (narrow32 (p1.toNat + 128 * appliedPhase ph.toNat div4)) } }

/-- APHO. -/
def execApho (s : State) : Host.Outcome State Fault Refusal := finishUnit (aphoOp s)

/-! ### The pseudo-operation SETQ (spec/30_encoding.md R105) -/

/-- `SETQ ch, hz [, inv]` as the assembler or the host expands it, outside the block; none where SVCO has no result. -/
def expandSetq (ch : BitVec 2) (hz : Hz) (inv : Bool := false) : Option Instr :=
  if fDiv4 < hz.toNat then some (.setf ch inv 1 hz)
  else
    match searchVco hz.toNat with
    | some (_, n, _) => some (.setf ch inv (BitVec.ofNat 16 (n / 4)) hz)
    | none => none

end Sys2Proof.Machine
end

