-- ==== Sys2Proof/Machine/Protocol.lean ====
section
/-! DEFINITION. The RegisterProtocol: the meanings of ENCP, ENCM, DECB, WRB, WR1, VFY (spec/41_register_protocol.md). -/

namespace Sys2Proof.Machine

/-- The layout BLK8, PLL variant (R150). -/
def encodePll (p1 : BitVec 32) (p2 : BitVec 20) (p3 : BitVec 21) : Block where
  b0 := p3.extractLsb 15 8
  b1 := p3.extractLsb 7 0
  b2 := (0 : BitVec 6) ++ p1.extractLsb 17 16
  b3 := p1.extractLsb 15 8
  b4 := p1.extractLsb 7 0
  b5 := p3.extractLsb 19 16 ++ p2.extractLsb 19 16
  b6 := p2.extractLsb 15 8
  b7 := p2.extractLsb 7 0

/-- The layout BLK8, MultiSynth variant: `rDivExp` in bits 6:4 of the third byte (R151). -/
def encodeMs (p1 : BitVec 32) (p2 : BitVec 20) (p3 : BitVec 21) (r : BitVec 3) : Block :=
  { encodePll p1 p2 p3 with b2 := (0 : BitVec 1) ++ r ++ (0 : BitVec 2) ++ p1.extractLsb 17 16 }

/-- The fields of a block (R154); bit 7 of the third byte belongs to none. -/
def decodeBlock (b : Block) : Decoded where
  p3f := b.b5.extractLsb 7 4 ++ b.b0 ++ b.b1
  p1f := b.b2.extractLsb 1 0 ++ b.b3 ++ b.b4
  p2f := b.b5.extractLsb 3 0 ++ b.b6 ++ b.b7
  rDivExp := b.b2.extractLsb 6 4
  div4f := b.b2.extractLsb 3 2

/-- `W.blk <- ENCP(W.pll)` (R150). -/
def encpOp (s : State) : Result State :=
  (getPllP1 s).bind fun p1 =>
  (getPllP2 s).bind fun p2 =>
  (getPllP3 s).bind fun p3 =>
    .ok { s with w := { s.w with blk := some (encodePll p1 p2 p3) } }

/-- ENCP. -/
def execEncp (s : State) : Host.Outcome State Fault Refusal := finishUnit (encpOp s)

/-- `W.blk <- ENCM(W.ms)`: in divide-by-4 mode the fixed pattern, whatever the parameters are (R151, R152). -/
def encmOp (s : State) : Result State :=
  (getMsDiv4 s).bind fun div4 =>
    if div4 then .ok { s with w := { s.w with blk := some s.cfg.divBy4Block } }
    else
      (getMsP1 s).bind fun p1 =>
      (getMsP2 s).bind fun p2 =>
      (getMsP3 s).bind fun p3 =>
      (getMsR s).bind fun r =>
        .ok { s with w := { s.w with blk := some (encodeMs p1 p2 p3 r) } }

/-- ENCM. -/
def execEncm (s : State) : Host.Outcome State Fault Refusal := finishUnit (encmOp s)

/-- DECB of `W.blk`: it writes nothing of the spec; its result is returned to the caller (R154, log 5). DESIGN CHOICE (log 22): R154 says
only "8 bytes" and no step calls DECB; the model takes them from `W.blk`. -/
def execDecb (s : State) : Host.Outcome State Fault Refusal :=
  finish ((getBlk s).bind fun b => .ok { s with ret := .decoded (decodeBlock b) })

/-- `WRB(baseAddr, W.blk)`: one 9-byte write transaction per attempt (R161). -/
def wrbOp (s : State) : Result State :=
  (getBlk s).bind fun b =>
  (attempt (regWrite s.opnd.addr b.toList) s).bind fun x => .ok x.2

/-- WRB. -/
def execWrb (s : State) : Host.Outcome State Fault Refusal := finishUnit (wrbOp s)

/-- `WR1(addr, val)`: one 2-byte write transaction per attempt (R162). -/
def wr1Op (s : State) : Result State :=
  (attempt (regWrite s.opnd.addr [s.opnd.val]) s).bind fun x => .ok x.2

/-- WR1. -/
def execWr1 (s : State) : Host.Outcome State Fault Refusal := finishUnit (wr1Op s)

/-- `VFY(addr, expected)`: a read-back; a mismatch sets VM and raises nothing (R164). -/
def vfyOp (s : State) : Result State :=
  (attempt (regRead s.opnd.addr) s).bind fun x => .ok { x.2 with vm := vmAfter x.2.vm x.1 s.opnd.val }

/-- VFY. -/
def execVfy (s : State) : Host.Outcome State Fault Refusal := finishUnit (vfyOp s)

end Sys2Proof.Machine
end

