-- ==== Sys2Proof/Machine/Coordinator.lean ====
section
/-! DEFINITION. The ChannelCoordinator's commands: the acceptance of SETF, and GETR and GETQ (spec/42_coordinator.md). The nine steps SETF
runs through after its acceptance are in Machine/Sequencer.lean. -/

namespace Sys2Proof.Machine

/-- Acceptance of a SETF (R182): BUSY set, VM cleared, the four operands latched, every other working register without a value, SEQ at S1. -/
def acceptSetf (c : Channel) (inv : Bool) (ph : BitVec 16) (hz : Hz) (s : State) : State :=
  { s with
    busy := true
    vm := false
    w := { Work.unwritten with ch := some c, fout := some hz, inv := some inv, ph := some ph }
    seq := .s1 }

/-- SETF: accepted when BUSY = 0 (R182); the steps S1 to S9 follow, one a step. `ch = 3` is an illegal command (spec/30_encoding.md R88). -/
def execSetf (ch : BitVec 2) (inv : Bool) (ph : BitVec 16) (hz : Hz) (s : State) : Host.Outcome State Fault Refusal :=
  if s.busy then .fault .commandWhileBusy
  else
    match chOfBits ch with
    | some c => .next (acceptSetf c inv ph hz s)
    | none => .next (respondIllegal ch s)

/-- GETR: answers with `CH[ch].realizedHz`; writes nothing, BUSY rises and falls around it (R199). -/
def execGetr (ch : BitVec 2) (s : State) : Host.Outcome State Fault Refusal :=
  if s.busy then .fault .commandWhileBusy
  else
    match chOfBits ch with
    | some c => .next (respond statusOk ch false (s.chan.get c).realizedHz s)
    | none => .next (respondIllegal ch s)

/-- GETQ: answers with `CH[ch].requestedHz` (R200). -/
def execGetq (ch : BitVec 2) (s : State) : Host.Outcome State Fault Refusal :=
  if s.busy then .fault .commandWhileBusy
  else
    match chOfBits ch with
    | some c => .next (respond statusOk ch false (s.chan.get c).requestedHz s)
    | none => .next (respondIllegal ch s)

end Sys2Proof.Machine
end

