-- ==== Sys2Proof/Machine/Sequencer.lean ====
section
/-! DEFINITION. The state sequencer: the steps S1 to S9 of SETF, one definition per value of SEQ (spec/42_coordinator.md R183 to R197). -/

namespace Sys2Proof.Machine

/-- S1: the frequency lies in [8,000, 160,000,000], else `InvalidFrequency` (R183). -/
def stepS1 (s : State) : Result State :=
  (getFout s).bind fun f =>
    if f.toNat < fMin ∨ fMax < f.toNat then .raised .invalidFrequency s else .ok { s with seq := .s2 }

/-- The shared-PLL constraint: the sibling's committed request is zero or the same frequency (R184). -/
def siblingAllows (cs : Channels) (c : Channel) (f : Hz) : Bool :=
  match sibling c with
  | none => true
  | some o => (cs.get o).requestedHz == 0 || (cs.get o).requestedHz == f

/-- S2: the shared-PLL constraint, else `PhaseConstraintViolation` (R184). -/
def stepS2 (s : State) : Result State :=
  (getCh s).bind fun c =>
  (getFout s).bind fun f =>
    if siblingAllows s.chan c f then .ok { s with seq := .s3 } else .raised .phaseConstraintViolation s

/-- S3: the channel is Configuring; the VCO is fixed at `4 * fout` above 150 MHz, else searched (R187). -/
def stepS3 (s : State) : Result State :=
  (getCh s).bind fun c =>
  (getFout s).bind fun f =>
    let s1 := setPhase c .configuring s
    if isDivBy4 f.toNat then
      .ok { s1 with w := { s1.w with vco := some (narrow32 (4 * f.toNat)), n := some 4, r := some 0 }, seq := .s4 }
    else (svcoOp s1).bind fun t => .ok { t with seq := .s4 }

/-- `W.ms.r <- W.r` (R189). -/
def copyR (s : State) : Result State :=
  (getR s).bind fun r => .ok { s with w := { s.w with msR := some r } }

/-- S4: CPLL, CMS, the copy of `rDivExp`, APHO (R188, R189). -/
def stepS4 (s : State) : Result State :=
  (cpllOp s).bind fun s1 =>
  (cmsOp s1).bind fun s2 =>
  (copyR s2).bind fun s3 =>
  (aphoOp s3).bind fun s4 => .ok { s4 with seq := .s5a }

/-- S5A: BUSLOCK rises; the PLL block of the channel's PLL is encoded and written (R190). -/
def stepS5a (s : State) : Result State :=
  (getCh s).bind fun c =>
  (encpOp { s with busLock := true }).bind fun s1 =>
  (wrbOp (latch (pllBase s1.cfg (pllSrc c)) s1.opnd.val s1)).bind fun s2 => .ok { s2 with seq := .s5b }

/-- S5B: the channel's MultiSynth block is encoded and written (R190). -/
def stepS5b (s : State) : Result State :=
  (getCh s).bind fun c =>
  (encmOp s).bind fun s1 =>
  (wrbOp (latch (msBase c) s1.opnd.val s1)).bind fun s2 => .ok { s2 with seq := .s6 }

/-- S6: the channel control register (R191). -/
def stepS6 (s : State) : Result State :=
  (getCh s).bind fun c =>
  (getMsInt s).bind fun int =>
  (getMsDiv4 s).bind fun div4 =>
  (getInv s).bind fun inv =>
    let ctl := ctlByte (controlIntBit int div4) (pllSrc c == .B) inv s.cfg.idrv
    let s1 := { s with w := { s.w with ctl := some ctl } }
    (wr1Op (latch (regClk c) ctl s1)).bind fun s2 =>
      .ok { s2 with seq := if s2.cfg.verifyEnable then .s6v else .s7 }

/-- S6V: the read-back of the channel control register (R191). -/
def stepS6v (s : State) : Result State :=
  (getCh s).bind fun c =>
  (getCtl s).bind fun ctl =>
  (vfyOp (latch (regClk c) ctl s)).bind fun s1 => .ok { s1 with seq := .s7 }

/-- S7: the output-enable register, written whole (R192). -/
def stepS7 (s : State) : Result State :=
  (getCh s).bind fun c =>
    let oe := oeByte s.chan c
    let s1 := { s with w := { s.w with oe := some oe } }
    (wr1Op (latch regOe oe s1)).bind fun s2 =>
      .ok { s2 with seq := if s2.cfg.verifyEnable then .s7v else .s8 }

/-- S7V: the read-back of the output-enable register (R192). -/
def stepS7v (s : State) : Result State :=
  (getOe s).bind fun oe =>
  (vfyOp (latch regOe oe s)).bind fun s1 => .ok { s1 with seq := .s8 }

/-- S8: the PLL that was just reprogrammed is reset (R193). -/
def stepS8 (s : State) : Result State :=
  (getCh s).bind fun c =>
    let b := rstByte s.cfg (pllSrc c)
    let s1 := { s with w := { s.w with rst := some b } }
    (wr1Op (latch regRst b s1)).bind fun s2 => .ok { s2 with seq := .s9 }

/-- `W.vco / W.n / 2^W.r`, integer divisions, left to right (R195). -/
def realized (vco n r : Nat) : Nat := vco / n / 2 ^ r

/-- The commit of channel `c` and the response Ok (R195). -/
def commit (c : Channel) (fout real : Hz) (s : State) : State :=
  release (respond statusOk (chBits c) s.vm real
    { s with busLock := false, chan := s.chan.set c ⟨fout, real, .active⟩ })

/-- S9: commit and respond (R195). A division by `W.n = 0` has no meaning (spec/00_scope.md R12, log 10). -/
def stepS9 (s : State) : Result State :=
  (getCh s).bind fun c =>
  (getFout s).bind fun f =>
  (getVco s).bind fun vco =>
  (getN s).bind fun n =>
  (getR s).bind fun r =>
    if n.toNat = 0 then .refused .divisionByZero
    else .ok (commit c f (BitVec.ofNat 32 (realized vco.toNat n.toNat r.toNat)) s)

/-- One step of the sequencer (R197). In IDLE there is none. -/
def seqStep (s : State) : Result State :=
  match s.seq with
  | .idle => .ok s
  | .s1 => stepS1 s
  | .s2 => stepS2 s
  | .s3 => stepS3 s
  | .s4 => stepS4 s
  | .s5a => stepS5a s
  | .s5b => stepS5b s
  | .s6 => stepS6 s
  | .s6v => stepS6v s
  | .s7 => stepS7 s
  | .s7v => stepS7v s
  | .s8 => stepS8 s
  | .s9 => stepS9 s

/-! ### Reset while a command is in progress (spec/70_reset_and_hazards.md R262) -/

/-- `n` register addresses from `a` on, as an 8-bit pointer runs through them. -/
def addrsFrom (a : RegAddr) (n : Nat) : List Nat := (List.range n).map fun i => (a.toNat + i) % 256

/-- The registers addressed by the transaction of the step in progress. -/
def addressed (s : State) : List Nat :=
  match s.uop with
  | some c =>
    if c = 8 then addrsFrom s.opnd.addr 8 else if c = 9 ∨ c = 10 then addrsFrom s.opnd.addr 1 else []
  | none =>
    match s.seq, s.w.ch with
    | .s5a, some c => addrsFrom (pllBase s.cfg (pllSrc c)) 8
    | .s5b, some c => addrsFrom (msBase c) 8
    | .s6, some c | .s6v, some c => addrsFrom (regClk c) 1
    | .s7, _ | .s7v, _ => addrsFrom regOe 1
    | .s8, _ => addrsFrom regRst 1
    | _, _ => []

/-- Reset (R260): every piece of the block's state at its reset value, no transaction, no response; the parameters, the chip and what stands
at the ports outside the block stay (R261, log 11). With a transaction in flight the registers it addresses are unknown afterwards (R262, U12). -/
def applyReset (s : State) : State :=
  { State.reset with
    cfg := s.cfg
    chip := match s.rst with
      | .low => s.chip
      | .high => s.chip
      | .highInFlight => s.chip.forgetAll (addressed s)
    cmd := s.cmd
    rsp := s.rsp
    xport := s.xport
    draws := s.draws }

end Sys2Proof.Machine
end

