-- ==== Sys2Proof/Machine/Dispatch.lean ====
section
/-! DEFINITION. One arm per operation of spec/opcode_table.json. -/

namespace Sys2Proof.Machine

def exec (i : Instr) (s : State) : Host.Outcome State Fault Refusal :=
  match i with
  | .setf ch inv ph hz => Sys2Proof.Machine.execSetf ch inv ph hz s
  | .getr ch => Sys2Proof.Machine.execGetr ch s
  | .getq ch => Sys2Proof.Machine.execGetq ch s
  | .cpll => Sys2Proof.Machine.execCpll s
  | .cms => Sys2Proof.Machine.execCms s
  | .chr => Sys2Proof.Machine.execChr s
  | .svco => Sys2Proof.Machine.execSvco s
  | .apho => Sys2Proof.Machine.execApho s
  | .encp => Sys2Proof.Machine.execEncp s
  | .encm => Sys2Proof.Machine.execEncm s
  | .decb => Sys2Proof.Machine.execDecb s
  | .wrb => Sys2Proof.Machine.execWrb s
  | .wr1 => Sys2Proof.Machine.execWr1 s
  | .vfy => Sys2Proof.Machine.execVfy s

end Sys2Proof.Machine
end

