-- ==== Sys2Proof/Machine/Fetch.lean ====
section
/-! DEFINITION. Where the next instruction comes from: the command port of an idle block, or the direct-call latch. -/

namespace Sys2Proof.Machine

/-- The command port: a word is accepted only when BUSY = 0 (spec/20_memory.md R61); an illegal one is answered (spec/30_encoding.md R88);
with no word presented the block waits in IDLE (spec/10_state.md R45). -/
def portStep (s : State) : Host.Outcome State Fault Refusal :=
  match s.cmd with
  | [] => .next s
  | w :: rest =>
    match decodeCmd w with
    | .ok i => exec i { s with cmd := rest }
    | .error _ => if s.busy then .fault .commandWhileBusy else .next (respondIllegal (fieldCh w) { s with cmd := rest })

/-- A directly called micro-operation (log 5). -/
def uopStep (c : BitVec 4) (s : State) : Host.Outcome State Fault Refusal :=
  match decodeUop c with
  | .ok i => exec i { s with uop := none }
  | .error _ => .refused .unusedSelectCode

end Sys2Proof.Machine
end

