-- ==== Sys2Proof/Machine/Step.lean ====
section
/-! DEFINITION. One step of the machine: reset, a directly called micro-operation, a step of the sequencer, or the command port; and where a
word stands that the next step runs. -/

namespace Sys2Proof.Machine

/-- One step. -/
def step (s : State) : Host.Outcome State Fault Refusal :=
  if s.rst ≠ .low then .next (applyReset s)
  else
    match s.uop with
    | some c => uopStep c s
    | none => if s.seq = .idle then portStep s else finish (seqStep s)

/-- Where a word stands that the next step runs: a command at the port of an idle block, a select code in the direct-call latch (log 12, log 19). -/
def State.withFetchWord (s : State) (nbits w : Nat) : State :=
  match codeOfTableWord nbits w with
  | .cmd x => { s with rst := .low, uop := none, seq := .idle, busy := false, cmd := x :: s.cmd }
  | .uop c => { s with rst := .low, uop := some c }

end Sys2Proof.Machine
end

