-- ==== Sys2Proof/Safety.lean ====
section
/-! DEFINITION. What counts as a good state and a safe run: the terms the statements are written in. -/

namespace Sys2Proof.Machine

/-- `k` steps of the machine, stopping at the first fault or refusal. -/
def run (k : Nat) (s : State) : Host.Outcome State Fault Refusal := Host.Core.run Sys2Proof.core k s

/-- No reset and no directly called micro-operation is pending: the next step is the sequencer's or the command port's. -/
def Quiet (s : State) : Prop := s.rst = .low ∧ s.uop = none

/-- The block waits for a command (spec/10_state.md R45). -/
def Ready (s : State) : Prop := Quiet s ∧ s.seq = .idle ∧ s.busy = false

/-- The place of a value of SEQ in the order of spec/10_state.md R26. -/
def Seq.rank : Seq → Nat
  | .idle => 0
  | .s1 => 1
  | .s2 => 2
  | .s3 => 3
  | .s4 => 4
  | .s5a => 5
  | .s5b => 6
  | .s6 => 7
  | .s6v => 8
  | .s7 => 9
  | .s7v => 10
  | .s8 => 11
  | .s9 => 12

/-- The constraint on `XTAL_HZ` (spec/00_scope.md R11). -/
def XtalLegal (p : Params) : Prop := 0 < p.xtalHz.toNat ∧ p.xtalHz.toNat ≤ 150000000

/-- A frequency step 1 lets pass (spec/42_coordinator.md R183). -/
def InRange (f : Hz) : Prop := 8000 ≤ f.toNat ∧ f.toNat ≤ 160000000

/-- What step 3 leaves in `W.vco`, `W.n`, `W.r` (spec/10_state.md R43, spec/40_planner.md R131, spec/42_coordinator.md R187). -/
def Planned (f vco : Hz) (n : BitVec 11) (r : BitVec 3) : Prop :=
  vco.toNat = f.toNat * 2 ^ r.toNat * n.toNat ∧
  ((150000000 < f.toNat ∧ n = 4 ∧ r = 0) ∨
   (f.toNat ≤ 150000000 ∧ 6 ≤ n.toNat ∧ n.toNat ≤ 1800 ∧ 600000000 ≤ vco.toNat ∧ vco.toNat ≤ 900000000))

/-- `(n, r)` is a candidate of the search for `f` (spec/40_planner.md R130). -/
def IsCandidate (f n r : Nat) : Prop :=
  6 ≤ n ∧ n ≤ 1800 ∧ r ≤ 7 ∧ 600000000 ≤ f * 2 ^ r * n ∧ f * 2 ^ r * n ≤ 900000000

/-! ### The Transport's answers, as a state determines them (spec/20_memory.md R54; log 1) -/

/-- The answer the `k`-th transaction from `s` on is drawn: one that stands in State, or a free one. -/
def oracle (s : State) (k : Nat) : Answer :=
  match s.xport[k]? with
  | some a => a
  | none => Config.transportAnswer (s.draws + (k - s.xport.length))

/-- The count of free values after `k` draws from `s` on. -/
def drawsAfter (k : Nat) (s : State) : Nat := s.draws + (k - s.xport.length)

/-- The `k`-th transaction from `s` on, a write of `len` data bytes, is answered `ok`. -/
def WriteOk (s : State) (len k : Nat) : Prop := answerToWrite (oracle s k) (len + 1) = some (len + 1)

/-- The first attempt answered `ok` is the `k`-th, and it is one of the three. -/
def FirstWriteOk (s : State) (len k : Nat) : Prop := k < 3 ∧ (∀ j, j < k → ¬ WriteOk s len j) ∧ WriteOk s len k

/-- All three attempts fail. -/
def WritesFail (s : State) (len : Nat) : Prop := ∀ j, j < 3 → ¬ WriteOk s len j

/-- The transactions of `k` attempts at one write, as TRACE records them. -/
def writeTxns (s : State) (reg : RegAddr) (data : List Byte) (k : Nat) : List Txn :=
  (List.range k).map fun j => ⟨s.cfg.chipAddr, reg, .write data, writeAnswer (answerToWrite (oracle s j) (data.length + 1))⟩

/-- A recorded transaction is a write. -/
def Txn.isWrite (t : Txn) : Bool :=
  match t.kind with
  | .write _ => true
  | .read _ => false

/-- The byte the `k`-th transaction from `s` on, a read of register `reg`, is answered with; `none` is `fail`. -/
def readOracle (s : State) (reg : RegAddr) (k : Nat) : Option Byte :=
  match oracle s k with
  | .reply _ byte => byte
  | .device => some ((s.chip.read reg.toNat).getD (Config.unknownByte (drawsAfter (k + 1) s)))

/-- The first read answered `ok` is the `k`-th, and it is one of the three; it returns `b`. -/
def FirstReadOk (s : State) (reg : RegAddr) (k : Nat) (b : Byte) : Prop :=
  k < 3 ∧ (∀ j, j < k → readOracle s reg j = none) ∧ readOracle s reg k = some b

/-- All three reads fail. -/
def ReadsFail (s : State) (reg : RegAddr) : Prop := ∀ j, j < 3 → readOracle s reg j = none

/-- The `j`-th transaction of a SETF on channel `c`, the `first + j`-th from `s` on, is answered `ok` where no attempt failed before it: it is one
of the five writes of spec/42_coordinator.md R186 or, with `VERIFY_ENABLE`, one of the two read-backs among them. -/
def SetfAnswerOk (s : State) (c : Channel) (first j : Nat) : Prop :=
  if j < 2 then WriteOk s 8 (first + j)
  else if s.cfg.verifyEnable = true ∧ (j = 3 ∨ j = 5) then readOracle s (if j = 3 then regClk c else regOe) (first + j) ≠ none
  else WriteOk s 1 (first + j)

/-- The count of free values after `k + 1` reads of register `reg`, the last one answered `ok`: one more is used up where the device model
answered and the register is unknown. -/
def drawsAfterReads (reg : RegAddr) (k : Nat) (s : State) : Nat :=
  if oracle s k = .device ∧ s.chip.read reg.toNat = none then drawsAfter (k + 1) s + 1 else drawsAfter (k + 1) s

/-- The transactions of `k` attempts at one read, as TRACE records them. -/
def readTxns (s : State) (reg : RegAddr) (k : Nat) : List Txn :=
  (List.range k).map fun j => ⟨s.cfg.chipAddr, reg, .read 1, readAnswer (readOracle s reg j)⟩

/-- The working registers the steps before the one at SEQ have written (spec/10_state.md R22, R24), with what is known of their values. -/
structure WorkInv (s : State) : Prop where
  /-- Outside a command no working register holds a value (R24, R34). -/
  ended : s.seq = .idle → s.w = Work.unwritten
  /-- From acceptance on the four operands are latched (spec/42_coordinator.md R182). -/
  operands : 1 ≤ s.seq.rank → ∃ c f i p, s.w.ch = some c ∧ s.w.fout = some f ∧ s.w.inv = some i ∧ s.w.ph = some p
  /-- Step 1 has been passed (R183). -/
  range : 2 ≤ s.seq.rank → ∀ f, s.w.fout = some f → InRange f
  /-- Step 2 has been passed (R184). -/
  sibling : 3 ≤ s.seq.rank → ∀ c f, s.w.ch = some c → s.w.fout = some f → siblingAllows s.chan c f = true
  /-- Step 3 has been done (R187). -/
  plan : 4 ≤ s.seq.rank → ∃ f vco n r, s.w.fout = some f ∧ s.w.vco = some vco ∧ s.w.n = some n ∧ s.w.r = some r ∧ Planned f vco n r
  /-- Step 4 has written the PLL parameters (R188). -/
  pll : 5 ≤ s.seq.rank → ∃ p1 p2 p3, s.w.pllP1 = some p1 ∧ s.w.pllP2 = some p2 ∧ s.w.pllP3 = some p3
  /-- Step 4 has written the MultiSynth parameters (R189). -/
  ms : 5 ≤ s.seq.rank → ∃ p1 p2 p3 i d r, s.w.msP1 = some p1 ∧ s.w.msP2 = some p2 ∧ s.w.msP3 = some p3 ∧ s.w.msInt = some i ∧
    s.w.msDiv4 = some d ∧ s.w.msR = some r
  /-- The control byte of step 6 is there for its read-back (R191). -/
  control : s.seq = .s6v → ∃ b, s.w.ctl = some b
  /-- The output-enable byte of step 7 is there for its read-back (R192). -/
  enable : s.seq = .s7v → ∃ b, s.w.oe = some b

/-- The good states. Every clause holds at reset and is kept by every step; none is true of all states. -/
structure Inv (s : State) : Prop where
  /-- The chip's register space is in its canonical form. -/
  memory : s.chip.wf = true
  /-- BUSY is 1 from acceptance to response (spec/10_state.md R28). -/
  busy : s.busy = busyAt s.seq
  /-- BUSLOCK is 1 from the start of S5A to the end of the sequence (R28, spec/20_memory.md R62). -/
  busLock : s.busLock = busLockAt s.seq
  /-- No register operation is in progress between two steps (R41). -/
  att : s.att = 0
  /-- `XTAL_HZ` is legal (spec/00_scope.md R11). -/
  xtal : XtalLegal s.cfg
  /-- After every success `realizedHz = requestedHz` (spec/42_coordinator.md R195, spec/70_reset_and_hazards.md R279). -/
  realized : ∀ c, (s.chan.get c).realizedHz = (s.chan.get c).requestedHz
  /-- A committed request is 0 or a legal frequency (R31). -/
  legal : ∀ c, (s.chan.get c).requestedHz = 0 ∨ InRange (s.chan.get c).requestedHz
  /-- Channels 1 and 2 agree where both are configured (R184). -/
  shared : (s.chan.get .ch1).requestedHz = 0 ∨ (s.chan.get .ch2).requestedHz = 0 ∨
    (s.chan.get .ch1).requestedHz = (s.chan.get .ch2).requestedHz
  /-- Only two error kinds are a `reason` (spec/60_exceptions.md R228). -/
  reason : ∀ c e, (s.chan.get c).phase = .failed e → e = .noValidDivider ∨ e = .transportError
  /-- Only the channel of the command in progress is Configuring (spec/42_coordinator.md R198). -/
  configuring : ∀ c, (s.chan.get c).phase = .configuring → 4 ≤ s.seq.rank ∧ s.w.ch = some c
  /-- The working registers. -/
  work : WorkInv s

end Sys2Proof.Machine
end

