-- ==== Sys2Proof/Certificates/Slice0/Obligations.lean ====
section
/-! DEFINITION. The statements for the provers, from the numbered rules of spec/. -/

open Sys2Proof Sys2Proof.Machine

/-! ### Terms of the statements -/

/-- A response word by the arithmetic of spec/30_encoding.md R86. -/
def Sys2Proof.Machine.respWord (status : Nat) (ch : Nat) (vm : Bool) (hz : Nat) : BitVec 64 :=
  BitVec.ofNat 64 (status * 2 ^ 60 + ch * 2 ^ 58 + (if vm then 1 else 0) * 2 ^ 57 + hz)

/-- The number of a channel. -/
def Sys2Proof.Machine.chNum : Channel → Nat
  | .ch0 => 0
  | .ch1 => 1
  | .ch2 => 2

/-- `x` is what taking error `e` (status `code`) in state `s` gives (spec/60_exceptions.md R231): in S1 and S2 the rejection of
spec/42_coordinator.md R185, in S3 to S8 the abort of R196, and outside a SETF the error returned to the caller (the model's choice, log 6). With
the command ended no working register holds a value (R24, R34; log 4). -/
def Sys2Proof.Machine.ErrorTaken (e : ErrorKind) (code : Nat) (s : State) (x : Host.Outcome State Fault Refusal) : Prop :=
  ((s.seq = .idle ∨ s.seq = .s9) → x = .next { s with ret := .raised e }) ∧
  (∀ c, s.w.ch = some c → 1 ≤ s.seq.rank → s.seq.rank ≤ 2 →
    x = .next { s with seq := .idle, busy := false, w := Work.unwritten, rsp := s.rsp ++ [respWord code (chNum c) s.vm 0] }) ∧
  (∀ c, s.w.ch = some c → 3 ≤ s.seq.rank → s.seq.rank ≤ 11 →
    x = .next { s with
      seq := .idle, busy := false, busLock := false, w := Work.unwritten, rsp := s.rsp ++ [respWord code (chNum c) s.vm 0],
      chan := s.chan.set c { s.chan.get c with phase := .failed e } })

/-! ### Encoding -/

/-- R84, R85, R90, R104: no operand bit of any instruction is dropped. -/
def Obligations.DecodeOfEncodeIsTheInstruction : Prop :=
  ∀ i : Instr, i.wellFormed = true → decode (encode i) = .ok i

/-- R84, R85, R90: a word or select code that decodes has one meaning, whose encoding it is. -/
def Obligations.EncodeOfDecodedCodeIsTheCode : Prop :=
  ∀ (c : Code) (i : Instr), decode c = .ok i → encode i = c

/-- Words of spec/30_encoding.md R104 and spec/95_test_vectors.md 2.10 decode to the commands they stand for. -/
def Obligations.SpecWordsDecode : Prop :=
  decode (.cmd 0x18000096000F4240) = .ok (.setf 2 false 150 1000000) ∧
  decode (.cmd 0x1200000509896800) = .ok (.setf 0 true 5 160000000) ∧
  decode (.cmd 0x2400000000000000) = .ok (.getr 1) ∧
  decode (.cmd 0x3800000000000000) = .ok (.getq 2) ∧
  decode (.uop 0x3) = .ok .svco ∧
  decode (.uop 0xA) = .ok .vfy

/-- R88: which words are illegal, and that the block answers such a word with IllegalCommand, `hz = 0`, `vm = 0`, the word's `ch`, changes
nothing else and issues no transaction. -/
def Obligations.IllegalCommandIsAnsweredAndChangesNothing : Prop :=
  ∀ (s : State) (w : BitVec 64) (rest : List (BitVec 64)), Ready s → s.cmd = w :: rest →
    let op := w.toNat / 2 ^ 60
    let ch := w.toNat / 2 ^ 58 % 4
    let rsv := w.toNat / 2 ^ 48 % 2 ^ 9
    let low := w.toNat % 2 ^ 48
    let inv := w.toNat / 2 ^ 57 % 2
    (op ≠ 1 ∧ op ≠ 2 ∧ op ≠ 3) ∨ ch = 3 ∨ rsv ≠ 0 ∨ (op ≠ 1 ∧ (inv ≠ 0 ∨ low ≠ 0)) →
    step s = .next { s with cmd := rest, rsp := s.rsp ++ [respWord 15 ch false 0] }

/-! ### The step -/

/-- R61, R85, R182: at an idle block the word presented at CMD is taken and the instruction it decodes to is run. -/
def Obligations.PresentedCommandRuns : Prop :=
  ∀ (s : State) (w : BitVec 64) (rest : List (BitVec 64)) (i : Instr), Quiet s → s.seq = .idle → s.cmd = w :: rest →
    decode (.cmd w) = .ok i → step s = exec i { s with cmd := rest }

/-- R90 and log 5: a directly called micro-operation is run next, whatever the sequencer is doing; a select code that names none is refused. -/
def Obligations.CalledMicroOperationRuns : Prop :=
  ∀ (s : State) (c : BitVec 4), s.rst = .low → s.uop = some c →
    (∀ i, decode (.uop c) = .ok i → step s = exec i { s with uop := none }) ∧
    (11 ≤ c.toNat → step s = .refused .unusedSelectCode)

/-- R45, R59, log 12, log 19: a well-formed instruction's word, placed by `withFetchWord`, is what the next step runs. -/
def Obligations.PlacedWordRunsNext : Prop :=
  ∀ (s : State) (w : Nat) (i : Instr),
    (decodeTableWord 64 w = some i →
      step (s.withFetchWord 64 w) = exec i { s with rst := .low, uop := none, seq := .idle, busy := false }) ∧
    (decodeTableWord 8 w = some i → step (s.withFetchWord 8 w) = exec i { s with rst := .low, uop := none })

/-- R45: with no command presented the block waits in IDLE. -/
def Obligations.IdleBlockWaits : Prop :=
  ∀ s : State, Quiet s → s.seq = .idle → s.cmd = [] → step s = .next s

/-! ### Reset -/

/-- R44: the values the spec gives for reset. R44 gives the parameters only as "their configured values": that they are at the default column of
R10 is the model's choice (log 15), and five of those defaults are general knowledge (log 17). An unspecified chip register is listed nowhere (the
model's, log 2). (The fields that are the model's own are not named.) -/
def Obligations.ResetStateIsTheSpecs : Prop :=
  (∀ c, (State.reset.chan.get c).requestedHz = 0 ∧ (State.reset.chan.get c).realizedHz = 0 ∧ (State.reset.chan.get c).phase = .idle) ∧
  State.reset.seq = .idle ∧ State.reset.att = 0 ∧ State.reset.busy = false ∧ State.reset.busLock = false ∧ State.reset.vm = false ∧
  State.reset.trace = [] ∧ (∀ a, State.reset.chip.read a = none) ∧
  State.reset.w = ⟨none, none, none, none, none, none, none, none, none, none, none, none, none, none, none, none, none, none, none, none, none⟩ ∧
  State.reset.cfg.xtalHz = 25000000 ∧ State.reset.cfg.chipAddr = 0x60 ∧ State.reset.cfg.idrv = 3 ∧ State.reset.cfg.rstA = 0x20 ∧
  State.reset.cfg.rstB = 0x80 ∧ State.reset.cfg.divBy4Block.toList = [0x00, 0x01, 0x0C, 0x00, 0x00, 0x00, 0x00, 0x00] ∧
  State.reset.cfg.verifyEnable = false ∧ State.reset.cfg.pllbBase = 90

/-- R260, R261, R262: reset puts the block's state at its reset values, delivers no response and issues no transaction, whatever was in
progress; the chip keeps its registers, except that those addressed by a transaction in flight are unknown afterwards. (That the ports and the
parameters keep what they hold is the model's choice, log 11.) -/
def Obligations.ResetAbandonsTheCommand : Prop :=
  ∀ s : State, s.rst ≠ .low → s.chip.wf = true →
    ∃ t, step s = .next t ∧
      t.chan = State.reset.chan ∧ t.w = State.reset.w ∧ t.seq = .idle ∧ t.att = 0 ∧ t.busy = false ∧ t.busLock = false ∧ t.vm = false ∧
      t.trace = [] ∧ t.rst = .low ∧ t.cfg = s.cfg ∧ t.rsp = s.rsp ∧ t.cmd = s.cmd ∧ t.xport = s.xport ∧
      (s.rst = .high → t.chip = s.chip) ∧
      (s.rst = .highInFlight → s.uop = none →
        ∀ c, s.w.ch = some c → ∀ a,
          let hit : Prop :=
            (s.seq = .s5a ∧ ∃ i, i < 8 ∧ a = ((if c = .ch0 then s.cfg.pllbBase else 26).toNat + i) % 256) ∨
            (s.seq = .s5b ∧ 42 + 8 * chNum c ≤ a ∧ a < 50 + 8 * chNum c) ∨
            ((s.seq = .s6 ∨ s.seq = .s6v) ∧ a = 16 + chNum c) ∨ ((s.seq = .s7 ∨ s.seq = .s7v) ∧ a = 3) ∨ (s.seq = .s8 ∧ a = 177)
          (hit → t.chip.read a = none) ∧ (¬ hit → t.chip.read a = s.chip.read a))

/-! ### Commands -/

/-- R182: acceptance of a SETF: BUSY set, VM cleared, the operands latched, every other working register without a value, SEQ at S1; nothing
else changes. -/
def Obligations.SetfIsAccepted : Prop :=
  ∀ (s : State) (c : Channel) (inv : Bool) (ph : BitVec 16) (hz : Hz), s.busy = false →
    exec (.setf (BitVec.ofNat 2 (chNum c)) inv ph hz) s = .next { s with
      busy := true, vm := false, seq := .s1
      w := ⟨some c, some hz, some inv, some ph, none, none, none, none, none, none, none, none, none, none, none, none, none, none, none, none, none⟩ }

/-- R199: GETR answers with the last committed realized frequency and writes nothing. -/
def Obligations.GetrAnswersRealizedFrequency : Prop :=
  ∀ (s : State) (c : Channel), s.busy = false →
    exec (.getr (BitVec.ofNat 2 (chNum c))) s =
      .next { s with rsp := s.rsp ++ [respWord 0 (chNum c) false (s.chan.get c).realizedHz.toNat] }

/-- R200: GETQ answers with the committed requested frequency and writes nothing. -/
def Obligations.GetqAnswersRequestedFrequency : Prop :=
  ∀ (s : State) (c : Channel), s.busy = false →
    exec (.getq (BitVec.ofNat 2 (chNum c))) s =
      .next { s with rsp := s.rsp ++ [respWord 0 (chNum c) false (s.chan.get c).requestedHz.toNat] }

/-- R88: a command whose channel field is 3 is answered with IllegalCommand and changes nothing else. -/
def Obligations.ChannelThreeIsIllegal : Prop :=
  ∀ (s : State) (i : Instr), s.busy = false → ((∃ inv ph hz, i = .setf 3 inv ph hz) ∨ i = .getr 3 ∨ i = .getq 3) →
    exec i s = .next { s with rsp := s.rsp ++ [respWord 15 3 false 0] }

/-- R61, U16: while BUSY = 1 no command is accepted: given to the unit it is stuck, and at the port it stays where it is. -/
def Obligations.BusyBlockAcceptsNoCommand : Prop :=
  (∀ (s : State) (ch : BitVec 2) (inv : Bool) (ph : BitVec 16) (hz : Hz), s.busy = true →
    exec (.setf ch inv ph hz) s = .fault .commandWhileBusy ∧ exec (.getr ch) s = .fault .commandWhileBusy ∧
    exec (.getq ch) s = .fault .commandWhileBusy) ∧
  (∀ s t : State, Quiet s → s.seq ≠ .idle → step s = .next t → t.cmd = s.cmd)

/-! ### Planner -/

/-- R122, R123: CPLL writes `W.pll` with FRAC of the VCO and the crystal, inside FRAC's precondition R124; nothing else changes. A `P1` that
does not fit its register is a free value (log 7); `ret` is the model's own (log 5). -/
def Obligations.CpllWritesPllParameters : Prop :=
  ∀ (s : State) (vco : Hz), s.w.vco = some vco → 0 < s.cfg.xtalHz.toNat → 4 ≤ vco.toNat / s.cfg.xtalHz.toNat →
    let x := s.cfg.xtalHz.toNat
    let a := vco.toNat / x
    let rem := vco.toNat % x
    let b := rem * 2 ^ 20 / x
    let floorTerm := 128 * b / 2 ^ 20
    let p1 := if rem = 0 then 128 * a - 512 else 128 * a + floorTerm - 512
    exec .cpll s = .next { s with
      ret := .done
      w := { s.w with
        pllP1 := some (if p1 < 2 ^ 32 then BitVec.ofNat 32 p1 else Config.outOfRange32 p1)
        pllP2 := some (if rem = 0 then 0 else BitVec.ofNat 20 (128 * b - 2 ^ 20 * floorTerm))
        pllP3 := some (if rem = 0 then 1 else BitVec.ofNat 21 (2 ^ 20))
        pllInt := some (rem == 0) } }

/-- R125: above 150 MHz CMS returns the fixed divide-by-4 encoding and does not read the VCO; it leaves `W.ms.r`. -/
def Obligations.CmsTakesDivideByFourAbove150MHz : Prop :=
  ∀ (s : State) (f : Hz) (r : BitVec 3), s.w.fout = some f → s.w.r = some r → 150000000 < f.toNat * 2 ^ r.toNat →
    exec .cms s = .next { s with
      ret := .done
      w := { s.w with msP1 := some 0, msP2 := some 0, msP3 := some 1, msInt := some true, msDiv4 := some true } }

/-- R122, R125, R126: at or below 150 MHz CMS writes FRAC of the VCO and `fout * 2^r`, inside R124; it leaves `W.ms.r`. -/
def Obligations.CmsWritesFractionalParameters : Prop :=
  ∀ (s : State) (f vco : Hz) (r : BitVec 3), s.w.fout = some f → s.w.r = some r → s.w.vco = some vco →
    f.toNat * 2 ^ r.toNat ≤ 150000000 → 0 < f.toNat → 4 ≤ vco.toNat / (f.toNat * 2 ^ r.toNat) →
    let x := f.toNat * 2 ^ r.toNat
    let a := vco.toNat / x
    let rem := vco.toNat % x
    let b := rem * 2 ^ 20 / x
    let floorTerm := 128 * b / 2 ^ 20
    let p1 := if rem = 0 then 128 * a - 512 else 128 * a + floorTerm - 512
    exec .cms s = .next { s with
      ret := .done
      w := { s.w with
        msP1 := some (if p1 < 2 ^ 32 then BitVec.ofNat 32 p1 else Config.outOfRange32 p1)
        msP2 := some (if rem = 0 then 0 else BitVec.ofNat 20 (128 * b - 2 ^ 20 * floorTerm))
        msP3 := some (if rem = 0 then 1 else BitVec.ofNat 21 (2 ^ 20))
        msInt := some (rem == 0), msDiv4 := some false } }

/-- R124: outside FRAC's precondition CPLL and CMS have no result. -/
def Obligations.FracPreconditionIsChecked : Prop :=
  (∀ (s : State) (vco : Hz), s.w.vco = some vco → s.cfg.xtalHz.toNat = 0 ∨ vco.toNat / s.cfg.xtalHz.toNat < 4 →
    exec .cpll s = .refused .fracPrecondition) ∧
  (∀ (s : State) (f vco : Hz) (r : BitVec 3), s.w.fout = some f → s.w.r = some r → s.w.vco = some vco →
    f.toNat * 2 ^ r.toNat ≤ 150000000 → f.toNat = 0 ∨ vco.toNat / (f.toNat * 2 ^ r.toNat) < 4 →
    exec .cms s = .refused .fracPrecondition)

/-- R127: CHR returns the smallest exponent in 0..7 with `vco / (fout * 2^r)` in [8, 2048], and writes no register. (That a direct
call takes its two frequencies from `W.vco` and `W.fout` is the model's choice, log 22.) -/
def Obligations.ChrReturnsLeastFittingExponent : Prop :=
  ∀ (s : State) (vco f : Hz) (r : Nat), s.w.vco = some vco → s.w.fout = some f → 0 < f.toNat → r ≤ 7 →
    8 * (f.toNat * 2 ^ r) ≤ vco.toNat → vco.toNat ≤ 2048 * (f.toNat * 2 ^ r) →
    (∀ q, q < r → ¬ (8 * (f.toNat * 2 ^ q) ≤ vco.toNat ∧ vco.toNat ≤ 2048 * (f.toNat * 2 ^ q))) →
    exec .chr s = .next { s with ret := .rDivExp (BitVec.ofNat 3 r) }

/-- R127, R222: CHR raises NoValidDivider when no exponent in 0..7 qualifies. For `fout_hz = 0`, outside its domain, the model leaves open
which of the two it does (a free value, log 8). Its operands are as in log 22. -/
def Obligations.ChrRaisesWhereNoExponentFits : Prop :=
  ∀ (s : State) (vco f : Hz), s.w.vco = some vco → s.w.fout = some f →
    (0 < f.toNat → (∀ r, r ≤ 7 → ¬ (8 * (f.toNat * 2 ^ r) ≤ vco.toNat ∧ vco.toNat ≤ 2048 * (f.toNat * 2 ^ r))) →
      ErrorTaken .noValidDivider 2 s (exec .chr s)) ∧
    (f = 0 → (∃ r, exec .chr s = .next { s with ret := .rDivExp r }) ∨ ErrorTaken .noValidDivider 2 s (exec .chr s))

/-- R130, R132: SVCO writes the candidate with the smallest `r`, and among those the smallest `n`; nothing else changes. -/
def Obligations.SvcoReturnsFirstCandidate : Prop :=
  ∀ (s : State) (f : Hz) (n r : Nat), s.w.fout = some f → IsCandidate f.toNat n r →
    (∀ m q, IsCandidate f.toNat m q → r < q ∨ (r = q ∧ n ≤ m)) →
    exec .svco s = .next { s with
      ret := .done
      w := { s.w with
        vco := some (BitVec.ofNat 32 (f.toNat * 2 ^ r * n)), n := some (BitVec.ofNat 11 n), r := some (BitVec.ofNat 3 r) } }

/-- R130, R134, R222: SVCO raises NoValidDivider when no candidate exists. -/
def Obligations.SvcoRaisesWithoutCandidate : Prop :=
  ∀ (s : State) (f : Hz), s.w.fout = some f → (∀ n r, ¬ IsCandidate f.toNat n r) →
    ErrorTaken .noValidDivider 2 s (exec .svco s)

/-- R131: what every result of SVCO satisfies, and that no candidate has an error or a remainder. -/
def Obligations.SearchResultsAreExact : Prop :=
  (∀ f v n r, searchVco f = some (v, n, r) →
    600000000 ≤ v ∧ v ≤ 900000000 ∧ v = f * 2 ^ r * n ∧ v / n / 2 ^ r = f ∧ 6 ≤ n ∧ n ≤ 1800 ∧ r ≤ 7 ∧ f * 2 ^ r ≤ 150000000) ∧
  (∀ f v n r, searchVco f = some (v, n, r) → ∀ m q, IsCandidate f m q →
    (f * 2 ^ q * m) / m / 2 ^ q = f ∧ (f * 2 ^ q * m) % (f * 2 ^ q) = 0)

/-- R133, R134: the closed form of the search, and the frequencies on which it succeeds. -/
def Obligations.SearchHasTheClosedForm : Prop :=
  (∀ f, (∃ x, searchVco f = some x) ↔ 2605 ≤ f ∧ f ≤ 150000000) ∧
  (∀ f r, r ≤ 7 → 333334 ≤ f * 2 ^ r → f * 2 ^ r ≤ 150000000 → (∀ q, q < r → f * 2 ^ q < 333334) →
    searchVco f = some (f * 2 ^ r * max 6 ((600000000 + f * 2 ^ r - 1) / (f * 2 ^ r)), max 6 ((600000000 + f * 2 ^ r - 1) / (f * 2 ^ r)), r))

/-- R105: SETQ expands, in the host, to a SETF whose phase is a quarter of the divider, and to phase 1 above 150 MHz; the block's clamp leaves
that phase as it is exactly when the divider is at most 511. (That it has no expansion where SVCO has no result is the model's reading.) -/
def Obligations.SetqExpandsToAQuarterOfTheDivider : Prop :=
  ∀ (ch : BitVec 2) (hz : Hz) (inv : Bool),
    (150000000 < hz.toNat → expandSetq ch hz inv = some (.setf ch inv 1 hz)) ∧
    (∀ v n r, searchVco hz.toNat = some (v, n, r) →
      expandSetq ch hz inv = some (.setf ch inv (BitVec.ofNat 16 (n / 4)) hz) ∧ (appliedPhase (n / 4) false = n / 4 ↔ n ≤ 511)) ∧
    (hz.toNat ≤ 150000000 → searchVco hz.toNat = none → expandSetq ch hz inv = none)

/-- R135: APHO adds 128 times the clamped phase to `W.ms.P1` and changes nothing else of the struct. A sum that does not fit the register is a
free value (log 7). -/
def Obligations.AphoAddsClampedPhase : Prop :=
  ∀ (s : State) (p1 : BitVec 32) (ph : BitVec 16) (d : Bool), s.w.msP1 = some p1 → s.w.ph = some ph → s.w.msDiv4 = some d →
    let u := min ph.toNat (if d then 1 else 127)
    exec .apho s = .next { s with
      ret := .done
      w := { s.w with
        msP1 := some (if p1.toNat + 128 * u < 2 ^ 32 then BitVec.ofNat 32 (p1.toNat + 128 * u) else Config.outOfRange32 (p1.toNat + 128 * u)) } }

/-- R29: `integerMode == (P2 == 0 && P3 == 1)` holds for every output of CPLL and of CMS, and APHO keeps it. -/
def Obligations.IntegerModeMeansP2ZeroP3One : Prop :=
  (∀ s t : State, exec .cpll s = .next t →
    ∃ p2 p3, t.w.pllP2 = some p2 ∧ t.w.pllP3 = some p3 ∧ t.w.pllInt = some (p2 == 0 && p3 == 1)) ∧
  (∀ s t : State, exec .cms s = .next t →
    ∃ p2 p3, t.w.msP2 = some p2 ∧ t.w.msP3 = some p3 ∧ t.w.msInt = some (p2 == 0 && p3 == 1)) ∧
  (∀ s t : State, exec .apho s = .next t → t.w.msP2 = s.w.msP2 ∧ t.w.msP3 = s.w.msP3 ∧ t.w.msInt = s.w.msInt)

/-- R137, R138: the inverse formula recovers `a` and `b` from `(P1, P2, P3)`. The frequency `fvco'` it gives for a PLL is the VCO's in integer
mode and else short of it by less than `xtal * 2^-20`; the frequency `fout'` it gives for a MultiSynth is not below the target, is the target in
integer mode, and its ratio is short of the target's by less than `2^-20`. -/
def Obligations.InverseFormulaRecoversTheRatio : Prop :=
  ∀ num den p, frac num den = some p →
    inverseA p = num / den ∧
    inverseFloorTerm p = 128 * inverseB p / 2 ^ 20 ∧
    inverseB p = (if num % den = 0 then 0 else num % den * 2 ^ 20 / den) ∧
    128 * inverseRatio p = (p.p1 : ℚ) + 512 + (p.p2 : ℚ) / p.p3 ∧
    (inverseVco den p ≤ num ∧ (num : ℚ) < inverseVco den p + (den : ℚ) / 2 ^ 20) ∧
    ((den : ℚ) ≤ inverseFout num p ∧ (num : ℚ) / inverseFout num p ≤ (num : ℚ) / den ∧
      (num : ℚ) / den < (num : ℚ) / inverseFout num p + 1 / 2 ^ 20) ∧
    (p.int = true → inverseVco den p = num ∧ inverseFout num p = den)

/-! ### Working registers -/

/-- R24: a micro-operation that reads a working register no step of the current command has written faults; which registers each one reads
is R22's table and the operations' rules. (R24 makes it a fault; that the fault names one such register is the model's. That a direct call of CHR
reads `W.vco` and `W.fout`, and one of DECB `W.blk`, is the model's choice, log 22.) -/
def Obligations.UnwrittenRegisterFaults : Prop :=
  ∀ (s : State) (i : Instr),
    (i = .cpll ∧ s.w.vco = none ∨
      i = .cms ∧ (s.w.fout = none ∨ s.w.r = none ∨
        ∃ f r, s.w.fout = some f ∧ s.w.r = some r ∧ f.toNat * 2 ^ r.toNat ≤ 150000000 ∧ s.w.vco = none) ∨
      i = .chr ∧ (s.w.vco = none ∨ s.w.fout = none) ∨ i = .svco ∧ s.w.fout = none ∨
      i = .apho ∧ (s.w.msP1 = none ∨ s.w.ph = none ∨ s.w.msDiv4 = none) ∨
      i = .encp ∧ (s.w.pllP1 = none ∨ s.w.pllP2 = none ∨ s.w.pllP3 = none) ∨
      i = .encm ∧ (s.w.msDiv4 = none ∨
        s.w.msDiv4 = some false ∧ (s.w.msP1 = none ∨ s.w.msP2 = none ∨ s.w.msP3 = none ∨ s.w.msR = none)) ∨
      (i = .decb ∨ i = .wrb) ∧ s.w.blk = none) →
    ∃ reg, exec i s = .fault (.unwrittenRegister reg)

/-! ### Register protocol -/

/-- R150: ENCP's block, byte by byte; nothing else changes and `integerMode` is not read. -/
def Obligations.EncpPacksTheBlock : Prop :=
  ∀ (s : State) (p1 : BitVec 32) (p2 : BitVec 20) (p3 : BitVec 21),
    s.w.pllP1 = some p1 → s.w.pllP2 = some p2 → s.w.pllP3 = some p3 →
    ∃ b : Block, exec .encp s = .next { s with ret := .done, w := { s.w with blk := some b } } ∧
      b.b0.toNat = p3.toNat / 2 ^ 8 % 2 ^ 8 ∧ b.b1.toNat = p3.toNat % 2 ^ 8 ∧ b.b2.toNat = p1.toNat / 2 ^ 16 % 2 ^ 2 ∧
      b.b3.toNat = p1.toNat / 2 ^ 8 % 2 ^ 8 ∧ b.b4.toNat = p1.toNat % 2 ^ 8 ∧
      b.b5.toNat = (p3.toNat / 2 ^ 16 % 2 ^ 4) * 2 ^ 4 + p2.toNat / 2 ^ 16 % 2 ^ 4 ∧
      b.b6.toNat = p2.toNat / 2 ^ 8 % 2 ^ 8 ∧ b.b7.toNat = p2.toNat % 2 ^ 8

/-- R151: ENCM's block in normal mode, byte by byte; nothing else changes and `integerMode` is not read. -/
def Obligations.EncmPacksTheBlockWithTheRDivider : Prop :=
  ∀ (s : State) (p1 : BitVec 32) (p2 : BitVec 20) (p3 : BitVec 21) (r : BitVec 3),
    s.w.msP1 = some p1 → s.w.msP2 = some p2 → s.w.msP3 = some p3 → s.w.msR = some r → s.w.msDiv4 = some false →
    ∃ b : Block, exec .encm s = .next { s with ret := .done, w := { s.w with blk := some b } } ∧
      b.b0.toNat = p3.toNat / 2 ^ 8 % 2 ^ 8 ∧ b.b1.toNat = p3.toNat % 2 ^ 8 ∧
      b.b2.toNat = r.toNat * 2 ^ 4 + p1.toNat / 2 ^ 16 % 2 ^ 2 ∧
      b.b3.toNat = p1.toNat / 2 ^ 8 % 2 ^ 8 ∧ b.b4.toNat = p1.toNat % 2 ^ 8 ∧
      b.b5.toNat = (p3.toNat / 2 ^ 16 % 2 ^ 4) * 2 ^ 4 + p2.toNat / 2 ^ 16 % 2 ^ 4 ∧
      b.b6.toNat = p2.toNat / 2 ^ 8 % 2 ^ 8 ∧ b.b7.toNat = p2.toNat % 2 ^ 8

/-- R152: in divide-by-4 mode ENCM gives the parameter `DIVBY4_BLOCK`, whatever the other MultiSynth registers hold. -/
def Obligations.EncmDivideByFourIsTheFixedPattern : Prop :=
  ∀ s : State, s.w.msDiv4 = some true →
    exec .encm s = .next { s with ret := .done, w := { s.w with blk := some s.cfg.divBy4Block } }

/-- R154: the fields DECB extracts; it writes nothing of the spec (its result is `ret`, log 5; that its eight bytes are `W.blk`
is the model's choice, log 22). -/
def Obligations.DecbExtractsTheFields : Prop :=
  ∀ (s : State) (b : Block), s.w.blk = some b →
    ∃ d : Decoded, exec .decb s = .next { s with ret := .decoded d } ∧
      d.p3f.toNat = b.b5.toNat / 2 ^ 4 * 2 ^ 16 + b.b0.toNat * 2 ^ 8 + b.b1.toNat ∧
      d.p1f.toNat = b.b2.toNat % 2 ^ 2 * 2 ^ 16 + b.b3.toNat * 2 ^ 8 + b.b4.toNat ∧
      d.p2f.toNat = b.b5.toNat % 2 ^ 4 * 2 ^ 16 + b.b6.toNat * 2 ^ 8 + b.b7.toNat ∧
      d.rDivExp.toNat = b.b2.toNat / 2 ^ 4 % 2 ^ 3 ∧ d.div4f.toNat = b.b2.toNat / 2 ^ 2 % 2 ^ 2

/-- R155: the round-trip laws of the block layout. -/
def Obligations.BlockRoundTrips : Prop :=
  (∀ (p1 : BitVec 32) (p2 : BitVec 20) (p3 : BitVec 21),
    decodeBlock (encodePll p1 p2 p3) =
      ⟨BitVec.ofNat 20 (p3.toNat % 2 ^ 20), BitVec.ofNat 18 (p1.toNat % 2 ^ 18), p2, 0, 0⟩) ∧
  (∀ (p1 : BitVec 32) (p2 : BitVec 20) (p3 : BitVec 21) (r : BitVec 3),
    decodeBlock (encodeMs p1 p2 p3 r) =
      ⟨BitVec.ofNat 20 (p3.toNat % 2 ^ 20), BitVec.ofNat 18 (p1.toNat % 2 ^ 18), p2, r, 0⟩) ∧
  (∀ b : Block, b.b2.getLsbD 7 = false → b.b2.getLsbD 3 = false → b.b2.getLsbD 2 = false →
    encodeMs ((decodeBlock b).p1f.setWidth 32) (decodeBlock b).p2f ((decodeBlock b).p3f.setWidth 21) (decodeBlock b).rDivExp = b)

/-- R160, R161, R52, R54: WRB whose `k`-th attempt is the first answered `ok`: `k + 1` identical transactions recorded with their answers, the
eight bytes stored from the base on, ATT back at 0, nothing else changed. For a base above 248 the block passes register 255, where R52 and R161
say nothing: `store` then stores the bytes up to 255 and makes the wrapped registers unknown, the model's choice (log 3). -/
def Obligations.WrbWritesWithinThreeAttempts : Prop :=
  ∀ (s : State) (b : Block) (k : Nat), s.w.blk = some b → FirstWriteOk s 8 k →
    exec .wrb s = .next { s with
      ret := .done, att := 0, xport := s.xport.drop (k + 1), draws := drawsAfter (k + 1) s
      trace := s.trace ++ writeTxns s s.opnd.addr [b.b0, b.b1, b.b2, b.b3, b.b4, b.b5, b.b6, b.b7] (k + 1)
      chip := s.chip.store s.opnd.addr.toNat [b.b0, b.b1, b.b2, b.b3, b.b4, b.b5, b.b6, b.b7] }

/-- R160, R162, R52, R54: WR1 whose `k`-th attempt is the first answered `ok`. -/
def Obligations.WrOneWritesWithinThreeAttempts : Prop :=
  ∀ (s : State) (k : Nat), FirstWriteOk s 1 k →
    exec .wr1 s = .next { s with
      ret := .done, att := 0, xport := s.xport.drop (k + 1), draws := drawsAfter (k + 1) s
      trace := s.trace ++ writeTxns s s.opnd.addr [s.opnd.val] (k + 1)
      chip := s.chip.write s.opnd.addr.toNat s.opnd.val }

/-- R160, R164: VFY whose `k`-th read is the first answered, with byte `b`: VM is set by a mismatch and otherwise kept, no chip register
changes, nothing is rewritten. -/
def Obligations.VfyReportsAMismatchInVm : Prop :=
  ∀ (s : State) (k : Nat) (b : Byte), FirstReadOk s s.opnd.addr k b →
    exec .vfy s = .next { s with
      ret := .done, att := 0, xport := s.xport.drop (k + 1), draws := drawsAfterReads s.opnd.addr k s
      trace := s.trace ++ readTxns s s.opnd.addr (k + 1)
      vm := if b = s.opnd.val then s.vm else true }

/-- R160, R161, R162, R163, R164: WRB, WR1 and VFY all of whose attempts fail: three identical transactions recorded, no chip register and no
other state changed, TransportError taken. -/
def Obligations.RegisterOperationsRaiseAfterThreeFailures : Prop :=
  (∀ (s : State) (b : Block), s.w.blk = some b → WritesFail s 8 →
    ErrorTaken .transportError 4
      { s with
        att := 0, xport := s.xport.drop 3, draws := drawsAfter 3 s
        trace := s.trace ++ writeTxns s s.opnd.addr [b.b0, b.b1, b.b2, b.b3, b.b4, b.b5, b.b6, b.b7] 3 }
      (exec .wrb s)) ∧
  (∀ s : State, WritesFail s 1 →
    ErrorTaken .transportError 4
      { s with
        att := 0, xport := s.xport.drop 3, draws := drawsAfter 3 s
        trace := s.trace ++ writeTxns s s.opnd.addr [s.opnd.val] 3 }
      (exec .wr1 s)) ∧
  (∀ s : State, ReadsFail s s.opnd.addr →
    ErrorTaken .transportError 4
      { s with
        att := 0, xport := s.xport.drop 3, draws := drawsAfter 3 s
        trace := s.trace ++ readTxns s s.opnd.addr 3 }
      (exec .vfy s))

/-- R52, R54, R161, R162: the frame of WRB and of WR1 on the chip: the registers written hold the bytes sent, every other register reads as
before. Past register 255, where the spec states nothing, the registers a wrapping pointer would reach are unknown (log 3). -/
def Obligations.RegisterWritesChangeOnlyTheirRegisters : Prop :=
  (∀ (s t : State) (b : Block) (k : Nat), s.w.blk = some b → FirstWriteOk s 8 k → s.chip.wf = true → exec .wrb s = .next t →
    t.chip.wf = true ∧
    ∀ a, t.chip.read a =
      if s.opnd.addr.toNat ≤ a ∧ a < s.opnd.addr.toNat + 8 ∧ a < 256 then b.toList[a - s.opnd.addr.toNat]?
      else if a + 256 < s.opnd.addr.toNat + 8 then none
      else s.chip.read a) ∧
  (∀ (s t : State) (k : Nat), FirstWriteOk s 1 k → s.chip.wf = true → exec .wr1 s = .next t →
    t.chip.wf = true ∧ ∀ a, t.chip.read a = if a = s.opnd.addr.toNat then some s.opnd.val else s.chip.read a)

/-! ### The sequencer -/

/-- R183, R185: step 1. A frequency outside [8,000, 160,000,000] is rejected: a response, SEQ and BUSY cleared, the request gone from the working
registers with its command (R24, R34; log 4), nothing else changed; else SEQ goes to S2. -/
def Obligations.StepOneValidatesTheFrequency : Prop :=
  ∀ (s : State) (c : Channel) (f : Hz), Quiet s → s.seq = .s1 → s.w.ch = some c → s.w.fout = some f →
    step s = .next (
      if f.toNat < 8000 ∨ 160000000 < f.toNat then
        { s with seq := .idle, busy := false, w := Work.unwritten, rsp := s.rsp ++ [respWord 1 (chNum c) s.vm 0] }
      else { s with seq := .s2 })

/-- R184, R185: step 2. The test reads the sibling's committed `requestedHz` only; a rejection is that of step 1, with its own code;
the working registers are emptied with the command (R24, R34; log 4). -/
def Obligations.StepTwoChecksTheSibling : Prop :=
  ∀ (s : State) (c : Channel) (f : Hz), Quiet s → s.seq = .s2 → s.w.ch = some c → s.w.fout = some f →
    let conflict : Prop :=
      (c = .ch1 ∧ s.chan.c2.requestedHz ≠ 0 ∧ s.chan.c2.requestedHz ≠ f) ∨ (c = .ch2 ∧ s.chan.c1.requestedHz ≠ 0 ∧ s.chan.c1.requestedHz ≠ f)
    (conflict →
      step s = .next { s with seq := .idle, busy := false, w := Work.unwritten, rsp := s.rsp ++ [respWord 3 (chNum c) s.vm 0] }) ∧
    (¬ conflict → step s = .next { s with seq := .s3 })

/-- R187: step 3. The channel is Configuring; above 150 MHz the VCO is `4 * fout`, `n = 4`, `r = 0`, else they are SVCO's. -/
def Obligations.StepThreeDeterminesTheVco : Prop :=
  ∀ (s : State) (c : Channel) (f : Hz), Quiet s → s.seq = .s3 → s.w.ch = some c → s.w.fout = some f → InRange f →
    (150000000 < f.toNat →
      step s = .next { s with
        seq := .s4, chan := s.chan.set c { s.chan.get c with phase := .configuring }
        w := { s.w with vco := some (BitVec.ofNat 32 (4 * f.toNat)), n := some 4, r := some 0 } }) ∧
    (f.toNat ≤ 150000000 →
      ∃ v n r, searchVco f.toNat = some (v, n, r) ∧
        step s = .next { s with
          seq := .s4, chan := s.chan.set c { s.chan.get c with phase := .configuring }
          w := { s.w with vco := some (BitVec.ofNat 32 v), n := some (BitVec.ofNat 11 n), r := some (BitVec.ofNat 3 r) } })

/-- R188, R189, R126, R135: step 4 on what step 3 leaves: `W.pll` is FRAC of the VCO and the crystal; on the search path `W.ms` is in integer
mode with `P1 = 128n - 512` plus the phase, on the divide-by-4 path `P1` is the phase alone. -/
def Obligations.StepFourComputesTheParameters : Prop :=
  ∀ (s : State) (f vco : Hz) (n : BitVec 11) (r : BitVec 3) (ph : BitVec 16), Quiet s → s.seq = .s4 → XtalLegal s.cfg → InRange f →
    s.w.fout = some f → s.w.vco = some vco → s.w.n = some n → s.w.r = some r → s.w.ph = some ph → Planned f vco n r →
    let div4 := decide (150000000 < f.toNat)
    ∃ p, frac vco.toNat s.cfg.xtalHz.toNat = some p ∧
      step s = .next { s with
        seq := .s5a
        w := { s.w with
          pllP1 := some (if p.p1 < 2 ^ 32 then BitVec.ofNat 32 p.p1 else Config.outOfRange32 p.p1)
          pllP2 := some (BitVec.ofNat 20 p.p2), pllP3 := some (BitVec.ofNat 21 p.p3), pllInt := some p.int
          msP1 := some (BitVec.ofNat 32
            (if div4 then 128 * min ph.toNat 1 else 128 * n.toNat - 512 + 128 * min ph.toNat 127))
          msP2 := some 0, msP3 := some 1, msInt := some true, msDiv4 := some div4, msR := some r } }

/-- R190, R62: step 5. BUSLOCK rises before the first transaction; the PLL block goes to 26 for channels 1 and 2 and to `PLLB_BASE` for channel
0, then the MultiSynth block to `42 + 8 * ch`. The latch `opnd` is the model's own (log 5), and so is what `store` does past register 255, which a
`PLLB_BASE` above 248 reaches (log 3). -/
def Obligations.StepFiveWritesBothBlocks : Prop :=
  (∀ (s : State) (c : Channel) (p1 : BitVec 32) (p2 : BitVec 20) (p3 : BitVec 21) (k : Nat), Quiet s → s.seq = .s5a → s.w.ch = some c →
    s.w.pllP1 = some p1 → s.w.pllP2 = some p2 → s.w.pllP3 = some p3 → FirstWriteOk s 8 k →
    let base := if c = .ch0 then s.cfg.pllbBase else 26
    let b := encodePll p1 p2 p3
    step s = .next { s with
      seq := .s5b, busLock := true, att := 0, xport := s.xport.drop (k + 1), draws := drawsAfter (k + 1) s
      opnd := ⟨base, s.opnd.val⟩, w := { s.w with blk := some b }
      trace := s.trace ++ writeTxns s base b.toList (k + 1), chip := s.chip.store base.toNat b.toList }) ∧
  (∀ (s : State) (c : Channel) (b : Block) (k : Nat), Quiet s → s.seq = .s5b → s.w.ch = some c → FirstWriteOk s 8 k →
    exec .encm s = .next { s with ret := .done, w := { s.w with blk := some b } } →
    let base := BitVec.ofNat 8 (42 + 8 * chNum c)
    step s = .next { s with
      seq := .s6, att := 0, xport := s.xport.drop (k + 1), draws := drawsAfter (k + 1) s
      opnd := ⟨base, s.opnd.val⟩, w := { s.w with blk := some b }
      trace := s.trace ++ writeTxns s base b.toList (k + 1), chip := s.chip.store base.toNat b.toList })

/-- R191, R37: step 6 writes the control byte to register `16 + ch`; with `VERIFY_ENABLE` it is read back and a mismatch goes to VM. The
latch `opnd` is the model's own (log 5); the bit positions are the spec's general knowledge (log 17). -/
def Obligations.StepSixWritesTheControlRegister : Prop :=
  (∀ (s : State) (c : Channel) (int div4 inv : Bool) (k : Nat), Quiet s → s.seq = .s6 → s.w.ch = some c →
    s.w.msInt = some int → s.w.msDiv4 = some div4 → s.w.inv = some inv → FirstWriteOk s 1 k →
    let ctl := BitVec.ofNat 8 ((if int = true ∧ div4 = false then 64 else 0) + (if c = .ch0 then 32 else 0) + (if inv then 16 else 0) + 12 +
      s.cfg.idrv.toNat)
    let reg := BitVec.ofNat 8 (16 + chNum c)
    step s = .next { s with
      seq := if s.cfg.verifyEnable then .s6v else .s7
      att := 0, xport := s.xport.drop (k + 1), draws := drawsAfter (k + 1) s
      opnd := ⟨reg, ctl⟩, w := { s.w with ctl := some ctl }
      trace := s.trace ++ writeTxns s reg [ctl] (k + 1), chip := s.chip.write reg.toNat ctl }) ∧
  (∀ (s : State) (c : Channel) (ctl b : Byte) (k : Nat), Quiet s → s.seq = .s6v → s.w.ch = some c → s.w.ctl = some ctl →
    let reg := BitVec.ofNat 8 (16 + chNum c)
    FirstReadOk s reg k b →
    step s = .next { s with
      seq := .s7, att := 0, xport := s.xport.drop (k + 1), draws := drawsAfterReads reg k s
      opnd := ⟨reg, ctl⟩, vm := if b = ctl then s.vm else true
      trace := s.trace ++ readTxns s reg (k + 1) })

/-- R192, R36: step 7 writes register 3 whole: 255 less the bits of the channels in use; with `VERIFY_ENABLE` it is read back. The
latch `opnd` is the model's own (log 5); the bit positions are the spec's general knowledge (log 17). -/
def Obligations.StepSevenWritesTheOutputEnables : Prop :=
  (∀ (s : State) (c : Channel) (k : Nat), Quiet s → s.seq = .s7 → s.w.ch = some c → FirstWriteOk s 1 k →
    let used (d : Channel) : Prop := (s.chan.get d).requestedHz ≠ 0 ∨ d = c
    ∀ u0 u1 u2 : Nat, (used .ch0 → u0 = 1) → (¬ used .ch0 → u0 = 0) → (used .ch1 → u1 = 2) → (¬ used .ch1 → u1 = 0) →
      (used .ch2 → u2 = 4) → (¬ used .ch2 → u2 = 0) →
    let oe := BitVec.ofNat 8 (255 - (u0 + u1 + u2))
    step s = .next { s with
      seq := if s.cfg.verifyEnable then .s7v else .s8
      att := 0, xport := s.xport.drop (k + 1), draws := drawsAfter (k + 1) s
      opnd := ⟨3, oe⟩, w := { s.w with oe := some oe }
      trace := s.trace ++ writeTxns s 3 [oe] (k + 1), chip := s.chip.write 3 oe }) ∧
  (∀ (s : State) (oe b : Byte) (k : Nat), Quiet s → s.seq = .s7v → s.w.oe = some oe → FirstReadOk s 3 k b →
    step s = .next { s with
      seq := .s8, att := 0, xport := s.xport.drop (k + 1), draws := drawsAfterReads 3 k s
      opnd := ⟨3, oe⟩, vm := if b = oe then s.vm else true
      trace := s.trace ++ readTxns s 3 (k + 1) })

/-- R193: step 8 writes `RST_A` or `RST_B` to register 177, once; no read-back follows. The latch `opnd` is the model's own (log 5), and
so is that the chip's register 177 keeps the byte written (log 21). -/
def Obligations.StepEightResetsThePll : Prop :=
  ∀ (s : State) (c : Channel) (k : Nat), Quiet s → s.seq = .s8 → s.w.ch = some c → FirstWriteOk s 1 k →
    let b := if c = .ch0 then s.cfg.rstB else s.cfg.rstA
    step s = .next { s with
      seq := .s9, att := 0, xport := s.xport.drop (k + 1), draws := drawsAfter (k + 1) s
      opnd := ⟨177, b⟩, w := { s.w with rst := some b }
      trace := s.trace ++ writeTxns s 177 [b] (k + 1), chip := s.chip.write 177 b }

/-- R195: step 9 commits the channel's record and answers Ok; on what step 3 leaves `realizedHz` is the request. With the command
ended no working register holds a value (R24, R34; log 4). -/
def Obligations.StepNineCommits : Prop :=
  ∀ (s : State) (c : Channel) (f vco : Hz) (n : BitVec 11) (r : BitVec 3), Quiet s → s.seq = .s9 →
    s.w.ch = some c → s.w.fout = some f → s.w.vco = some vco → s.w.n = some n → s.w.r = some r → n.toNat ≠ 0 →
    let real := vco.toNat / n.toNat / 2 ^ r.toNat
    step s = .next { s with
      seq := .idle, busy := false, busLock := false, w := Work.unwritten
      chan := s.chan.set c ⟨f, BitVec.ofNat 32 real, .active⟩
      rsp := s.rsp ++ [respWord 0 (chNum c) s.vm real] } ∧
    (Planned f vco n r → real = f.toNat)

/-- R196, R232: a transport failure in any of S5A to S8 aborts: three more transactions, all of them failed ones of the step in progress, no
chip register changed by them, the phase Failed(TransportError), both frequencies of every channel as before, one response, and no working register with
a value (R24, R34; log 4). -/
def Obligations.TransportFailureAborts : Prop :=
  ∀ (s : State) (c : Channel), Inv s → Quiet s → s.w.ch = some c →
    ((s.seq = .s5a ∨ s.seq = .s5b) ∧ WritesFail s 8 ∨ (s.seq = .s6 ∨ s.seq = .s7 ∨ s.seq = .s8) ∧ WritesFail s 1 ∨
      (s.seq = .s6v ∨ s.seq = .s7v) ∧ ∀ j, j < 3 → ∃ x, oracle s j = .reply x none) →
    ∃ t x y z, step s = .next t ∧ t.seq = .idle ∧ t.w = Work.unwritten ∧ t.busy = false ∧ t.busLock = false ∧ t.vm = s.vm ∧ t.att = 0 ∧ t.cfg = s.cfg ∧
      t.cmd = s.cmd ∧ t.chip = s.chip ∧ t.trace = s.trace ++ [x, y, z] ∧ x.ok = false ∧ y.ok = false ∧ z.ok = false ∧
      x.frame = y.frame ∧ y.frame = z.frame ∧ t.rsp = s.rsp ++ [respWord 4 (chNum c) s.vm 0] ∧
      t.chan = s.chan.set c { s.chan.get c with phase := .failed .transportError }

/-- R197: the successor of each value of SEQ: from IDLE, S1 when the word presented is a SETF and else IDLE; on an error IDLE, which S4 cannot
meet. -/
def Obligations.SuccessorsOfTheStepRegister : Prop :=
  ∀ s t : State, Quiet s → step s = .next t →
    (s.seq = .idle →
      (t.seq = .s1 ∧ ∃ w rest ch inv ph hz, s.cmd = w :: rest ∧ decode (.cmd w) = .ok (.setf ch inv ph hz)) ∨
      (t.seq = .idle ∧ ∀ w rest ch inv ph hz, s.cmd = w :: rest → decode (.cmd w) ≠ .ok (.setf ch inv ph hz))) ∧
    (s.seq = .s1 → t.seq = .s2 ∨ t.seq = .idle) ∧ (s.seq = .s2 → t.seq = .s3 ∨ t.seq = .idle) ∧
    (s.seq = .s3 → t.seq = .s4 ∨ t.seq = .idle) ∧ (s.seq = .s4 → t.seq = .s5a) ∧
    (s.seq = .s5a → t.seq = .s5b ∨ t.seq = .idle) ∧ (s.seq = .s5b → t.seq = .s6 ∨ t.seq = .idle) ∧
    (s.seq = .s6 → t.seq = (if s.cfg.verifyEnable then .s6v else .s7) ∨ t.seq = .idle) ∧
    (s.seq = .s6v → t.seq = .s7 ∨ t.seq = .idle) ∧
    (s.seq = .s7 → t.seq = (if s.cfg.verifyEnable then .s7v else .s8) ∨ t.seq = .idle) ∧
    (s.seq = .s7v → t.seq = .s8 ∨ t.seq = .idle) ∧ (s.seq = .s8 → t.seq = .s9 ∨ t.seq = .idle) ∧ (s.seq = .s9 → t.seq = .idle)

/-! ### The whole machine -/

/-- The good states hold the reset state. -/
def Obligations.ResetStateIsGood : Prop := Inv State.reset

/-- R28, R29, R31, R41, R43, R195, R198, R228, R24, R34: every step from a good state leads to a good state: the locks follow SEQ, `realizedHz =
requestedHz`, channels 1 and 2 agree, only the channel of the command in progress is Configuring, the memory is canonical, the working
registers the next step reads are written, and outside a command none holds a value (log 4). -/
def Obligations.EveryStepKeepsTheGoodStates : Prop :=
  ∀ s t : State, Inv s → step s = .next t → Inv t

/-- R24, R124, R12: from a good state with no direct call pending the machine never stops: no unwritten working register is read, FRAC is
always inside its precondition, nothing is divided by zero, and no word at the port is left without an answer. -/
def Obligations.WithoutADirectCallTheMachineNeverStops : Prop :=
  ∀ s : State, Inv s → s.uop = none → ∃ t, step s = .next t

/-- R197, R286: every SETF ends: from any step of it, whatever the Transport answers, at most 12 steps later the block is in IDLE with one
response more and at most 21 transactions more, and no working register holds a value (R24, R34; log 4). -/
def Obligations.EverySetfEnds : Prop :=
  ∀ s : State, Inv s → Quiet s → s.seq ≠ .idle →
    ∃ k t r, k ≤ 12 ∧ run k s = .next t ∧ t.seq = .idle ∧ t.w = Work.unwritten ∧ t.busy = false ∧ t.busLock = false ∧ t.rsp = s.rsp ++ [r] ∧
      ∃ tr, t.trace = s.trace ++ tr ∧ tr.length ≤ 21

/-- R181, R186, R192, R195, R132: a legal SETF, every transaction of which is answered `ok` at once, with `VERIFY_ENABLE` false: eleven steps after
it was presented it has issued exactly its five writes, in order and byte for byte, committed its channel and answered Ok with the frequency asked
for. (A PLL `P1` that does not fit its register, a crystal of 26 Hz or less, is a free value, log 7; the bit positions are log 17; that no
working register holds a value afterwards is R24, R34, log 4.) -/
def Obligations.SetfIssuesItsFiveWrites : Prop :=
  ∀ (s : State) (c : Channel) (inv : Bool) (ph : BitVec 16) (f : Hz) (rest : List (BitVec 64)), Inv s → Ready s →
    s.cmd = packCmd 1 (BitVec.ofNat 2 (chNum c)) inv ph f :: rest → InRange f → siblingAllows s.chan c f = true →
    s.cfg.verifyEnable = false → (∀ j, j < 2 → WriteOk s 8 j) → (∀ j, 2 ≤ j → j < 5 → WriteOk s 1 j) →
    ∃ (t : State) (vco : Hz) (n : BitVec 11) (r : BitVec 3) (p : FracParams),
      run 11 s = .next t ∧ Planned f vco n r ∧
      (f.toNat ≤ 150000000 → searchVco f.toNat = some (vco.toNat, n.toNat, r.toNat)) ∧
      frac vco.toNat s.cfg.xtalHz.toNat = some p ∧
      (let pll := encodePll (if p.p1 < 2 ^ 32 then BitVec.ofNat 32 p.p1 else Config.outOfRange32 p.p1) (BitVec.ofNat 20 p.p2)
         (BitVec.ofNat 21 p.p3)
       let ms := if 150000000 < f.toNat then s.cfg.divBy4Block
         else encodeMs (BitVec.ofNat 32 (128 * n.toNat - 512 + 128 * min ph.toNat 127)) 0 1 r
       let ctl := BitVec.ofNat 8 ((if 150000000 < f.toNat then 0 else 64) + (if c = .ch0 then 32 else 0) + (if inv then 16 else 0) + 12 +
         s.cfg.idrv.toNat)
       let bit (d : Channel) (v : Nat) : Nat := if (s.chan.get d).requestedHz ≠ 0 ∨ d = c then v else 0
       let oe := BitVec.ofNat 8 (255 - (bit .ch0 1 + bit .ch1 2 + bit .ch2 4))
       t.trace.map Txn.frame = s.trace.map Txn.frame ++
         [(if c = .ch0 then s.cfg.pllbBase else 26) :: pll.toList, BitVec.ofNat 8 (42 + 8 * chNum c) :: ms.toList,
           [BitVec.ofNat 8 (16 + chNum c), ctl], [3, oe], [177, if c = .ch0 then s.cfg.rstB else s.cfg.rstA]]) ∧
      t.chan = s.chan.set c ⟨f, f, .active⟩ ∧ t.rsp = s.rsp ++ [respWord 0 (chNum c) false f.toNat] ∧
      t.seq = .idle ∧ t.w = Work.unwritten ∧ t.busy = false ∧ t.busLock = false ∧ t.vm = false ∧ t.cmd = rest ∧ t.cfg = s.cfg

/-- R201: the same SETF twice, every transaction of both calls answered `ok`, whatever the answer, with or without read-backs: identical register
writes and identical realized frequencies. Without read-backs the whole traces and responses are identical. -/
def Obligations.RepeatedSetfIsIdempotent : Prop :=
  ∀ (s : State) (c : Channel) (inv : Bool) (ph : BitVec 16) (f : Hz) (rest : List (BitVec 64)), Inv s → Ready s →
    s.cmd = packCmd 1 (BitVec.ofNat 2 (chNum c)) inv ph f :: packCmd 1 (BitVec.ofNat 2 (chNum c)) inv ph f :: rest →
    InRange f → siblingAllows s.chan c f = true →
    let txns := if s.cfg.verifyEnable then 7 else 5
    (∀ j, j < txns → SetfAnswerOk s c 0 j ∧ SetfAnswerOk s c txns j) →
    ∃ (t u : State) (x y : List Txn) (v w : Bool),
      run (txns + 6) s = .next t ∧ run (txns + 6) t = .next u ∧
      t.trace = s.trace ++ x ∧ u.trace = t.trace ++ y ∧ x.length = txns ∧ y.length = txns ∧
      x.map Txn.frame = y.map Txn.frame ∧
      x.filter Txn.isWrite = y.filter Txn.isWrite ∧
      t.rsp = s.rsp ++ [respWord 0 (chNum c) v f.toNat] ∧ u.rsp = t.rsp ++ [respWord 0 (chNum c) w f.toNat] ∧
      (t.chan.get c).realizedHz = f ∧ (u.chan.get c).realizedHz = f ∧ u.cmd = rest ∧
      (s.cfg.verifyEnable = false → y = x ∧ v = false ∧ w = false)

/-- R31, R195, R231, R35: the parameters never change, and the committed frequencies of a channel change only in step 9 of a SETF on that
channel, or by reset. -/
def Obligations.CommittedFrequenciesChangeOnlyAtCommit : Prop :=
  ∀ s t : State, step s = .next t →
    t.cfg = s.cfg ∧
    (s.rst = .low → ∀ c, (s.seq ≠ .s9 ∨ s.uop ≠ none ∨ s.w.ch ≠ some c) →
      (t.chan.get c).requestedHz = (s.chan.get c).requestedHz ∧ (t.chan.get c).realizedHz = (s.chan.get c).realizedHz)

/-- R58, R63, R51, R160: with no direct call pending a step issues at most three transactions, all of them the same, to the chip's address, each
a write or read of the address map: one byte at 3, 16 to 18 or 177, eight at a block base, one-byte reads at 3 and 16 to 18. -/
def Obligations.TransactionsStayInTheMap : Prop :=
  ∀ s t : State, Quiet s → step s = .next t →
    ∃ tr, t.trace = s.trace ++ tr ∧ tr.length ≤ 3 ∧ (∀ x ∈ tr, ∀ y ∈ tr, x.frame = y.frame) ∧
      ∀ x ∈ tr, x.chip = s.cfg.chipAddr ∧
        ((∃ b, x.kind = .write [b] ∧ (x.reg = 3 ∨ x.reg = 16 ∨ x.reg = 17 ∨ x.reg = 18 ∨ x.reg = 177)) ∨
         (∃ b : Block, x.kind = .write b.toList ∧
           (x.reg = 26 ∨ x.reg = s.cfg.pllbBase ∨ x.reg = 42 ∨ x.reg = 50 ∨ x.reg = 58)) ∨
         (x.kind = .read 1 ∧ (x.reg = 3 ∨ x.reg = 16 ∨ x.reg = 17 ∨ x.reg = 18)))

/-- R274: once channels 1 and 2 are both configured, at the same frequency, no run without a reset moves either to another. -/
def Obligations.ChannelsOneAndTwoAreLockedIn : Prop :=
  ∀ (s : State) (f : Hz), Inv s → s.rst = .low → f ≠ 0 → s.chan.c1.requestedHz = f → s.chan.c2.requestedHz = f →
    ∀ (k : Nat) (t : State), run k s = .next t → t.chan.c1.requestedHz = f ∧ t.chan.c2.requestedHz = f
end

