-- ==== Sys2Proof/Laws/Decode.lean ====
section
/-! SUPPORT. Command and response words as numbers: what the table's masks test, what the decoder answers, field by field. -/

namespace Sys2Proof

/-- Concatenation is addition. -/
theorem toNat_append_add {n m : Nat} (x : BitVec n) (y : BitVec m) : (x ++ y).toNat = x.toNat * 2 ^ m + y.toNat := by
  rw [BitVec.toNat_append, ← Nat.shiftLeft_add_eq_or_of_lt y.isLt, Nat.shiftLeft_eq]

theorem append_and_append {n m : Nat} (x x' : BitVec n) (y y' : BitVec m) :
    (x ++ y) &&& (x' ++ y') = (x &&& x') ++ (y &&& y') := BitVec.and_append

/-- A command word from its six fields (spec/30_encoding.md R82). -/
def cmdWord (op : BitVec 4) (ch : BitVec 2) (inv : BitVec 1) (rsv : BitVec 9) (ph : BitVec 16) (hz : BitVec 32) : BitVec 64 :=
  op ++ ch ++ inv ++ rsv ++ ph ++ hz

theorem cmdWord_toNat (op : BitVec 4) (ch : BitVec 2) (inv : BitVec 1) (rsv : BitVec 9) (ph : BitVec 16) (hz : BitVec 32) :
    (cmdWord op ch inv rsv ph hz).toNat =
      op.toNat * 2 ^ 60 + ch.toNat * 2 ^ 58 + inv.toNat * 2 ^ 57 + rsv.toNat * 2 ^ 48 + ph.toNat * 2 ^ 32 + hz.toNat := by
  simp only [cmdWord, toNat_append_add]; omega

/-- Words are equal exactly when their fields are. -/
theorem cmdWord_inj (a1 a2 a3 a4 a5 a6 b1 b2 b3 b4 b5 b6) : cmdWord a1 a2 a3 a4 a5 a6 = cmdWord b1 b2 b3 b4 b5 b6 ↔
    a1 = b1 ∧ a2 = b2 ∧ a3 = b3 ∧ a4 = b4 ∧ a5 = b5 ∧ a6 = b6 := by
  simp only [← BitVec.toNat_inj, cmdWord_toNat]; omega

theorem cmdWord_and (a1 a2 a3 a4 a5 a6 b1 b2 b3 b4 b5 b6) : cmdWord a1 a2 a3 a4 a5 a6 &&& cmdWord b1 b2 b3 b4 b5 b6 =
    cmdWord (a1 &&& b1) (a2 &&& b2) (a3 &&& b3) (a4 &&& b4) (a5 &&& b5) (a6 &&& b6) := by
  refine (append_and_append (a1 ++ a2 ++ a3 ++ a4 ++ a5) (b1 ++ b2 ++ b3 ++ b4 ++ b5) a6 b6).trans ?_
  rw [append_and_append, append_and_append, append_and_append, append_and_append]; rfl

/-- Every word is made of its fields. -/
theorem cmdWord_fields (w : BitVec 64) :
    cmdWord (fieldOp w) (fieldCh w) (w.extractLsb' 57 1) (fieldRsv w) (fieldPh w) (fieldHz w) = w := by
  apply BitVec.eq_of_toNat_eq
  simp only [cmdWord_toNat, fieldOp, fieldCh, fieldRsv, fieldPh, fieldHz, BitVec.extractLsb'_toNat, Nat.shiftRight_eq_div_pow]
  omega

theorem fields_cmdWord (op ch inv rsv ph hz) :
    fieldOp (cmdWord op ch inv rsv ph hz) = op ∧ fieldCh (cmdWord op ch inv rsv ph hz) = ch ∧
    (cmdWord op ch inv rsv ph hz).extractLsb' 57 1 = inv ∧ fieldRsv (cmdWord op ch inv rsv ph hz) = rsv ∧
    fieldPh (cmdWord op ch inv rsv ph hz) = ph ∧ fieldHz (cmdWord op ch inv rsv ph hz) = hz := by
  have := cmdWord_fields (cmdWord op ch inv rsv ph hz)
  rwa [cmdWord_inj] at this

/-- What SETF's mask tests (R84). -/
theorem fits_setf (op ch inv rsv ph hz) : rowSetf.fits (cmdWord op ch inv rsv ph hz) = true ↔ op = 1 ∧ rsv = 0 := by
  have hm : rowSetf.mask = cmdWord (BitVec.allOnes 4) 0 0 (BitVec.allOnes 9) 0 0 := by decide
  have hp : rowSetf.pattern = cmdWord 1 0 0 0 0 0 := by decide
  rw [Row.fits, beq_iff_eq, hm, hp, cmdWord_and, cmdWord_inj, BitVec.and_allOnes, BitVec.and_allOnes]
  simp

/-- What GETR's mask tests (R84). -/
theorem fits_getr (op ch inv rsv ph hz) :
    rowGetr.fits (cmdWord op ch inv rsv ph hz) = true ↔ op = 2 ∧ inv = 0 ∧ rsv = 0 ∧ ph = 0 ∧ hz = 0 := by
  have hm : rowGetr.mask = cmdWord (BitVec.allOnes 4) 0 (BitVec.allOnes 1) (BitVec.allOnes 9) (BitVec.allOnes 16) (BitVec.allOnes 32) := by
    decide
  have hp : rowGetr.pattern = cmdWord 2 0 0 0 0 0 := by decide
  rw [Row.fits, beq_iff_eq, hm, hp, cmdWord_and, cmdWord_inj]
  simp only [BitVec.and_allOnes]; simp

/-- What GETQ's mask tests (R84). -/
theorem fits_getq (op ch inv rsv ph hz) :
    rowGetq.fits (cmdWord op ch inv rsv ph hz) = true ↔ op = 3 ∧ inv = 0 ∧ rsv = 0 ∧ ph = 0 ∧ hz = 0 := by
  have hm : rowGetq.mask = cmdWord (BitVec.allOnes 4) 0 (BitVec.allOnes 1) (BitVec.allOnes 9) (BitVec.allOnes 16) (BitVec.allOnes 32) := by
    decide
  have hp : rowGetq.pattern = cmdWord 3 0 0 0 0 0 := by decide
  rw [Row.fits, beq_iff_eq, hm, hp, cmdWord_and, cmdWord_inj]
  simp only [BitVec.and_allOnes]; simp

/-- `packCmd` is a word with its reserved field zero. -/
theorem packCmd_eq (op : BitVec 4) (ch : BitVec 2) (inv : Bool) (ph : BitVec 16) (hz : Hz) :
    packCmd op ch inv ph hz = cmdWord op ch (BitVec.ofBool inv) 0 ph hz := rfl

theorem fieldInv_cmdWord (op ch inv rsv ph hz) : fieldInv (cmdWord op ch inv rsv ph hz) = (inv == 1#1) := by
  rw [fieldInv, (fields_cmdWord op ch inv rsv ph hz).2.2.1]

/-- What the decoder answers, by the fields of the word (R85). -/
theorem decodeCmd_cmdWord (op ch inv rsv ph hz) : decodeCmd (cmdWord op ch inv rsv ph hz) =
    if op = 1 ∧ rsv = 0 then (if channelLegal ch then .ok (.setf ch (inv == 1#1) ph hz) else .error .illegalChannel)
    else if op = 2 ∧ inv = 0 ∧ rsv = 0 ∧ ph = 0 ∧ hz = 0 then (if channelLegal ch then .ok (.getr ch) else .error .illegalChannel)
    else if op = 3 ∧ inv = 0 ∧ rsv = 0 ∧ ph = 0 ∧ hz = 0 then (if channelLegal ch then .ok (.getq ch) else .error .illegalChannel)
    else if op == 1 || op == 2 || op == 3 then .error .mustBeZero
    else .error .unusedOpcode := by
  obtain ⟨h1, h2, -, -, h5, h6⟩ := fields_cmdWord op ch inv rsv ph hz
  rw [decodeCmd, checkChannel, checkChannel, checkChannel, fieldInv_cmdWord, h1, h2, h5, h6]
  simp only [fits_setf, fits_getr, fits_getq]

/-- A channel field is legal exactly when it is not 3 (R82). -/
theorem channelLegal_iff (ch : BitVec 2) : channelLegal ch = true ↔ ch ≠ 3 := by
  simp [channelLegal]

/-- Everything the decoder can answer to a word: a refusal, or a command on the channel the word names. -/
theorem decodeCmd_cases (w : BitVec 64) :
    (∃ r, decodeCmd w = .error r) ∨
    (fieldCh w ≠ 3 ∧ ((∃ inv ph hz, decodeCmd w = .ok (.setf (fieldCh w) inv ph hz)) ∨ decodeCmd w = .ok (.getr (fieldCh w)) ∨
      decodeCmd w = .ok (.getq (fieldCh w)))) := by
  rw [← channelLegal_iff, decodeCmd, checkChannel, checkChannel, checkChannel]
  cases channelLegal (fieldCh w)
  · left
    split
    · exact ⟨_, rfl⟩
    · split
      · exact ⟨_, rfl⟩
      · split
        · exact ⟨_, rfl⟩
        · split <;> exact ⟨_, rfl⟩
  · split
    · exact .inr ⟨rfl, .inl ⟨_, _, _, rfl⟩⟩
    · split
      · exact .inr ⟨rfl, .inr (.inl rfl)⟩
      · split
        · exact .inr ⟨rfl, .inr (.inr rfl)⟩
        · split <;> exact .inl ⟨_, rfl⟩

namespace Machine

/-- A response word as a number (spec/30_encoding.md R86). -/
theorem rspWord_toNat (st : BitVec 4) (ch : BitVec 2) (vm : Bool) (hz : Hz) :
    (rspWord st ch vm hz).toNat = st.toNat * 2 ^ 60 + ch.toNat * 2 ^ 58 + (if vm then 1 else 0) * 2 ^ 57 + hz.toNat := by
  simp only [rspWord, toNat_append_add, BitVec.toNat_ofBool]
  cases vm <;> simp <;> omega

theorem rspWord_eq (st : BitVec 4) (ch : BitVec 2) (vm : Bool) (hz : Hz) :
    rspWord st ch vm hz =
      BitVec.ofNat 64 (st.toNat * 2 ^ 60 + ch.toNat * 2 ^ 58 + (if vm then 1 else 0) * 2 ^ 57 + hz.toNat) := by
  rw [← rspWord_toNat, BitVec.ofNat_toNat, BitVec.setWidth_eq]

end Machine

end Sys2Proof
end

