-- ==== Sys2Proof/Laws/Memory.lean ====
section
/-! SUPPORT. The chip's register space: read after write, and that every operation keeps the canonical form. -/

namespace Sys2Proof.Machine

/-- `lo` is below `a`, when there is a `lo`. -/
def Below (lo : Option Nat) (a : Nat) : Prop := ∀ l, lo = some l → l < a

theorem risingAbove_nil (lo : Option Nat) : Memory.risingAbove lo [] = true := rfl

theorem risingAbove_cons (lo : Option Nat) (k : Nat) (b : Byte) (rest : Memory) :
    Memory.risingAbove lo ((k, b) :: rest) = true ↔ Below lo k ∧ k < 256 ∧ Memory.risingAbove (some k) rest = true := by
  cases lo <;> simp [Memory.risingAbove, Below, and_assoc]

theorem below_trans {lo : Option Nat} {a b : Nat} (h : Below lo a) (hab : a ≤ b) : Below lo b :=
  fun l hl => Nat.lt_of_lt_of_le (h l hl) hab

theorem below_some {k a : Nat} : Below (some k) a ↔ k < a := by
  simp [Below]

/-- A bound may be lowered. -/
theorem risingAbove_weaken {lo : Option Nat} {k : Nat} {m : Memory} (h : Below lo k) (hm : Memory.risingAbove (some k) m = true) :
    Memory.risingAbove lo m = true := by
  cases m with
  | nil => rfl
  | cons x rest =>
    obtain ⟨j, b⟩ := x
    rw [risingAbove_cons] at hm ⊢
    exact ⟨below_trans h (Nat.le_of_lt (below_some.mp hm.1)), hm.2⟩

theorem forget_risingAbove {lo : Option Nat} {m : Memory} (a : Nat) (h : Memory.risingAbove lo m = true) :
    Memory.risingAbove lo (Memory.forget m a) = true := by
  induction m generalizing lo with
  | nil => rfl
  | cons x rest ih =>
    obtain ⟨k, b⟩ := x
    rw [risingAbove_cons] at h
    rw [Memory.forget]
    split
    · exact risingAbove_weaken h.1 h.2.2
    · split
      · rw [risingAbove_cons]; exact h
      · rw [risingAbove_cons]; exact ⟨h.1, h.2.1, ih h.2.2⟩

theorem write_risingAbove {lo : Option Nat} {m : Memory} (a : Nat) (v : Byte) (ha : a < 256) (hlo : Below lo a)
    (h : Memory.risingAbove lo m = true) : Memory.risingAbove lo (Memory.write m a v) = true := by
  induction m generalizing lo with
  | nil => rw [Memory.write, risingAbove_cons]; exact ⟨hlo, ha, rfl⟩
  | cons x rest ih =>
    obtain ⟨k, b⟩ := x
    rw [risingAbove_cons] at h
    rw [Memory.write]
    split
    · next hk => subst hk; rw [risingAbove_cons]; exact h
    · next hk =>
      split
      · next hlt =>
        rw [risingAbove_cons, risingAbove_cons]; exact ⟨hlo, ha, below_some.mpr hlt, h.2⟩
      · next hlt =>
        rw [risingAbove_cons]
        exact ⟨h.1, h.2.1, ih (below_some.mpr (by omega)) h.2.2⟩

/-- A write to an 8-bit address keeps the canonical form. -/
theorem write_wf {m : Memory} {a : Nat} (v : Byte) (ha : a < 256) (h : m.wf = true) : (Memory.write m a v).wf = true :=
  write_risingAbove a v ha (fun _ hl => by cases hl) h

/-- Forgetting a register keeps the canonical form. -/
theorem forget_wf {m : Memory} (a : Nat) (h : m.wf = true) : (Memory.forget m a).wf = true := forget_risingAbove a h

/-- A burst keeps the canonical form. -/
theorem store_wf {m : Memory} (a : Nat) (data : List Byte) (h : m.wf = true) : (Memory.store m a data).wf = true := by
  induction data generalizing m a with
  | nil => exact h
  | cons b rest ih =>
    rw [Memory.store]
    split
    · next ha => exact ih _ (write_wf b ha h)
    · exact ih _ (forget_wf _ h)

theorem forgetAll_wf {m : Memory} (addrs : List Nat) (h : m.wf = true) : (Memory.forgetAll m addrs).wf = true := by
  induction addrs generalizing m with
  | nil => exact h
  | cons a rest ih => exact ih (forget_wf a h)

/-- A write changes the register written and no other. -/
theorem read_write (m : Memory) (a x : Nat) (v : Byte) :
    (Memory.write m a v).read x = if x = a then some v else m.read x := by
  induction m with
  | nil => simp only [Memory.write, Memory.read, eq_comm]
  | cons y rest ih =>
    obtain ⟨k, b⟩ := y
    rw [Memory.write]
    split
    · next hk =>
      subst hk
      by_cases hx : x = k
      · simp [Memory.read, hx]
      · simp [Memory.read, hx, Ne.symm hx]
    · next hk =>
      split
      · simp only [Memory.read, eq_comm (a := a)]
      · rw [Memory.read, ih, Memory.read]; split <;> split <;> first | rfl | omega

/-- Below the bound nothing is listed. -/
theorem read_of_risingAbove {k x : Nat} {m : Memory} (h : Memory.risingAbove (some k) m = true) (hx : x ≤ k) : m.read x = none := by
  induction m generalizing k with
  | nil => rfl
  | cons y rest ih =>
    obtain ⟨j, b⟩ := y
    rw [risingAbove_cons, below_some] at h
    rw [Memory.read, if_neg (by omega)]
    exact ih h.2.2 (by omega)

theorem read_forget_risingAbove {lo : Option Nat} {m : Memory} (a x : Nat) (h : Memory.risingAbove lo m = true) :
    (Memory.forget m a).read x = if x = a then none else m.read x := by
  induction m generalizing lo with
  | nil => simp [Memory.forget, Memory.read, Memory.unlisted]
  | cons y rest ih =>
    obtain ⟨k, b⟩ := y
    rw [risingAbove_cons] at h
    rw [Memory.forget]
    split
    · next hk =>
      subst hk
      by_cases hx : x = k
      · rw [if_pos hx, read_of_risingAbove h.2.2 (by omega)]
      · rw [if_neg hx, Memory.read, if_neg (fun e => hx e.symm)]
    · next hk =>
      split
      · next hlt =>
        by_cases hx : x = a
        · rw [if_pos hx, Memory.read, if_neg (by omega), read_of_risingAbove h.2.2 (by omega)]
        · rw [if_neg hx]
      · rw [Memory.read, ih h.2.2, Memory.read]; split <;> split <;> first | rfl | omega

/-- In a canonical memory, forgetting a register makes it unknown and leaves every other. -/
theorem read_forget {m : Memory} (a x : Nat) (h : m.wf = true) : (Memory.forget m a).read x = if x = a then none else m.read x :=
  read_forget_risingAbove a x h

/-- Forgetting a list of registers makes them unknown and leaves every other. -/
theorem read_forgetAll {m : Memory} (addrs : List Nat) (x : Nat) (h : m.wf = true) :
    (Memory.forgetAll m addrs).read x = if x ∈ addrs then none else m.read x := by
  induction addrs generalizing m with
  | nil => simp [Memory.forgetAll]
  | cons a rest ih =>
    rw [Memory.forgetAll, ih (forget_wf a h), read_forget a x h]
    by_cases h1 : x = a <;> by_cases h2 : x ∈ rest <;> simp [h1, h2]

/-- What every register reads as after a burst no longer than the address space: its byte, unknown where the burst wrapped, else as before. -/
theorem read_store {m : Memory} (a x : Nat) (data : List Byte) (hlen : data.length ≤ 256) (h : m.wf = true) :
    (Memory.store m a data).read x =
      if a ≤ x ∧ x < a + data.length ∧ x < 256 then data[x - a]?
      else if a ≤ x + 256 ∧ x + 256 < a + data.length then none
      else m.read x := by
  induction data generalizing m a with
  | nil =>
    rw [if_neg (by simp; omega), if_neg (by simp)]
    rfl
  | cons b rest ih =>
    simp only [List.length_cons] at hlen ⊢
    rw [Memory.store]
    split
    · next ha =>
      rw [ih (a + 1) (by omega) (write_wf b ha h), read_write]
      by_cases hx : x = a
      · subst hx
        rw [if_neg (by omega), if_neg (by omega), if_pos rfl, if_pos (by omega), Nat.sub_self]; rfl
      · rw [if_neg hx]
        by_cases h1 : a + 1 ≤ x ∧ x < a + 1 + rest.length ∧ x < 256
        · rw [if_pos h1, if_pos (by omega), show x - a = x - (a + 1) + 1 by omega]; rfl
        · rw [if_neg h1, if_neg (c := a ≤ x ∧ x < a + (rest.length + 1) ∧ x < 256) (by omega)]
          by_cases h2 : a + 1 ≤ x + 256 ∧ x + 256 < a + 1 + rest.length
          · rw [if_pos h2, if_pos (by omega)]
          · rw [if_neg h2, if_neg (by omega)]
    · next ha =>
      rw [ih (a + 1) (by omega) (forget_wf _ h), read_forget _ _ h]
      rw [if_neg (by omega), if_neg (c := a ≤ x ∧ x < a + (rest.length + 1) ∧ x < 256) (by omega)]
      by_cases hx : x = a - 256
      · rw [if_pos hx, if_pos (c := a ≤ x + 256 ∧ x + 256 < a + (rest.length + 1)) (by omega)]
        split <;> rfl
      · rw [if_neg hx]
        by_cases h2 : a + 1 ≤ x + 256 ∧ x + 256 < a + 1 + rest.length
        · rw [if_pos h2, if_pos (by omega)]
        · rw [if_neg h2, if_neg (by omega)]

/-- A burst of one byte. -/
theorem store_single {m : Memory} {a : Nat} (b : Byte) (ha : a < 256) : Memory.store m a [b] = Memory.write m a b := by
  simp [Memory.store, ha]

end Sys2Proof.Machine
end

