-- ==== Sys2Proof/Laws/PerInstr.lean ====
section
/-! SUPPORT. Statements about every instruction as syntax, one lemma per constructor. -/

namespace Sys2Proof.Laws.EncodeFitsItsRow

/-- The row of spec/opcode_table.json of each instruction: `match` and `mask` (spec/30_encoding.md R84, R90). -/
def rowOf : Instr → Row
  | .setf _ _ _ _ => ⟨0xF1FF000000000000, 0x1000000000000000⟩
  | .getr _ => ⟨0xF3FFFFFFFFFFFFFF, 0x2000000000000000⟩
  | .getq _ => ⟨0xF3FFFFFFFFFFFFFF, 0x3000000000000000⟩
  | .cpll => ⟨0xF, 0x0⟩
  | .cms => ⟨0xF, 0x1⟩
  | .chr => ⟨0xF, 0x2⟩
  | .svco => ⟨0xF, 0x3⟩
  | .apho => ⟨0xF, 0x4⟩
  | .encp => ⟨0xF, 0x5⟩
  | .encm => ⟨0xF, 0x6⟩
  | .decb => ⟨0xF, 0x7⟩
  | .wrb => ⟨0xF, 0x8⟩
  | .wr1 => ⟨0xF, 0x9⟩
  | .vfy => ⟨0xF, 0xA⟩

/-- The bits of an encoded operation. -/
def bits : Code → BitVec 64
  | .cmd w => w
  | .uop c => c.setWidth 64

/-- The encoding of an instruction fits the instruction's row of the opcode table. -/
def Statement (i : Instr) : Prop := (rowOf i).fits (bits (encode i)) = true

theorem setf (ch : BitVec 2) (inv : Bool) (ph : BitVec 16) (hz : Hz) : Statement (.setf ch inv ph hz) := by
  show rowSetf.fits (packCmd 1 ch inv ph hz) = true
  rw [packCmd_eq, fits_setf]
  exact ⟨rfl, rfl⟩

theorem getr (ch : BitVec 2) : Statement (.getr ch) := by
  show rowGetr.fits (packCmd 2 ch false 0 0) = true
  rw [packCmd_eq, fits_getr]
  exact ⟨rfl, rfl, rfl, rfl, rfl⟩

theorem getq (ch : BitVec 2) : Statement (.getq ch) := by
  show rowGetq.fits (packCmd 3 ch false 0 0) = true
  rw [packCmd_eq, fits_getq]
  exact ⟨rfl, rfl, rfl, rfl, rfl⟩

theorem cpll : Statement .cpll := rfl
theorem cms : Statement .cms := rfl
theorem chr : Statement .chr := rfl
theorem svco : Statement .svco := rfl
theorem apho : Statement .apho := rfl
theorem encp : Statement .encp := rfl
theorem encm : Statement .encm := rfl
theorem decb : Statement .decb := rfl
theorem wrb : Statement .wrb := rfl
theorem wr1 : Statement .wr1 := rfl
theorem vfy : Statement .vfy := rfl

end Sys2Proof.Laws.EncodeFitsItsRow
end

