-- ==== Sys2Proof/Laws/Planner.lean ====
section
/-! SUPPORT. What FRAC and the search return, each said once. -/

namespace Sys2Proof.Machine

theorem leastN_ge (g : Nat) : 6 ≤ leastN g := Nat.le_max_left _ _

/-- `leastN` reaches the lower end of the VCO range. -/
theorem vcoMin_le_mul_leastN {g : Nat} (hg : 0 < g) : vcoMin ≤ g * leastN g := by
  have h1 : (vcoMin + g - 1) / g ≤ leastN g := Nat.le_max_right _ _
  have h2 : vcoMin + g - 1 < g * ((vcoMin + g - 1) / g + 1) := Nat.lt_mul_div_succ _ hg
  have h3 : g * ((vcoMin + g - 1) / g) ≤ g * leastN g := Nat.mul_le_mul_left g h1
  rw [Nat.mul_add, Nat.mul_one] at h2
  omega

/-- `leastN` is the least `n >= 6` that reaches it. -/
theorem leastN_le {g n : Nat} (hg : 0 < g) (hn : 6 ≤ n) (h : vcoMin ≤ g * n) : leastN g ≤ n := by
  refine Nat.max_le.mpr ⟨hn, ?_⟩
  have h1 : g * ((vcoMin + g - 1) / g) ≤ vcoMin + g - 1 := Nat.mul_div_le _ _
  by_contra hc
  have h2 : g * (n + 1) ≤ g * ((vcoMin + g - 1) / g) := Nat.mul_le_mul_left g (by omega)
  rw [Nat.mul_add, Nat.mul_one] at h2
  omega

/-- What `svcoAt` finds is the candidate with that exponent and the least `n`. -/
theorem svcoAt_some {f r v n r' : Nat} (hr : r ≤ 7) (h : svcoAt f r = some (v, n, r')) :
    r' = r ∧ v = f * 2 ^ r * n ∧ IsCandidate f n r ∧ ∀ m, IsCandidate f m r → n ≤ m := by
  simp only [svcoAt, nMax, vcoMax] at h
  split at h
  · next hc =>
    simp only [Option.some.injEq, Prod.mk.injEq] at h
    obtain ⟨rfl, rfl, rfl⟩ := h
    refine ⟨rfl, rfl, ⟨leastN_ge _, hc.1, hr, hc.2.1, hc.2.2⟩, ?_⟩
    rintro m ⟨h6, -, -, hlo, -⟩
    have hg : 0 < f * 2 ^ r := by
      rcases Nat.eq_zero_or_pos (f * 2 ^ r) with h0 | h0
      · rw [h0] at hlo; omega
      · exact h0
    exact leastN_le hg h6 hlo
  · cases h

/-- Where `svcoAt` finds nothing there is no candidate with that exponent. -/
theorem svcoAt_none {f r : Nat} (h : svcoAt f r = none) : ∀ n, ¬ IsCandidate f n r := by
  rintro n ⟨h6, hn, -, hlo, hhi⟩
  simp only [svcoAt, nMax, vcoMax] at h
  have hg : 0 < f * 2 ^ r := by
    rcases Nat.eq_zero_or_pos (f * 2 ^ r) with h0 | h0
    · rw [h0] at hlo; omega
    · exact h0
  have hle : leastN (f * 2 ^ r) ≤ n := leastN_le hg h6 hlo
  have hmul : f * 2 ^ r * leastN (f * 2 ^ r) ≤ f * 2 ^ r * n := Nat.mul_le_mul_left _ hle
  rw [if_pos ⟨by omega, vcoMin_le_mul_leastN hg, by omega⟩] at h
  cases h

/-- A first hit in an ascending list: nothing before it hits. -/
theorem findSome_first {α : Type} (p : Nat → Option α) (l : List Nat) (hl : l.Pairwise (· < ·)) {a : α}
    (h : l.findSome? p = some a) : ∃ r ∈ l, p r = some a ∧ ∀ q ∈ l, q < r → p q = none := by
  induction l with
  | nil => cases h
  | cons x rest ih =>
    rw [List.pairwise_cons] at hl
    rw [List.findSome?_cons] at h
    split at h
    · next b hx =>
      obtain rfl : b = a := by simpa using h
      refine ⟨x, by simp, hx, fun q hq hlt => ?_⟩
      rcases List.mem_cons.mp hq with rfl | hq
      · omega
      · exact absurd (hl.1 q hq) (by omega)
    · next hx =>
      obtain ⟨r, hr, hp, hmin⟩ := ih hl.2 h
      refine ⟨r, List.mem_cons_of_mem _ hr, hp, fun q hq hlt => ?_⟩
      rcases List.mem_cons.mp hq with rfl | hq
      · exact hx
      · exact hmin q hq hlt

theorem mem_rExponents {r : Nat} : r ∈ rExponents ↔ r ≤ 7 := by
  simp only [rExponents, List.mem_cons, List.not_mem_nil, or_false]; omega

theorem rExponents_ascending : rExponents.Pairwise (· < ·) := by decide

/-- What the search returns: a candidate, with the smallest `r`, and for it the smallest `n` (spec/40_planner.md R130, R132). -/
theorem searchVco_some {f v n r : Nat} (h : searchVco f = some (v, n, r)) :
    v = f * 2 ^ r * n ∧ IsCandidate f n r ∧ (∀ m, IsCandidate f m r → n ≤ m) ∧ ∀ m q, IsCandidate f m q → r ≤ q := by
  obtain ⟨r0, hr0, hat, hmin⟩ := findSome_first _ _ rExponents_ascending h
  rw [mem_rExponents] at hr0
  obtain ⟨rfl, hv, hc, hleast⟩ := svcoAt_some hr0 hat
  refine ⟨hv, hc, hleast, fun m q hq => ?_⟩
  by_contra hlt
  exact svcoAt_none (hmin q (mem_rExponents.mpr hq.2.2.1) (by omega)) m hq

/-- Where the search returns nothing there is no candidate. -/
theorem searchVco_none {f : Nat} (h : searchVco f = none) : ∀ n r, ¬ IsCandidate f n r := by
  intro n r hc
  rw [searchVco, List.findSome?_eq_none_iff] at h
  exact svcoAt_none (h r (mem_rExponents.mpr hc.2.2.1)) n hc

/-- The search succeeds on the whole range SETF hands it (spec/40_planner.md R134). -/
theorem searchVco_isSome {f : Nat} (h1 : 8000 ≤ f) (h2 : f ≤ 150000000) : ∃ v n r, searchVco f = some (v, n, r) := by
  cases hs : searchVco f with
  | some x => exact ⟨x.1, x.2.1, x.2.2, rfl⟩
  | none =>
    exfalso
    have key : ∀ r, r ≤ 7 → f * 2 ^ r ≤ 150000000 → 333334 ≤ f * 2 ^ r → False := by
      intro r hr hhi hlo
      refine searchVco_none hs (leastN (f * 2 ^ r)) r ⟨leastN_ge _, ?_, hr, vcoMin_le_mul_leastN (by omega), ?_⟩
      · exact leastN_le (by omega) (by omega) (by simp only [vcoMin]; omega)
      · by_cases hg : f * 2 ^ r ≤ 100000000
        · have hd : (vcoMin + f * 2 ^ r - 1) / (f * 2 ^ r) = leastN (f * 2 ^ r) := by
            symm; apply Nat.max_eq_right
            rw [Nat.le_div_iff_mul_le (by omega)]; simp only [nMin, vcoMin]; omega
          have := Nat.mul_div_le (vcoMin + f * 2 ^ r - 1) (f * 2 ^ r)
          rw [hd] at this; simp only [vcoMin] at this; omega
        · have h6 : leastN (f * 2 ^ r) ≤ 6 := leastN_le (by omega) (by omega) (by simp only [vcoMin]; omega)
          have := Nat.mul_le_mul_left (f * 2 ^ r) h6
          omega
    rcases Nat.lt_or_ge f 333334 with h3 | h3
    · rcases Nat.lt_or_ge f 20834 with h4 | h4
      · exact key 6 (by omega) (by omega) (by omega)
      · exact key 4 (by omega) (by omega) (by omega)
    · exact key 0 (by omega) (by omega) (by omega)

/-- Everything FRAC can return (spec/40_planner.md R122, R124). -/
theorem frac_eq (num den : Nat) : frac num den =
    if den = 0 ∨ num / den < 4 then none
    else if num % den = 0 then some ⟨128 * (num / den) - 512, 0, 1, true⟩
    else some ⟨128 * (num / den) + 128 * (num % den * 1048576 / den) / 1048576 - 512,
      128 * (num % den * 1048576 / den) - 1048576 * (128 * (num % den * 1048576 / den) / 1048576), 1048576, false⟩ := by
  unfold frac
  by_cases h : num % den = 0 <;> simp [integerMode, h]

/-- FRAC inside its precondition (spec/40_planner.md R122, R124). -/
theorem frac_isSome {num den : Nat} (hd : 0 < den) (ha : 4 * den ≤ num) : ∃ p, frac num den = some p := by
  have h4 : ¬ (den = 0 ∨ num / den < 4) := by
    have : 4 ≤ num / den := (Nat.le_div_iff_mul_le hd).mpr ha
    omega
  rw [frac, if_neg h4]
  dsimp only
  split
  · exact ⟨_, rfl⟩
  · exact ⟨_, rfl⟩

/-- FRAC of an exact multiple is in integer mode (spec/40_planner.md R122, R126). -/
theorem frac_exact {den n : Nat} (hd : 0 < den) (hn : 4 ≤ n) : frac (den * n) den = some ⟨128 * n - 512, 0, 1, true⟩ := by
  have h1 : den * n / den = n := Nat.mul_div_cancel_left n hd
  have h2 : den * n % den = 0 := Nat.mul_mod_right den n
  rw [frac, if_neg (by omega)]
  simp [integerMode, h1, h2]

/-- The exponent CHR chooses fits, and is the least that does (spec/40_planner.md R127). -/
theorem chooseR_eq_some {vco f r : Nat} (hr : r ≤ 7) (h : chrFits vco f r = true) (hmin : ∀ q, q < r → chrFits vco f q = false) :
    chooseR vco f = some r := by
  simp only [chooseR, rExponents, List.find?_cons]
  match r, hr with
  | 0, _ => simp [h]
  | 1, _ => simp [h, hmin 0]
  | 2, _ => simp [h, hmin 0, hmin 1]
  | 3, _ => simp [h, hmin 0, hmin 1, hmin 2]
  | 4, _ => simp [h, hmin 0, hmin 1, hmin 2, hmin 3]
  | 5, _ => simp [h, hmin 0, hmin 1, hmin 2, hmin 3, hmin 4]
  | 6, _ => simp [h, hmin 0, hmin 1, hmin 2, hmin 3, hmin 4, hmin 5]
  | 7, _ => simp [h, hmin 0, hmin 1, hmin 2, hmin 3, hmin 4, hmin 5, hmin 6]

/-- CHR chooses nothing exactly when no exponent fits. -/
theorem chooseR_eq_none {vco f : Nat} : chooseR vco f = none ↔ ∀ r, r ≤ 7 → chrFits vco f r = false := by
  rw [chooseR, List.find?_eq_none]
  simp only [mem_rExponents, Bool.not_eq_true]

theorem chrFits_iff (vco f r : Nat) : chrFits vco f r = true ↔ 8 * (f * 2 ^ r) ≤ vco ∧ vco ≤ 2048 * (f * 2 ^ r) := by
  simp [chrFits]

theorem narrow32_of_lt {x : Nat} (h : x < 4294967296) : narrow32 x = BitVec.ofNat 32 x := by
  rw [narrow32, if_pos h]

end Sys2Proof.Machine
end

