-- ==== Sys2Proof/Laws/State.lean ====
section
/-! SUPPORT. One lemma per field of State for each named update, and the reads and writes of channel records. -/

namespace Sys2Proof.Machine

/-! ### setPhase -/

@[simp] theorem setPhase_chan (c : Channel) (p : Phase) (s : State) : (setPhase c p s).chan = s.chan.set c { s.chan.get c with phase := p } := rfl
@[simp] theorem setPhase_w (c : Channel) (p : Phase) (s : State) : (setPhase c p s).w = s.w := rfl
@[simp] theorem setPhase_seq (c : Channel) (p : Phase) (s : State) : (setPhase c p s).seq = s.seq := rfl
@[simp] theorem setPhase_att (c : Channel) (p : Phase) (s : State) : (setPhase c p s).att = s.att := rfl
@[simp] theorem setPhase_busy (c : Channel) (p : Phase) (s : State) : (setPhase c p s).busy = s.busy := rfl
@[simp] theorem setPhase_busLock (c : Channel) (p : Phase) (s : State) : (setPhase c p s).busLock = s.busLock := rfl
@[simp] theorem setPhase_vm (c : Channel) (p : Phase) (s : State) : (setPhase c p s).vm = s.vm := rfl
@[simp] theorem setPhase_trace (c : Channel) (p : Phase) (s : State) : (setPhase c p s).trace = s.trace := rfl
@[simp] theorem setPhase_cfg (c : Channel) (p : Phase) (s : State) : (setPhase c p s).cfg = s.cfg := rfl
@[simp] theorem setPhase_chip (c : Channel) (p : Phase) (s : State) : (setPhase c p s).chip = s.chip := rfl
@[simp] theorem setPhase_cmd (c : Channel) (p : Phase) (s : State) : (setPhase c p s).cmd = s.cmd := rfl
@[simp] theorem setPhase_rsp (c : Channel) (p : Phase) (s : State) : (setPhase c p s).rsp = s.rsp := rfl
@[simp] theorem setPhase_xport (c : Channel) (p : Phase) (s : State) : (setPhase c p s).xport = s.xport := rfl
@[simp] theorem setPhase_rst (c : Channel) (p : Phase) (s : State) : (setPhase c p s).rst = s.rst := rfl
@[simp] theorem setPhase_uop (c : Channel) (p : Phase) (s : State) : (setPhase c p s).uop = s.uop := rfl
@[simp] theorem setPhase_opnd (c : Channel) (p : Phase) (s : State) : (setPhase c p s).opnd = s.opnd := rfl
@[simp] theorem setPhase_ret (c : Channel) (p : Phase) (s : State) : (setPhase c p s).ret = s.ret := rfl
@[simp] theorem setPhase_draws (c : Channel) (p : Phase) (s : State) : (setPhase c p s).draws = s.draws := rfl

/-! ### respond -/

@[simp] theorem respond_chan (st : BitVec 4) (ch : BitVec 2) (vm : Bool) (hz : Hz) (s : State) : (respond st ch vm hz s).chan = s.chan := rfl
@[simp] theorem respond_w (st : BitVec 4) (ch : BitVec 2) (vm : Bool) (hz : Hz) (s : State) : (respond st ch vm hz s).w = s.w := rfl
@[simp] theorem respond_seq (st : BitVec 4) (ch : BitVec 2) (vm : Bool) (hz : Hz) (s : State) : (respond st ch vm hz s).seq = s.seq := rfl
@[simp] theorem respond_att (st : BitVec 4) (ch : BitVec 2) (vm : Bool) (hz : Hz) (s : State) : (respond st ch vm hz s).att = s.att := rfl
@[simp] theorem respond_busy (st : BitVec 4) (ch : BitVec 2) (vm : Bool) (hz : Hz) (s : State) : (respond st ch vm hz s).busy = s.busy := rfl
@[simp] theorem respond_busLock (st : BitVec 4) (ch : BitVec 2) (vm : Bool) (hz : Hz) (s : State) : (respond st ch vm hz s).busLock = s.busLock := rfl
@[simp] theorem respond_vm (st : BitVec 4) (ch : BitVec 2) (vm : Bool) (hz : Hz) (s : State) : (respond st ch vm hz s).vm = s.vm := rfl
@[simp] theorem respond_trace (st : BitVec 4) (ch : BitVec 2) (vm : Bool) (hz : Hz) (s : State) : (respond st ch vm hz s).trace = s.trace := rfl
@[simp] theorem respond_cfg (st : BitVec 4) (ch : BitVec 2) (vm : Bool) (hz : Hz) (s : State) : (respond st ch vm hz s).cfg = s.cfg := rfl
@[simp] theorem respond_chip (st : BitVec 4) (ch : BitVec 2) (vm : Bool) (hz : Hz) (s : State) : (respond st ch vm hz s).chip = s.chip := rfl
@[simp] theorem respond_cmd (st : BitVec 4) (ch : BitVec 2) (vm : Bool) (hz : Hz) (s : State) : (respond st ch vm hz s).cmd = s.cmd := rfl
@[simp] theorem respond_rsp (st : BitVec 4) (ch : BitVec 2) (vm : Bool) (hz : Hz) (s : State) : (respond st ch vm hz s).rsp = s.rsp ++ [rspWord st ch vm hz] := rfl
@[simp] theorem respond_xport (st : BitVec 4) (ch : BitVec 2) (vm : Bool) (hz : Hz) (s : State) : (respond st ch vm hz s).xport = s.xport := rfl
@[simp] theorem respond_rst (st : BitVec 4) (ch : BitVec 2) (vm : Bool) (hz : Hz) (s : State) : (respond st ch vm hz s).rst = s.rst := rfl
@[simp] theorem respond_uop (st : BitVec 4) (ch : BitVec 2) (vm : Bool) (hz : Hz) (s : State) : (respond st ch vm hz s).uop = s.uop := rfl
@[simp] theorem respond_opnd (st : BitVec 4) (ch : BitVec 2) (vm : Bool) (hz : Hz) (s : State) : (respond st ch vm hz s).opnd = s.opnd := rfl
@[simp] theorem respond_ret (st : BitVec 4) (ch : BitVec 2) (vm : Bool) (hz : Hz) (s : State) : (respond st ch vm hz s).ret = s.ret := rfl
@[simp] theorem respond_draws (st : BitVec 4) (ch : BitVec 2) (vm : Bool) (hz : Hz) (s : State) : (respond st ch vm hz s).draws = s.draws := rfl

/-! ### release -/

@[simp] theorem release_chan (s : State) : (release s).chan = s.chan := rfl
@[simp] theorem release_w (s : State) : (release s).w = Work.unwritten := rfl
@[simp] theorem release_seq (s : State) : (release s).seq = .idle := rfl
@[simp] theorem release_att (s : State) : (release s).att = s.att := rfl
@[simp] theorem release_busy (s : State) : (release s).busy = false := rfl
@[simp] theorem release_busLock (s : State) : (release s).busLock = s.busLock := rfl
@[simp] theorem release_vm (s : State) : (release s).vm = s.vm := rfl
@[simp] theorem release_trace (s : State) : (release s).trace = s.trace := rfl
@[simp] theorem release_cfg (s : State) : (release s).cfg = s.cfg := rfl
@[simp] theorem release_chip (s : State) : (release s).chip = s.chip := rfl
@[simp] theorem release_cmd (s : State) : (release s).cmd = s.cmd := rfl
@[simp] theorem release_rsp (s : State) : (release s).rsp = s.rsp := rfl
@[simp] theorem release_xport (s : State) : (release s).xport = s.xport := rfl
@[simp] theorem release_rst (s : State) : (release s).rst = s.rst := rfl
@[simp] theorem release_uop (s : State) : (release s).uop = s.uop := rfl
@[simp] theorem release_opnd (s : State) : (release s).opnd = s.opnd := rfl
@[simp] theorem release_ret (s : State) : (release s).ret = s.ret := rfl
@[simp] theorem release_draws (s : State) : (release s).draws = s.draws := rfl

/-! ### respondIllegal -/

@[simp] theorem respondIllegal_chan (ch : BitVec 2) (s : State) : (respondIllegal ch s).chan = s.chan := rfl
@[simp] theorem respondIllegal_w (ch : BitVec 2) (s : State) : (respondIllegal ch s).w = s.w := rfl
@[simp] theorem respondIllegal_seq (ch : BitVec 2) (s : State) : (respondIllegal ch s).seq = s.seq := rfl
@[simp] theorem respondIllegal_att (ch : BitVec 2) (s : State) : (respondIllegal ch s).att = s.att := rfl
@[simp] theorem respondIllegal_busy (ch : BitVec 2) (s : State) : (respondIllegal ch s).busy = s.busy := rfl
@[simp] theorem respondIllegal_busLock (ch : BitVec 2) (s : State) : (respondIllegal ch s).busLock = s.busLock := rfl
@[simp] theorem respondIllegal_vm (ch : BitVec 2) (s : State) : (respondIllegal ch s).vm = s.vm := rfl
@[simp] theorem respondIllegal_trace (ch : BitVec 2) (s : State) : (respondIllegal ch s).trace = s.trace := rfl
@[simp] theorem respondIllegal_cfg (ch : BitVec 2) (s : State) : (respondIllegal ch s).cfg = s.cfg := rfl
@[simp] theorem respondIllegal_chip (ch : BitVec 2) (s : State) : (respondIllegal ch s).chip = s.chip := rfl
@[simp] theorem respondIllegal_cmd (ch : BitVec 2) (s : State) : (respondIllegal ch s).cmd = s.cmd := rfl
@[simp] theorem respondIllegal_rsp (ch : BitVec 2) (s : State) : (respondIllegal ch s).rsp = s.rsp ++ [rspWord 15 ch false 0] := rfl
@[simp] theorem respondIllegal_xport (ch : BitVec 2) (s : State) : (respondIllegal ch s).xport = s.xport := rfl
@[simp] theorem respondIllegal_rst (ch : BitVec 2) (s : State) : (respondIllegal ch s).rst = s.rst := rfl
@[simp] theorem respondIllegal_uop (ch : BitVec 2) (s : State) : (respondIllegal ch s).uop = s.uop := rfl
@[simp] theorem respondIllegal_opnd (ch : BitVec 2) (s : State) : (respondIllegal ch s).opnd = s.opnd := rfl
@[simp] theorem respondIllegal_ret (ch : BitVec 2) (s : State) : (respondIllegal ch s).ret = s.ret := rfl
@[simp] theorem respondIllegal_draws (ch : BitVec 2) (s : State) : (respondIllegal ch s).draws = s.draws := rfl

/-! ### reject -/

@[simp] theorem reject_chan (e : ErrorKind) (c : Channel) (s : State) : (reject e c s).chan = s.chan := rfl
@[simp] theorem reject_w (e : ErrorKind) (c : Channel) (s : State) : (reject e c s).w = Work.unwritten := rfl
@[simp] theorem reject_seq (e : ErrorKind) (c : Channel) (s : State) : (reject e c s).seq = .idle := rfl
@[simp] theorem reject_att (e : ErrorKind) (c : Channel) (s : State) : (reject e c s).att = s.att := rfl
@[simp] theorem reject_busy (e : ErrorKind) (c : Channel) (s : State) : (reject e c s).busy = false := rfl
@[simp] theorem reject_busLock (e : ErrorKind) (c : Channel) (s : State) : (reject e c s).busLock = s.busLock := rfl
@[simp] theorem reject_vm (e : ErrorKind) (c : Channel) (s : State) : (reject e c s).vm = s.vm := rfl
@[simp] theorem reject_trace (e : ErrorKind) (c : Channel) (s : State) : (reject e c s).trace = s.trace := rfl
@[simp] theorem reject_cfg (e : ErrorKind) (c : Channel) (s : State) : (reject e c s).cfg = s.cfg := rfl
@[simp] theorem reject_chip (e : ErrorKind) (c : Channel) (s : State) : (reject e c s).chip = s.chip := rfl
@[simp] theorem reject_cmd (e : ErrorKind) (c : Channel) (s : State) : (reject e c s).cmd = s.cmd := rfl
@[simp] theorem reject_rsp (e : ErrorKind) (c : Channel) (s : State) : (reject e c s).rsp = s.rsp ++ [rspWord e.code (chBits c) s.vm 0] := rfl
@[simp] theorem reject_xport (e : ErrorKind) (c : Channel) (s : State) : (reject e c s).xport = s.xport := rfl
@[simp] theorem reject_rst (e : ErrorKind) (c : Channel) (s : State) : (reject e c s).rst = s.rst := rfl
@[simp] theorem reject_uop (e : ErrorKind) (c : Channel) (s : State) : (reject e c s).uop = s.uop := rfl
@[simp] theorem reject_opnd (e : ErrorKind) (c : Channel) (s : State) : (reject e c s).opnd = s.opnd := rfl
@[simp] theorem reject_ret (e : ErrorKind) (c : Channel) (s : State) : (reject e c s).ret = s.ret := rfl
@[simp] theorem reject_draws (e : ErrorKind) (c : Channel) (s : State) : (reject e c s).draws = s.draws := rfl

/-! ### abort -/

@[simp] theorem abort_chan (e : ErrorKind) (c : Channel) (s : State) : (abort e c s).chan = s.chan.set c { s.chan.get c with phase := .failed e } := rfl
@[simp] theorem abort_w (e : ErrorKind) (c : Channel) (s : State) : (abort e c s).w = Work.unwritten := rfl
@[simp] theorem abort_seq (e : ErrorKind) (c : Channel) (s : State) : (abort e c s).seq = .idle := rfl
@[simp] theorem abort_att (e : ErrorKind) (c : Channel) (s : State) : (abort e c s).att = s.att := rfl
@[simp] theorem abort_busy (e : ErrorKind) (c : Channel) (s : State) : (abort e c s).busy = false := rfl
@[simp] theorem abort_busLock (e : ErrorKind) (c : Channel) (s : State) : (abort e c s).busLock = false := rfl
@[simp] theorem abort_vm (e : ErrorKind) (c : Channel) (s : State) : (abort e c s).vm = s.vm := rfl
@[simp] theorem abort_trace (e : ErrorKind) (c : Channel) (s : State) : (abort e c s).trace = s.trace := rfl
@[simp] theorem abort_cfg (e : ErrorKind) (c : Channel) (s : State) : (abort e c s).cfg = s.cfg := rfl
@[simp] theorem abort_chip (e : ErrorKind) (c : Channel) (s : State) : (abort e c s).chip = s.chip := rfl
@[simp] theorem abort_cmd (e : ErrorKind) (c : Channel) (s : State) : (abort e c s).cmd = s.cmd := rfl
@[simp] theorem abort_rsp (e : ErrorKind) (c : Channel) (s : State) : (abort e c s).rsp = s.rsp ++ [rspWord e.code (chBits c) s.vm 0] := rfl
@[simp] theorem abort_xport (e : ErrorKind) (c : Channel) (s : State) : (abort e c s).xport = s.xport := rfl
@[simp] theorem abort_rst (e : ErrorKind) (c : Channel) (s : State) : (abort e c s).rst = s.rst := rfl
@[simp] theorem abort_uop (e : ErrorKind) (c : Channel) (s : State) : (abort e c s).uop = s.uop := rfl
@[simp] theorem abort_opnd (e : ErrorKind) (c : Channel) (s : State) : (abort e c s).opnd = s.opnd := rfl
@[simp] theorem abort_ret (e : ErrorKind) (c : Channel) (s : State) : (abort e c s).ret = s.ret := rfl
@[simp] theorem abort_draws (e : ErrorKind) (c : Channel) (s : State) : (abort e c s).draws = s.draws := rfl

/-! ### latch -/

@[simp] theorem latch_chan (a : RegAddr) (v : Byte) (s : State) : (latch a v s).chan = s.chan := rfl
@[simp] theorem latch_w (a : RegAddr) (v : Byte) (s : State) : (latch a v s).w = s.w := rfl
@[simp] theorem latch_seq (a : RegAddr) (v : Byte) (s : State) : (latch a v s).seq = s.seq := rfl
@[simp] theorem latch_att (a : RegAddr) (v : Byte) (s : State) : (latch a v s).att = s.att := rfl
@[simp] theorem latch_busy (a : RegAddr) (v : Byte) (s : State) : (latch a v s).busy = s.busy := rfl
@[simp] theorem latch_busLock (a : RegAddr) (v : Byte) (s : State) : (latch a v s).busLock = s.busLock := rfl
@[simp] theorem latch_vm (a : RegAddr) (v : Byte) (s : State) : (latch a v s).vm = s.vm := rfl
@[simp] theorem latch_trace (a : RegAddr) (v : Byte) (s : State) : (latch a v s).trace = s.trace := rfl
@[simp] theorem latch_cfg (a : RegAddr) (v : Byte) (s : State) : (latch a v s).cfg = s.cfg := rfl
@[simp] theorem latch_chip (a : RegAddr) (v : Byte) (s : State) : (latch a v s).chip = s.chip := rfl
@[simp] theorem latch_cmd (a : RegAddr) (v : Byte) (s : State) : (latch a v s).cmd = s.cmd := rfl
@[simp] theorem latch_rsp (a : RegAddr) (v : Byte) (s : State) : (latch a v s).rsp = s.rsp := rfl
@[simp] theorem latch_xport (a : RegAddr) (v : Byte) (s : State) : (latch a v s).xport = s.xport := rfl
@[simp] theorem latch_rst (a : RegAddr) (v : Byte) (s : State) : (latch a v s).rst = s.rst := rfl
@[simp] theorem latch_uop (a : RegAddr) (v : Byte) (s : State) : (latch a v s).uop = s.uop := rfl
@[simp] theorem latch_opnd (a : RegAddr) (v : Byte) (s : State) : (latch a v s).opnd = ⟨a, v⟩ := rfl
@[simp] theorem latch_ret (a : RegAddr) (v : Byte) (s : State) : (latch a v s).ret = s.ret := rfl
@[simp] theorem latch_draws (a : RegAddr) (v : Byte) (s : State) : (latch a v s).draws = s.draws := rfl

/-! ### writeMs -/

@[simp] theorem writeMs_chan (p : FracParams) (d : Bool) (s : State) : (writeMs p d s).chan = s.chan := rfl
@[simp] theorem writeMs_w (p : FracParams) (d : Bool) (s : State) : (writeMs p d s).w = { s.w with msP1 := some (narrow32 p.p1), msP2 := some (BitVec.ofNat 20 p.p2), msP3 := some (BitVec.ofNat 21 p.p3), msInt := some p.int, msDiv4 := some d } := rfl
@[simp] theorem writeMs_seq (p : FracParams) (d : Bool) (s : State) : (writeMs p d s).seq = s.seq := rfl
@[simp] theorem writeMs_att (p : FracParams) (d : Bool) (s : State) : (writeMs p d s).att = s.att := rfl
@[simp] theorem writeMs_busy (p : FracParams) (d : Bool) (s : State) : (writeMs p d s).busy = s.busy := rfl
@[simp] theorem writeMs_busLock (p : FracParams) (d : Bool) (s : State) : (writeMs p d s).busLock = s.busLock := rfl
@[simp] theorem writeMs_vm (p : FracParams) (d : Bool) (s : State) : (writeMs p d s).vm = s.vm := rfl
@[simp] theorem writeMs_trace (p : FracParams) (d : Bool) (s : State) : (writeMs p d s).trace = s.trace := rfl
@[simp] theorem writeMs_cfg (p : FracParams) (d : Bool) (s : State) : (writeMs p d s).cfg = s.cfg := rfl
@[simp] theorem writeMs_chip (p : FracParams) (d : Bool) (s : State) : (writeMs p d s).chip = s.chip := rfl
@[simp] theorem writeMs_cmd (p : FracParams) (d : Bool) (s : State) : (writeMs p d s).cmd = s.cmd := rfl
@[simp] theorem writeMs_rsp (p : FracParams) (d : Bool) (s : State) : (writeMs p d s).rsp = s.rsp := rfl
@[simp] theorem writeMs_xport (p : FracParams) (d : Bool) (s : State) : (writeMs p d s).xport = s.xport := rfl
@[simp] theorem writeMs_rst (p : FracParams) (d : Bool) (s : State) : (writeMs p d s).rst = s.rst := rfl
@[simp] theorem writeMs_uop (p : FracParams) (d : Bool) (s : State) : (writeMs p d s).uop = s.uop := rfl
@[simp] theorem writeMs_opnd (p : FracParams) (d : Bool) (s : State) : (writeMs p d s).opnd = s.opnd := rfl
@[simp] theorem writeMs_ret (p : FracParams) (d : Bool) (s : State) : (writeMs p d s).ret = s.ret := rfl
@[simp] theorem writeMs_draws (p : FracParams) (d : Bool) (s : State) : (writeMs p d s).draws = s.draws := rfl

/-! ### acceptSetf -/

@[simp] theorem acceptSetf_chan (c : Channel) (i : Bool) (p : BitVec 16) (f : Hz) (s : State) : (acceptSetf c i p f s).chan = s.chan := rfl
@[simp] theorem acceptSetf_w (c : Channel) (i : Bool) (p : BitVec 16) (f : Hz) (s : State) : (acceptSetf c i p f s).w = { Work.unwritten with ch := some c, fout := some f, inv := some i, ph := some p } := rfl
@[simp] theorem acceptSetf_seq (c : Channel) (i : Bool) (p : BitVec 16) (f : Hz) (s : State) : (acceptSetf c i p f s).seq = .s1 := rfl
@[simp] theorem acceptSetf_att (c : Channel) (i : Bool) (p : BitVec 16) (f : Hz) (s : State) : (acceptSetf c i p f s).att = s.att := rfl
@[simp] theorem acceptSetf_busy (c : Channel) (i : Bool) (p : BitVec 16) (f : Hz) (s : State) : (acceptSetf c i p f s).busy = true := rfl
@[simp] theorem acceptSetf_busLock (c : Channel) (i : Bool) (p : BitVec 16) (f : Hz) (s : State) : (acceptSetf c i p f s).busLock = s.busLock := rfl
@[simp] theorem acceptSetf_vm (c : Channel) (i : Bool) (p : BitVec 16) (f : Hz) (s : State) : (acceptSetf c i p f s).vm = false := rfl
@[simp] theorem acceptSetf_trace (c : Channel) (i : Bool) (p : BitVec 16) (f : Hz) (s : State) : (acceptSetf c i p f s).trace = s.trace := rfl
@[simp] theorem acceptSetf_cfg (c : Channel) (i : Bool) (p : BitVec 16) (f : Hz) (s : State) : (acceptSetf c i p f s).cfg = s.cfg := rfl
@[simp] theorem acceptSetf_chip (c : Channel) (i : Bool) (p : BitVec 16) (f : Hz) (s : State) : (acceptSetf c i p f s).chip = s.chip := rfl
@[simp] theorem acceptSetf_cmd (c : Channel) (i : Bool) (p : BitVec 16) (f : Hz) (s : State) : (acceptSetf c i p f s).cmd = s.cmd := rfl
@[simp] theorem acceptSetf_rsp (c : Channel) (i : Bool) (p : BitVec 16) (f : Hz) (s : State) : (acceptSetf c i p f s).rsp = s.rsp := rfl
@[simp] theorem acceptSetf_xport (c : Channel) (i : Bool) (p : BitVec 16) (f : Hz) (s : State) : (acceptSetf c i p f s).xport = s.xport := rfl
@[simp] theorem acceptSetf_rst (c : Channel) (i : Bool) (p : BitVec 16) (f : Hz) (s : State) : (acceptSetf c i p f s).rst = s.rst := rfl
@[simp] theorem acceptSetf_uop (c : Channel) (i : Bool) (p : BitVec 16) (f : Hz) (s : State) : (acceptSetf c i p f s).uop = s.uop := rfl
@[simp] theorem acceptSetf_opnd (c : Channel) (i : Bool) (p : BitVec 16) (f : Hz) (s : State) : (acceptSetf c i p f s).opnd = s.opnd := rfl
@[simp] theorem acceptSetf_ret (c : Channel) (i : Bool) (p : BitVec 16) (f : Hz) (s : State) : (acceptSetf c i p f s).ret = s.ret := rfl
@[simp] theorem acceptSetf_draws (c : Channel) (i : Bool) (p : BitVec 16) (f : Hz) (s : State) : (acceptSetf c i p f s).draws = s.draws := rfl

/-! ### commit -/

@[simp] theorem commit_chan (c : Channel) (f r : Hz) (s : State) : (commit c f r s).chan = s.chan.set c ⟨f, r, .active⟩ := rfl
@[simp] theorem commit_w (c : Channel) (f r : Hz) (s : State) : (commit c f r s).w = Work.unwritten := rfl
@[simp] theorem commit_seq (c : Channel) (f r : Hz) (s : State) : (commit c f r s).seq = .idle := rfl
@[simp] theorem commit_att (c : Channel) (f r : Hz) (s : State) : (commit c f r s).att = s.att := rfl
@[simp] theorem commit_busy (c : Channel) (f r : Hz) (s : State) : (commit c f r s).busy = false := rfl
@[simp] theorem commit_busLock (c : Channel) (f r : Hz) (s : State) : (commit c f r s).busLock = false := rfl
@[simp] theorem commit_vm (c : Channel) (f r : Hz) (s : State) : (commit c f r s).vm = s.vm := rfl
@[simp] theorem commit_trace (c : Channel) (f r : Hz) (s : State) : (commit c f r s).trace = s.trace := rfl
@[simp] theorem commit_cfg (c : Channel) (f r : Hz) (s : State) : (commit c f r s).cfg = s.cfg := rfl
@[simp] theorem commit_chip (c : Channel) (f r : Hz) (s : State) : (commit c f r s).chip = s.chip := rfl
@[simp] theorem commit_cmd (c : Channel) (f r : Hz) (s : State) : (commit c f r s).cmd = s.cmd := rfl
@[simp] theorem commit_rsp (c : Channel) (f r : Hz) (s : State) : (commit c f r s).rsp = s.rsp ++ [rspWord 0 (chBits c) s.vm r] := rfl
@[simp] theorem commit_xport (c : Channel) (f r : Hz) (s : State) : (commit c f r s).xport = s.xport := rfl
@[simp] theorem commit_rst (c : Channel) (f r : Hz) (s : State) : (commit c f r s).rst = s.rst := rfl
@[simp] theorem commit_uop (c : Channel) (f r : Hz) (s : State) : (commit c f r s).uop = s.uop := rfl
@[simp] theorem commit_opnd (c : Channel) (f r : Hz) (s : State) : (commit c f r s).opnd = s.opnd := rfl
@[simp] theorem commit_ret (c : Channel) (f r : Hz) (s : State) : (commit c f r s).ret = s.ret := rfl
@[simp] theorem commit_draws (c : Channel) (f r : Hz) (s : State) : (commit c f r s).draws = s.draws := rfl

/-! ### Channel records -/

@[simp] theorem channels_get_set_same (cs : Channels) (c : Channel) (v : ChannelRecord) : (cs.set c v).get c = v := by
  cases c <;> rfl

theorem channels_get_set_other (cs : Channels) (c d : Channel) (v : ChannelRecord) (h : d ≠ c) : (cs.set c v).get d = cs.get d := by
  cases c <;> cases d <;> first | rfl | exact absurd rfl h

theorem channels_get_set (cs : Channels) (c d : Channel) (v : ChannelRecord) :
    (cs.set c v).get d = if d = c then v else cs.get d := by
  cases c <;> cases d <;> rfl

/-- Writing a phase leaves every channel's frequencies. -/
@[simp] theorem setPhase_requestedHz (c d : Channel) (p : Phase) (cs : Channels) :
    ((cs.set c { cs.get c with phase := p }).get d).requestedHz = (cs.get d).requestedHz := by
  cases c <;> cases d <;> rfl

@[simp] theorem setPhase_realizedHz (c d : Channel) (p : Phase) (cs : Channels) :
    ((cs.set c { cs.get c with phase := p }).get d).realizedHz = (cs.get d).realizedHz := by
  cases c <;> cases d <;> rfl

/-- Writing a phase leaves the shared-PLL test. -/
@[simp] theorem setPhase_siblingAllows (c d : Channel) (p : Phase) (cs : Channels) (f : Hz) :
    siblingAllows (cs.set c { cs.get c with phase := p }) d f = siblingAllows cs d f := by
  cases c <;> cases d <;> rfl

/-- Writing a phase leaves the output-enable byte. -/
@[simp] theorem setPhase_oeByte (c d : Channel) (p : Phase) (cs : Channels) :
    oeByte (cs.set c { cs.get c with phase := p }) d = oeByte cs d := by
  cases c <;> cases d <;> rfl

@[simp] theorem chOfBits_chBits (c : Channel) : chOfBits (chBits c) = some c := by
  cases c <;> rfl

/-- A channel field that names a channel is that channel's number. -/
theorem chBits_of_chOfBits {b : BitVec 2} {c : Channel} (h : chOfBits b = some c) : chBits c = b := by
  revert c h; revert b; decide

theorem chOfBits_eq_none {b : BitVec 2} : chOfBits b = none ↔ b = 3 := by
  revert b; decide

end Sys2Proof.Machine
end

