-- ==== Sys2Proof/Laws/Transport.lean ====
section
/-! SUPPORT. The Transport boundary and the attempt loop: everything one transaction, and one register operation, can do. -/

namespace Sys2Proof.Machine

/-- What a draw can change: the answers still to come, and the count of free values. -/
theorem draw_frame (s : State) :
    ∃ xs k, (draw s).2 = { s with xport := xs, draws := k } := by
  unfold draw
  split
  · exact ⟨_, s.draws, rfl⟩
  · exact ⟨s.xport, s.draws + 1, rfl⟩

/-- Everything one write transaction can do (spec/20_memory.md R52, R54): it is recorded; answered `ok` it stores its bytes, answered `fail`
it changes no register. -/
theorem regWrite_cases (addr : RegAddr) (data : List Byte) (s : State) :
    ∃ xs k ans,
      (ans = .bytesWritten (data.length + 1) ∧
        regWrite addr data s = (some (), { s with
          xport := xs, draws := k, trace := s.trace ++ [⟨s.cfg.chipAddr, addr, .write data, ans⟩],
          chip := s.chip.store addr.toNat data })) ∨
      (ans ≠ .bytesWritten (data.length + 1) ∧
        regWrite addr data s = (none, { s with
          xport := xs, draws := k, trace := s.trace ++ [⟨s.cfg.chipAddr, addr, .write data, ans⟩] })) := by
  obtain ⟨xs, k, hd⟩ := draw_frame s
  refine ⟨xs, k, writeAnswer (answerToWrite (draw s).1 (data.length + 1)), ?_⟩
  simp only [regWrite, wframe, List.length_cons, hd]
  by_cases h : answerToWrite (draw s).1 (data.length + 1) = some (data.length + 1)
  · left; simp [h, writeAnswer]
  · right
    refine ⟨?_, by simp [h]⟩
    cases hw : answerToWrite (draw s).1 (data.length + 1) with
    | none => simp [writeAnswer]
    | some m => rw [hw] at h; simpa [writeAnswer] using h

/-- Everything one read transaction can do (spec/20_memory.md R53): it is recorded, and changes no register. -/
theorem regRead_cases (addr : RegAddr) (s : State) :
    ∃ xs k o,
      regRead addr s = (o, { s with
        xport := xs, draws := k, trace := s.trace ++ [⟨s.cfg.chipAddr, addr, .read 1, readAnswer o⟩] }) := by
  obtain ⟨xs, k, hd⟩ := draw_frame s
  simp only [regRead, hd, readByte]
  split
  · exact ⟨xs, k, _, rfl⟩
  · split
    · exact ⟨xs, k, _, rfl⟩
    · exact ⟨xs, k + 1, _, rfl⟩

/-- An invariant rule for the attempt loop: what one transaction keeps, whatever ATT is, the register operation keeps; it ends with ATT = 0. -/
theorem attemptLoop_rule {α : Type} {op : State → Option α × State} {P : State → Prop} {Q : α → State → Prop}
    (hatt : ∀ s k, P s → P { s with att := k })
    (hok : ∀ s a t, P s → op s = (some a, t) → Q a { t with att := 0 })
    (hfail : ∀ s t, P s → op s = (none, t) → P t) (fuel : Nat) (s : State) (hs : P s) :
    (∃ a t, attemptLoop op fuel s = .ok (a, t) ∧ Q a t) ∨
    (∃ t, attemptLoop op fuel s = .raised .transportError t ∧ P t ∧ t.att = 0) := by
  induction fuel generalizing s with
  | zero => right; exact ⟨_, rfl, hatt _ _ hs, rfl⟩
  | succ fuel ih =>
    rw [attemptLoop]
    split
    · next a t h => left; exact ⟨a, _, rfl, hok _ _ _ (hatt _ _ hs) h⟩
    · next t h =>
      have ht := hfail _ _ (hatt _ _ hs) h
      split
      · right; exact ⟨_, rfl, hatt _ _ ht, rfl⟩
      · exact ih t ht

/-- The same for a whole register operation (spec/41_register_protocol.md R160). -/
theorem attempt_rule {α : Type} {op : State → Option α × State} {P : State → Prop} {Q : α → State → Prop}
    (hatt : ∀ s k, P s → P { s with att := k })
    (hok : ∀ s a t, P s → op s = (some a, t) → Q a { t with att := 0 })
    (hfail : ∀ s t, P s → op s = (none, t) → P t) (s : State) (hs : P s) :
    (∃ a t, attempt op s = .ok (a, t) ∧ Q a t) ∨
    (∃ t, attempt op s = .raised .transportError t ∧ P t ∧ t.att = 0) :=
  attemptLoop_rule hatt hok hfail attempts _ (hatt _ _ hs)

/-! ### Exact results, in terms of the answers a state determines -/

/-- `t` has drawn `k` answers since `s`. -/
def Drawn (k : Nat) (s t : State) : Prop := t.xport = s.xport.drop k ∧ t.draws = drawsAfter k s

theorem drawn_zero (s : State) : Drawn 0 s s := by simp [Drawn, drawsAfter]

/-- A draw takes the answer `s` determines. -/
theorem draw_of_drawn {k : Nat} {s t : State} (h : Drawn k s t) :
    draw t = (oracle s k, { t with xport := s.xport.drop (k + 1), draws := drawsAfter (k + 1) s }) := by
  obtain ⟨h1, h2⟩ := h
  rcases hx : s.xport.drop k with _ | ⟨a, rest⟩
  · have hl : s.xport.length ≤ k := List.drop_eq_nil_iff.mp hx
    have h0 : s.xport[k]? = none := List.getElem?_eq_none_iff.mpr hl
    have h3 : s.xport.drop (k + 1) = [] := List.drop_eq_nil_iff.mpr (by omega)
    have h4 : s.draws + (k - s.xport.length) + 1 = drawsAfter (k + 1) s := by simp only [drawsAfter]; omega
    simp only [drawsAfter] at h2
    simp only [draw, h1, hx, oracle, h0, h2, h3, h4]
  · have hk : s.xport[k]? = some a := by
      have := List.getElem?_drop (xs := s.xport) (i := k) (j := 0)
      rw [hx] at this; simpa using this.symm
    have hl : k < s.xport.length := by
      by_contra hc
      rw [List.getElem?_eq_none_iff.mpr (by omega)] at hk; cases hk
    have h3 : s.xport.drop (k + 1) = rest := by
      rw [← List.drop_drop, hx]; rfl
    have h4 : drawsAfter k s = drawsAfter (k + 1) s := by simp only [drawsAfter]; omega
    simp only [draw, h1, hx, oracle, hk, h2, h3, h4]

theorem regWrite_ok {k : Nat} {s t : State} (h : Drawn k s t) (addr : RegAddr) (data : List Byte) (ha : WriteOk s data.length k) :
    regWrite addr data t = (some (), { t with
      xport := s.xport.drop (k + 1)
      draws := drawsAfter (k + 1) s
      trace := t.trace ++ [⟨t.cfg.chipAddr, addr, .write data, writeAnswer (answerToWrite (oracle s k) (data.length + 1))⟩]
      chip := t.chip.store addr.toNat data }) := by
  simp only [WriteOk] at ha
  simp [regWrite, draw_of_drawn h, wframe, ha]

theorem regWrite_fail {k : Nat} {s t : State} (h : Drawn k s t) (addr : RegAddr) (data : List Byte) (ha : ¬ WriteOk s data.length k) :
    regWrite addr data t = (none, { t with
      xport := s.xport.drop (k + 1)
      draws := drawsAfter (k + 1) s
      trace := t.trace ++ [⟨t.cfg.chipAddr, addr, .write data, writeAnswer (answerToWrite (oracle s k) (data.length + 1))⟩] }) := by
  simp only [WriteOk] at ha
  simp [regWrite, draw_of_drawn h, wframe, ha]

theorem regRead_ok {k : Nat} {s t : State} (h : Drawn k s t) (hc : t.chip = s.chip) (addr : RegAddr) {b : Byte}
    (ha : readOracle s addr k = some b) :
    regRead addr t = (some b, { t with
      xport := s.xport.drop (k + 1)
      draws := drawsAfterReads addr k s
      trace := t.trace ++ [⟨t.cfg.chipAddr, addr, .read 1, .bytes [b]⟩] }) := by
  rcases ho : oracle s k with _ | ⟨w, r⟩
  · rcases hr : s.chip.read addr.toNat with _ | c <;> simp only [readOracle, ho, hr, Option.getD, Option.some.injEq] at ha <;>
      simp [regRead, draw_of_drawn h, readByte, ho, hc, hr, readAnswer, drawsAfterReads, ha]
  · simp only [readOracle, ho] at ha
    simp [regRead, draw_of_drawn h, readByte, ho, readAnswer, drawsAfterReads, ha]

theorem regRead_fail {k : Nat} {s t : State} (h : Drawn k s t) (addr : RegAddr) (ha : readOracle s addr k = none) :
    regRead addr t = (none, { t with
      xport := s.xport.drop (k + 1)
      draws := drawsAfter (k + 1) s
      trace := t.trace ++ [⟨t.cfg.chipAddr, addr, .read 1, .error⟩] }) := by
  rcases ho : oracle s k with _ | ⟨w, r⟩
  · simp [readOracle, ho] at ha
  · simp only [readOracle, ho] at ha
    simp [regRead, draw_of_drawn h, readByte, ho, readAnswer, ha]

theorem writeTxns_succ (s : State) (addr : RegAddr) (data : List Byte) (k : Nat) :
    writeTxns s addr data (k + 1) = writeTxns s addr data k ++
      [⟨s.cfg.chipAddr, addr, .write data, writeAnswer (answerToWrite (oracle s k) (data.length + 1))⟩] := by
  simp [writeTxns, List.range_succ]

theorem readTxns_succ (s : State) (addr : RegAddr) (k : Nat) :
    readTxns s addr (k + 1) = readTxns s addr k ++
      [⟨s.cfg.chipAddr, addr, .read 1, readAnswer (readOracle s addr k)⟩] := by
  simp [readTxns, List.range_succ]

/-- The state after `k` failed attempts, ATT counting them, the transactions `tr` recorded. -/
def attemptsFailed (k : Nat) (tr : List Txn) (s : State) : State :=
  { s with xport := s.xport.drop k, draws := drawsAfter k s, att := BitVec.ofNat 2 k, trace := s.trace ++ tr }

theorem attemptsFailed_zero (s : State) : attemptsFailed 0 [] s = { s with att := 0 } := by
  simp [attemptsFailed, drawsAfter]

/-- An attempt that succeeds ends the loop with ATT = 0. -/
theorem attemptLoop_ok {α : Type} {op : State → Option α × State} {s t : State} {a : α} (fuel : Nat)
    (h : op { s with att := s.att + 1 } = (some a, t)) : attemptLoop op (fuel + 1) s = .ok (a, { t with att := 0 }) := by
  rw [attemptLoop, h]

/-- An attempt that fails is the last one exactly when ATT has reached 3. -/
theorem attemptLoop_fail {α : Type} {op : State → Option α × State} {s t : State} (fuel : Nat)
    (h : op { s with att := s.att + 1 } = (none, t)) :
    attemptLoop op (fuel + 1) s =
      if t.att.toNat = 3 then .raised .transportError { t with att := 0 } else attemptLoop op fuel t := by
  rw [attemptLoop, h]

theorem attemptLoop_write_ok {k : Nat} {s : State} (addr : RegAddr) (data : List Byte) (fuel : Nat) (h : WriteOk s data.length k) :
    attemptLoop (regWrite addr data) (fuel + 1) (attemptsFailed k (writeTxns s addr data k) s) =
      .ok ((), { s with
        xport := s.xport.drop (k + 1), draws := drawsAfter (k + 1) s, att := 0, trace := s.trace ++ writeTxns s addr data (k + 1), chip := s.chip.store addr.toNat data }) := by
  rw [attemptLoop_ok fuel (regWrite_ok ⟨rfl, rfl⟩ addr data h), writeTxns_succ, ← List.append_assoc]
  rfl

theorem attemptLoop_write_fail {k : Nat} {s : State} (addr : RegAddr) (data : List Byte) (fuel : Nat) (hk : k < 3)
    (h : ¬ WriteOk s data.length k) :
    attemptLoop (regWrite addr data) (fuel + 1) (attemptsFailed k (writeTxns s addr data k) s) =
      if k = 2 then .raised .transportError { s with
        xport := s.xport.drop 3, draws := drawsAfter 3 s, att := 0, trace := s.trace ++ writeTxns s addr data 3 }
      else attemptLoop (regWrite addr data) fuel (attemptsFailed (k + 1) (writeTxns s addr data (k + 1)) s) := by
  rw [attemptLoop_fail fuel (regWrite_fail ⟨rfl, rfl⟩ addr data h)]
  match k, hk with
  | 0, _ =>
    refine (if_neg (by show ¬ (1#2 : BitVec 2).toNat = 3; decide)).trans (.trans ?_ (if_neg (by decide)).symm)
    rw [writeTxns_succ s addr data 0, attemptsFailed, attemptsFailed, ← List.append_assoc]; rfl
  | 1, _ =>
    refine (if_neg (by show ¬ (2#2 : BitVec 2).toNat = 3; decide)).trans (.trans ?_ (if_neg (by decide)).symm)
    rw [writeTxns_succ s addr data 1, attemptsFailed, attemptsFailed, ← List.append_assoc]; rfl
  | 2, _ =>
    refine (if_pos (by show (3#2 : BitVec 2).toNat = 3; decide)).trans (.trans ?_ (if_pos rfl).symm)
    rw [writeTxns_succ s addr data 2, attemptsFailed, ← List.append_assoc]

theorem attemptLoop_read_ok {k : Nat} {s : State} (addr : RegAddr) {b : Byte} (fuel : Nat) (h : readOracle s addr k = some b) :
    attemptLoop (regRead addr) (fuel + 1) (attemptsFailed k (readTxns s addr k) s) =
      .ok (b, { s with
        xport := s.xport.drop (k + 1), draws := drawsAfterReads addr k s, att := 0, trace := s.trace ++ readTxns s addr (k + 1) }) := by
  refine (attemptLoop_ok fuel (regRead_ok (k := k) (s := s) ⟨?_, ?_⟩ ?_ addr h)).trans ?_
  · rfl
  · rfl
  · rfl
  · rw [readTxns_succ, ← List.append_assoc, h]; rfl

theorem attemptLoop_read_fail {k : Nat} {s : State} (addr : RegAddr) (fuel : Nat) (hk : k < 3) (h : readOracle s addr k = none) :
    attemptLoop (regRead addr) (fuel + 1) (attemptsFailed k (readTxns s addr k) s) =
      if k = 2 then .raised .transportError { s with
        xport := s.xport.drop 3, draws := drawsAfter 3 s, att := 0, trace := s.trace ++ readTxns s addr 3 }
      else attemptLoop (regRead addr) fuel (attemptsFailed (k + 1) (readTxns s addr (k + 1)) s) := by
  rw [attemptLoop_fail fuel (regRead_fail ⟨rfl, rfl⟩ addr h)]
  match k, hk with
  | 0, _ =>
    refine (if_neg (by show ¬ (1#2 : BitVec 2).toNat = 3; decide)).trans (.trans ?_ (if_neg (by decide)).symm)
    rw [readTxns_succ s addr 0, h, attemptsFailed, attemptsFailed, ← List.append_assoc]; rfl
  | 1, _ =>
    refine (if_neg (by show ¬ (2#2 : BitVec 2).toNat = 3; decide)).trans (.trans ?_ (if_neg (by decide)).symm)
    rw [readTxns_succ s addr 1, h, attemptsFailed, attemptsFailed, ← List.append_assoc]; rfl
  | 2, _ =>
    refine (if_pos (by show (3#2 : BitVec 2).toNat = 3; decide)).trans (.trans ?_ (if_pos rfl).symm)
    rw [readTxns_succ s addr 2, h, attemptsFailed, ← List.append_assoc]; rfl

/-- A write operation whose first `ok` is the `k`-th of three attempts (spec/41_register_protocol.md R160). -/
theorem attempt_write_ok {k : Nat} {s : State} (addr : RegAddr) (data : List Byte) (h : FirstWriteOk s data.length k) :
    attempt (regWrite addr data) s = .ok ((), { s with
      xport := s.xport.drop (k + 1), draws := drawsAfter (k + 1) s, att := 0, trace := s.trace ++ writeTxns s addr data (k + 1), chip := s.chip.store addr.toNat data }) := by
  obtain ⟨hk, hf, ho⟩ := h
  rw [attempt, ← attemptsFailed_zero]
  match k, hk with
  | 0, _ => exact attemptLoop_write_ok addr data 2 ho
  | 1, _ => exact (attemptLoop_write_fail addr data 2 (by omega) (hf 0 (by omega))).trans (attemptLoop_write_ok addr data 1 ho)
  | 2, _ =>
    exact (attemptLoop_write_fail addr data 2 (by omega) (hf 0 (by omega))).trans
      ((attemptLoop_write_fail addr data 1 (by omega) (hf 1 (by omega))).trans (attemptLoop_write_ok addr data 0 ho))

/-- A write operation all of whose attempts fail: three transactions, no register changed (R160, R163). -/
theorem attempt_write_fail {s : State} (addr : RegAddr) (data : List Byte) (h : WritesFail s data.length) :
    attempt (regWrite addr data) s = .raised .transportError { s with
      xport := s.xport.drop 3, draws := drawsAfter 3 s, att := 0, trace := s.trace ++ writeTxns s addr data 3 } := by
  rw [attempt, ← attemptsFailed_zero]
  exact (attemptLoop_write_fail addr data 2 (by omega) (h 0 (by omega))).trans
    ((attemptLoop_write_fail addr data 1 (by omega) (h 1 (by omega))).trans (attemptLoop_write_fail addr data 0 (by omega) (h 2 (by omega))))

/-- A read operation whose first `ok` is the `k`-th of three attempts. -/
theorem attempt_read_ok {k : Nat} {s : State} (addr : RegAddr) {b : Byte} (h : FirstReadOk s addr k b) :
    attempt (regRead addr) s = .ok (b, { s with
      xport := s.xport.drop (k + 1), draws := drawsAfterReads addr k s, att := 0, trace := s.trace ++ readTxns s addr (k + 1) }) := by
  obtain ⟨hk, hf, ho⟩ := h
  rw [attempt, ← attemptsFailed_zero]
  match k, hk with
  | 0, _ => exact attemptLoop_read_ok addr 2 ho
  | 1, _ => exact (attemptLoop_read_fail addr 2 (by omega) (hf 0 (by omega))).trans (attemptLoop_read_ok addr 1 ho)
  | 2, _ =>
    exact (attemptLoop_read_fail addr 2 (by omega) (hf 0 (by omega))).trans
      ((attemptLoop_read_fail addr 1 (by omega) (hf 1 (by omega))).trans (attemptLoop_read_ok addr 0 ho))

/-- A read operation all of whose attempts fail. -/
theorem attempt_read_fail {s : State} (addr : RegAddr) (h : ReadsFail s addr) :
    attempt (regRead addr) s = .raised .transportError { s with
      xport := s.xport.drop 3, draws := drawsAfter 3 s, att := 0, trace := s.trace ++ readTxns s addr 3 } := by
  rw [attempt, ← attemptsFailed_zero]
  exact (attemptLoop_read_fail addr 2 (by omega) (h 0 (by omega))).trans
    ((attemptLoop_read_fail addr 1 (by omega) (h 1 (by omega))).trans (attemptLoop_read_fail addr 0 (by omega) (h 2 (by omega))))

/-- Of the three attempts at a write either one is the first to succeed, or all fail. -/
theorem write_outcome (s : State) (len : Nat) : (∃ k, FirstWriteOk s len k) ∨ WritesFail s len := by
  by_cases h0 : WriteOk s len 0
  · exact .inl ⟨0, by omega, fun j hj => by omega, h0⟩
  by_cases h1 : WriteOk s len 1
  · exact .inl ⟨1, by omega, fun j hj => by obtain rfl : j = 0 := by omega
                                            exact h0, h1⟩
  by_cases h2 : WriteOk s len 2
  · refine .inl ⟨2, by omega, fun j hj => ?_, h2⟩
    rcases (by omega : j = 0 ∨ j = 1) with rfl | rfl
    · exact h0
    · exact h1
  · refine .inr fun j hj => ?_
    rcases (by omega : j = 0 ∨ j = 1 ∨ j = 2) with rfl | rfl | rfl
    · exact h0
    · exact h1
    · exact h2

/-- Of the three attempts at a read either one is the first to succeed, or all fail. -/
theorem read_outcome (s : State) (reg : RegAddr) : (∃ k b, FirstReadOk s reg k b) ∨ ReadsFail s reg := by
  rcases h0 : readOracle s reg 0 with _ | b
  · rcases h1 : readOracle s reg 1 with _ | b
    · rcases h2 : readOracle s reg 2 with _ | b
      · refine .inr fun j hj => ?_
        rcases (by omega : j = 0 ∨ j = 1 ∨ j = 2) with rfl | rfl | rfl
        · exact h0
        · exact h1
        · exact h2
      · refine .inl ⟨2, b, by omega, fun j hj => ?_, h2⟩
        rcases (by omega : j = 0 ∨ j = 1) with rfl | rfl
        · exact h0
        · exact h1
    · exact .inl ⟨1, b, by omega, fun j hj => by obtain rfl : j = 0 := by omega
                                                 exact h0, h1⟩
  · exact .inl ⟨0, b, by omega, fun j hj => by omega, h0⟩

/-- After `k` draws the oracle goes on where it was. -/
theorem oracle_drawn {s t : State} {k : Nat} (h : Drawn k s t) (j : Nat) : oracle t j = oracle s (k + j) := by
  obtain ⟨h1, h2⟩ := h
  simp only [oracle, h1, h2, List.getElem?_drop, List.length_drop, drawsAfter]
  split
  · rfl
  · next hn =>
    rw [List.getElem?_eq_none_iff] at hn
    congr 1; omega

/-- One draw more. -/
theorem drawn_succ {s t u : State} {k : Nat} (h : Drawn k s t) (h1 : u.xport = t.xport.drop 1) (h2 : u.draws = drawsAfter 1 t) :
    Drawn (k + 1) s u := by
  obtain ⟨a, b⟩ := h
  refine ⟨by rw [h1, a, List.drop_drop], ?_⟩
  rw [h2]
  simp only [drawsAfter, a, b, List.length_drop]
  omega

/-- A write answered `ok` at once, after `k` draws. -/
theorem firstWriteOk_drawn {s t : State} {k len : Nat} (h : Drawn k s t) (hw : WriteOk s len k) : FirstWriteOk t len 0 := by
  refine ⟨by omega, fun j hj => by omega, ?_⟩
  rw [WriteOk, oracle_drawn h 0]
  exact hw

/-- The one transaction of a write answered at once, in terms of an earlier state's oracle. -/
theorem writeTxns_one {s t : State} {k : Nat} (h : Drawn k s t) (hc : t.cfg = s.cfg) (reg : RegAddr) (data : List Byte) :
    writeTxns t reg data (0 + 1) =
      [⟨s.cfg.chipAddr, reg, .write data, writeAnswer (answerToWrite (oracle s k) (data.length + 1))⟩] := by
  have o := oracle_drawn h 0
  rw [Nat.add_zero] at o
  simp [writeTxns, hc, o]

end Sys2Proof.Machine
end

