-- ==== Sys2Proof/Laws/Units.lean ====
section
/-! SUPPORT. The unit operations and taking an error: what each answers, said once. -/

namespace Sys2Proof.Machine

/-! ### Pieces of an operation -/

theorem bind_ok {α β : Type} (a : α) (f : α → Result β) : (Result.ok a).bind f = f a := rfl
theorem bind_raised {α β : Type} (e : ErrorKind) (s : State) (f : α → Result β) : (Result.raised e s).bind f = .raised e s := rfl

/-- A piece that answers `ok` hands its value on. -/
theorem bind_of_ok {α β : Type} {x : Result α} {a : α} (f : α → Result β) (h : x = .ok a) : x.bind f = f a := by rw [h]; rfl

/-- A piece that raises ends the operation. -/
theorem bind_of_raised {α β : Type} {x : Result α} {e : ErrorKind} {s : State} (f : α → Result β) (h : x = .raised e s) :
    x.bind f = .raised e s := by rw [h]; rfl

theorem need_some {α : Type} (reg : WReg) (a : α) : need reg (some a) = .ok a := rfl

/-! ### Taking an error (spec/60_exceptions.md R231) -/

/-- Outside a SETF, and in step 9, the error goes to the caller (log 6). -/
theorem takeError_outside {s : State} (e : ErrorKind) (h : s.seq = .idle ∨ s.seq = .s9) :
    takeError e s = .next { s with ret := .raised e } := by
  rcases h with h | h <;> simp [takeError, h]

/-- In steps 1 and 2 an error is a rejection (spec/42_coordinator.md R185). -/
theorem takeError_reject {s : State} {c : Channel} (e : ErrorKind) (hc : s.w.ch = some c) (h1 : 1 ≤ s.seq.rank) (h2 : s.seq.rank ≤ 2) :
    takeError e s = .next (reject e c s) := by
  cases hs : s.seq <;> simp_all [takeError, Seq.rank]

/-- In steps 3 to 8 an error aborts the sequence (spec/42_coordinator.md R196). -/
theorem takeError_abort {s : State} {c : Channel} (e : ErrorKind) (hc : s.w.ch = some c) (h1 : 3 ≤ s.seq.rank) (h2 : s.seq.rank ≤ 11) :
    takeError e s = .next (abort e c s) := by
  cases hs : s.seq <;> simp_all [takeError, Seq.rank]

/-! ### Planner -/

theorem cpllOp_ok {s : State} {vco : Hz} {p : FracParams} (hv : s.w.vco = some vco) (hp : frac vco.toNat s.cfg.xtalHz.toNat = some p) :
    cpllOp s = .ok { s with w := { s.w with
      pllP1 := some (narrow32 p.p1), pllP2 := some (BitVec.ofNat 20 p.p2), pllP3 := some (BitVec.ofNat 21 p.p3), pllInt := some p.int } } := by
  simp only [cpllOp, getVco, need, hv, Result.bind, hp]

theorem cmsOp_div4 {s : State} {f : Hz} {r : BitVec 3} (hf : s.w.fout = some f) (hr : s.w.r = some r)
    (h : 150000000 < f.toNat * 2 ^ r.toNat) : cmsOp s = .ok (writeMs ⟨0, 0, 1, true⟩ true s) := by
  simp [cmsOp, getFout, getR, need, hf, hr, Result.bind, isDivBy4, h]

theorem cmsOp_frac {s : State} {f vco : Hz} {r : BitVec 3} {p : FracParams} (hf : s.w.fout = some f) (hr : s.w.r = some r)
    (hv : s.w.vco = some vco) (h : f.toNat * 2 ^ r.toNat ≤ 150000000) (hp : frac vco.toNat (f.toNat * 2 ^ r.toNat) = some p) :
    cmsOp s = .ok (writeMs p false s) := by
  have h' : ¬ 150000000 < f.toNat * 2 ^ r.toNat := by omega
  simp [cmsOp, getFout, getR, getVco, need, hf, hr, hv, Result.bind, isDivBy4, h', hp]

theorem aphoOp_ok {s : State} {p1 : BitVec 32} {ph : BitVec 16} {d : Bool} (h1 : s.w.msP1 = some p1) (h2 : s.w.ph = some ph)
    (h3 : s.w.msDiv4 = some d) :
    aphoOp s = .ok { s with w := { s.w with msP1 := some (narrow32 (p1.toNat + 128 * appliedPhase ph.toNat d)) } } := by
  simp only [aphoOp, getMsP1, getPh, getMsDiv4, need, h1, h2, h3, Result.bind]

theorem svcoOp_ok {s : State} {f : Hz} {v n r : Nat} (hf : s.w.fout = some f) (h : searchVco f.toNat = some (v, n, r)) :
    svcoOp s = .ok { s with w := { s.w with
      vco := some (BitVec.ofNat 32 v), n := some (BitVec.ofNat 11 n), r := some (BitVec.ofNat 3 r) } } := by
  simp only [svcoOp, getFout, need, hf, Result.bind, h]

/-! ### Register protocol -/

theorem encpOp_ok {s : State} {p1 : BitVec 32} {p2 : BitVec 20} {p3 : BitVec 21} (h1 : s.w.pllP1 = some p1) (h2 : s.w.pllP2 = some p2)
    (h3 : s.w.pllP3 = some p3) : encpOp s = .ok { s with w := { s.w with blk := some (encodePll p1 p2 p3) } } := by
  simp only [encpOp, getPllP1, getPllP2, getPllP3, need, h1, h2, h3, Result.bind]

/-- What ENCM answers once its operands are written: a block, and nothing else changed. -/
theorem encmOp_ok {s : State} {p1 : BitVec 32} {p2 : BitVec 20} {p3 : BitVec 21} {d : Bool} {r : BitVec 3} (h1 : s.w.msP1 = some p1)
    (h2 : s.w.msP2 = some p2) (h3 : s.w.msP3 = some p3) (h4 : s.w.msDiv4 = some d) (h5 : s.w.msR = some r) :
    encmOp s = .ok { s with w := { s.w with blk := some (if d then s.cfg.divBy4Block else encodeMs p1 p2 p3 r) } } := by
  cases d <;> simp [encmOp, getMsP1, getMsP2, getMsP3, getMsR, getMsDiv4, need, h1, h2, h3, h4, h5, Result.bind]

theorem wrbOp_ok {s : State} {b : Block} {k : Nat} (hb : s.w.blk = some b) (h : FirstWriteOk s 8 k) :
    wrbOp s = .ok { s with
      xport := s.xport.drop (k + 1), draws := drawsAfter (k + 1) s, att := 0
      trace := s.trace ++ writeTxns s s.opnd.addr b.toList (k + 1), chip := s.chip.store s.opnd.addr.toNat b.toList } := by
  have := attempt_write_ok s.opnd.addr b.toList (s := s) (k := k) h
  simp only [wrbOp, getBlk, need, hb, Result.bind, this]

theorem wrbOp_fail {s : State} {b : Block} (hb : s.w.blk = some b) (h : WritesFail s 8) :
    wrbOp s = .raised .transportError { s with
      xport := s.xport.drop 3, draws := drawsAfter 3 s, att := 0, trace := s.trace ++ writeTxns s s.opnd.addr b.toList 3 } := by
  have := attempt_write_fail s.opnd.addr b.toList (s := s) h
  simp only [wrbOp, getBlk, need, hb, Result.bind, this]

theorem wr1Op_ok {s : State} {k : Nat} (h : FirstWriteOk s 1 k) :
    wr1Op s = .ok { s with
      xport := s.xport.drop (k + 1), draws := drawsAfter (k + 1) s, att := 0
      trace := s.trace ++ writeTxns s s.opnd.addr [s.opnd.val] (k + 1), chip := s.chip.write s.opnd.addr.toNat s.opnd.val } := by
  have := attempt_write_ok s.opnd.addr [s.opnd.val] (s := s) (k := k) h
  simp only [wr1Op, Result.bind, this, store_single _ s.opnd.addr.isLt]

theorem wr1Op_fail {s : State} (h : WritesFail s 1) :
    wr1Op s = .raised .transportError { s with
      xport := s.xport.drop 3, draws := drawsAfter 3 s, att := 0, trace := s.trace ++ writeTxns s s.opnd.addr [s.opnd.val] 3 } := by
  have := attempt_write_fail s.opnd.addr [s.opnd.val] (s := s) h
  simp only [wr1Op, Result.bind, this]

theorem vmAfter_eq (vm : Bool) (got expected : Byte) : vmAfter vm got expected = if got = expected then vm else true := by
  by_cases h : got = expected <;> simp [vmAfter, h]

theorem vfyOp_ok {s : State} {k : Nat} {b : Byte} (h : FirstReadOk s s.opnd.addr k b) :
    vfyOp s = .ok { s with
      xport := s.xport.drop (k + 1), draws := drawsAfterReads s.opnd.addr k s, att := 0
      trace := s.trace ++ readTxns s s.opnd.addr (k + 1), vm := if b = s.opnd.val then s.vm else true } := by
  have := attempt_read_ok s.opnd.addr (s := s) (k := k) h
  simp only [vfyOp, Result.bind, this, vmAfter_eq]

theorem vfyOp_fail {s : State} (h : ReadsFail s s.opnd.addr) :
    vfyOp s = .raised .transportError { s with
      xport := s.xport.drop 3, draws := drawsAfter 3 s, att := 0, trace := s.trace ++ readTxns s s.opnd.addr 3 } := by
  have := attempt_read_fail s.opnd.addr (s := s) h
  simp only [vfyOp, Result.bind, this]

end Sys2Proof.Machine
end

