-- ==== Sys2Proof/Laws/Sequencer.lean ====
section
/-! SUPPORT. The steps S1 to S9: what each answers on the working registers it reads. -/

namespace Sys2Proof.Machine

/-- In a quiet state outside IDLE a step is the sequencer's. -/
theorem step_of_quiet {s : State} (hq : Quiet s) (h : s.seq ≠ .idle) : step s = finish (seqStep s) := by
  obtain ⟨h1, h2⟩ := hq
  rw [step, if_neg (by rw [h1]; simp), h2]
  exact if_neg h

/-- In a quiet state in IDLE a step is the command port's. -/
theorem step_of_idle {s : State} (hq : Quiet s) (h : s.seq = .idle) : step s = portStep s := by
  obtain ⟨h1, h2⟩ := hq
  rw [step, if_neg (by rw [h1]; simp), h2]
  exact if_pos h

theorem stepS1_eq {s : State} {f : Hz} (hf : s.w.fout = some f) :
    stepS1 s = if f.toNat < 8000 ∨ 160000000 < f.toNat then .raised .invalidFrequency s else .ok { s with seq := .s2 } := by
  simp only [stepS1, getFout, need, hf, Result.bind]

theorem stepS2_eq {s : State} {c : Channel} {f : Hz} (hc : s.w.ch = some c) (hf : s.w.fout = some f) :
    stepS2 s = if siblingAllows s.chan c f then .ok { s with seq := .s3 } else .raised .phaseConstraintViolation s := by
  simp only [stepS2, getCh, getFout, need, hc, hf, Result.bind]

theorem stepS3_div4 {s : State} {c : Channel} {f : Hz} (hc : s.w.ch = some c) (hf : s.w.fout = some f) (h : 150000000 < f.toNat)
    (h' : f.toNat ≤ 160000000) :
    stepS3 s = .ok { s with
      seq := .s4, chan := s.chan.set c { s.chan.get c with phase := .configuring }
      w := { s.w with vco := some (BitVec.ofNat 32 (4 * f.toNat)), n := some 4, r := some 0 } } := by
  simp [stepS3, getCh, getFout, need, hc, hf, Result.bind, isDivBy4, h, narrow32_of_lt (show 4 * f.toNat < 4294967296 by omega), setPhase]

theorem stepS3_search {s : State} {c : Channel} {f : Hz} {v n r : Nat} (hc : s.w.ch = some c) (hf : s.w.fout = some f)
    (h : f.toNat ≤ 150000000) (hs : searchVco f.toNat = some (v, n, r)) :
    stepS3 s = .ok { s with
      seq := .s4, chan := s.chan.set c { s.chan.get c with phase := .configuring }
      w := { s.w with vco := some (BitVec.ofNat 32 v), n := some (BitVec.ofNat 11 n), r := some (BitVec.ofNat 3 r) } } := by
  have h' : ¬ 150000000 < f.toNat := by omega
  simp [stepS3, getCh, getFout, need, hc, hf, Result.bind, isDivBy4, h', svcoOp, hs, setPhase]

/-- What step 3 leaves is a plan (spec/40_planner.md R131). -/
theorem planned_div4 {f : Hz} (h : 150000000 < f.toNat) (h' : f.toNat ≤ 160000000) : Planned f (BitVec.ofNat 32 (4 * f.toNat)) 4 0 := by
  refine ⟨?_, .inl ⟨h, rfl, rfl⟩⟩
  simp; omega

theorem planned_search {f : Hz} {v n r : Nat} (h : f.toNat ≤ 150000000) (hs : searchVco f.toNat = some (v, n, r)) :
    Planned f (BitVec.ofNat 32 v) (BitVec.ofNat 11 n) (BitVec.ofNat 3 r) := by
  obtain ⟨hv, ⟨h1, h2, h3, h4, h5⟩, -, -⟩ := searchVco_some hs
  have e1 : (BitVec.ofNat 32 v).toNat = v := by simp; omega
  have e2 : (BitVec.ofNat 11 n).toNat = n := by simp; omega
  have e3 : (BitVec.ofNat 3 r).toNat = r := by simp; omega
  exact ⟨by rw [e1, e2, e3]; exact hv, .inr ⟨h, by omega, by omega, by omega, by omega⟩⟩

/-- On what step 3 leaves, FRAC for the PLL has a result (spec/40_planner.md R124). -/
theorem planned_frac {f vco : Hz} {n : BitVec 11} {r : BitVec 3} {p : Params} (hx : XtalLegal p) (h : Planned f vco n r) :
    ∃ q, frac vco.toNat p.xtalHz.toNat = some q := by
  obtain ⟨h1, h2⟩ := hx
  refine frac_isSome h1 ?_
  obtain ⟨he, ⟨ha, rfl, rfl⟩ | ⟨ha, hb⟩⟩ := h
  · simp at he; omega
  · omega

/-- On what step 3 leaves, the parameters of step 4 (spec/42_coordinator.md R188, R189, spec/40_planner.md R126, R135). -/
theorem stepS4_ok {s : State} {f vco : Hz} {n : BitVec 11} {r : BitVec 3} {ph : BitVec 16} {p : FracParams} (hr : InRange f)
    (h1 : s.w.fout = some f) (h2 : s.w.vco = some vco) (h3 : s.w.r = some r) (h4 : s.w.ph = some ph) (hp : Planned f vco n r)
    (hf : frac vco.toNat s.cfg.xtalHz.toNat = some p) :
    stepS4 s = .ok { s with
      seq := .s5a
      w := { s.w with
        pllP1 := some (narrow32 p.p1), pllP2 := some (BitVec.ofNat 20 p.p2), pllP3 := some (BitVec.ofNat 21 p.p3), pllInt := some p.int
        msP1 := some (BitVec.ofNat 32 (if decide (150000000 < f.toNat) then 128 * min ph.toNat 1
          else 128 * n.toNat - 512 + 128 * min ph.toNat 127))
        msP2 := some 0, msP3 := some 1, msInt := some true, msDiv4 := some (decide (150000000 < f.toNat)), msR := some r } } := by
  refine (bind_of_ok _ (cpllOp_ok h2 hf)).trans ?_
  obtain ⟨he, ⟨ha, rfl, rfl⟩ | ⟨ha, hb, hb', hc, hd⟩⟩ := hp
  · refine (bind_of_ok _ (cmsOp_div4 (f := f) (r := 0) (by exact h1) (by exact h3) (by simp; omega))).trans ?_
    simp only [copyR, getR, writeMs, h3, need_some, bind_ok]
    refine (bind_of_ok _ (aphoOp_ok (by rfl) (by exact h4) (by rfl))).trans ?_
    simp [narrow32_of_lt (show 0 < 4294967296 by omega), ha, appliedPhase,
      narrow32_of_lt (show 128 * min ph.toNat 1 < 4294967296 by omega)]
  · have hg : f.toNat * 2 ^ r.toNat ≤ 150000000 := by
      have := Nat.mul_le_mul_left (f.toNat * 2 ^ r.toNat) hb
      omega
    have hg0 : 0 < f.toNat * 2 ^ r.toNat := by
      have := hr.1
      positivity
    have hq := frac_exact (n := n.toNat) hg0 (by omega)
    rw [← he] at hq
    refine (bind_of_ok _ (cmsOp_frac (f := f) (r := r) (by exact h1) (by exact h3) (by exact h2) hg hq)).trans ?_
    simp only [copyR, getR, writeMs, h3, need_some, bind_ok]
    refine (bind_of_ok _ (aphoOp_ok (by rfl) (by exact h4) (by rfl))).trans ?_
    have hnd : ¬ 150000000 < f.toNat := by omega
    have e1 : (narrow32 (128 * n.toNat - 512)).toNat = 128 * n.toNat - 512 := by
      rw [narrow32_of_lt (by omega)]; simp; omega
    have e2 : 128 * n.toNat - 512 + 128 * min ph.toNat 127 < 4294967296 := by omega
    simp [e1, hnd, appliedPhase, narrow32_of_lt e2]

theorem stepS5a_ok {s : State} {c : Channel} {p1 : BitVec 32} {p2 : BitVec 20} {p3 : BitVec 21} {k : Nat} (hc : s.w.ch = some c)
    (h1 : s.w.pllP1 = some p1) (h2 : s.w.pllP2 = some p2) (h3 : s.w.pllP3 = some p3) (h : FirstWriteOk s 8 k) :
    stepS5a s = .ok { s with
      seq := .s5b, busLock := true, att := 0, xport := s.xport.drop (k + 1), draws := drawsAfter (k + 1) s
      opnd := ⟨pllBase s.cfg (pllSrc c), s.opnd.val⟩, w := { s.w with blk := some (encodePll p1 p2 p3) }
      trace := s.trace ++ writeTxns s (pllBase s.cfg (pllSrc c)) (encodePll p1 p2 p3).toList (k + 1)
      chip := s.chip.store (pllBase s.cfg (pllSrc c)).toNat (encodePll p1 p2 p3).toList } := by
  rw [stepS5a, getCh, hc, need_some, bind_ok]
  refine (bind_of_ok _ (encpOp_ok (by exact h1) (by exact h2) (by exact h3))).trans ?_
  exact bind_of_ok _ (wrbOp_ok (by rfl) (by exact h))

theorem stepS5a_fail {s : State} {c : Channel} {p1 : BitVec 32} {p2 : BitVec 20} {p3 : BitVec 21} (hc : s.w.ch = some c)
    (h1 : s.w.pllP1 = some p1) (h2 : s.w.pllP2 = some p2) (h3 : s.w.pllP3 = some p3) (h : WritesFail s 8) :
    stepS5a s = .raised .transportError { s with
      busLock := true, att := 0, xport := s.xport.drop 3, draws := drawsAfter 3 s
      opnd := ⟨pllBase s.cfg (pllSrc c), s.opnd.val⟩, w := { s.w with blk := some (encodePll p1 p2 p3) }
      trace := s.trace ++ writeTxns s (pllBase s.cfg (pllSrc c)) (encodePll p1 p2 p3).toList 3 } := by
  rw [stepS5a, getCh, hc, need_some, bind_ok]
  refine (bind_of_ok _ (encpOp_ok (by exact h1) (by exact h2) (by exact h3))).trans ?_
  exact bind_of_raised _ (wrbOp_fail (by rfl) (by exact h))

theorem stepS5b_ok {s : State} {c : Channel} {b : Block} {k : Nat} (hc : s.w.ch = some c)
    (hb : encmOp s = .ok { s with w := { s.w with blk := some b } }) (h : FirstWriteOk s 8 k) :
    stepS5b s = .ok { s with
      seq := .s6, att := 0, xport := s.xport.drop (k + 1), draws := drawsAfter (k + 1) s
      opnd := ⟨msBase c, s.opnd.val⟩, w := { s.w with blk := some b }
      trace := s.trace ++ writeTxns s (msBase c) b.toList (k + 1), chip := s.chip.store (msBase c).toNat b.toList } := by
  rw [stepS5b, getCh, hc, need_some, bind_ok]
  refine (bind_of_ok _ hb).trans ?_
  exact bind_of_ok _ (wrbOp_ok (by rfl) (by exact h))

theorem stepS5b_fail {s : State} {c : Channel} {b : Block} (hc : s.w.ch = some c)
    (hb : encmOp s = .ok { s with w := { s.w with blk := some b } }) (h : WritesFail s 8) :
    stepS5b s = .raised .transportError { s with
      att := 0, xport := s.xport.drop 3, draws := drawsAfter 3 s
      opnd := ⟨msBase c, s.opnd.val⟩, w := { s.w with blk := some b }
      trace := s.trace ++ writeTxns s (msBase c) b.toList 3 } := by
  rw [stepS5b, getCh, hc, need_some, bind_ok]
  refine (bind_of_ok _ hb).trans ?_
  exact bind_of_raised _ (wrbOp_fail (by rfl) (by exact h))

theorem stepS6_ok {s : State} {c : Channel} {int div4 inv : Bool} {k : Nat} (hc : s.w.ch = some c) (h1 : s.w.msInt = some int)
    (h2 : s.w.msDiv4 = some div4) (h3 : s.w.inv = some inv) (h : FirstWriteOk s 1 k) :
    stepS6 s = .ok { s with
      seq := if s.cfg.verifyEnable then .s6v else .s7
      att := 0, xport := s.xport.drop (k + 1), draws := drawsAfter (k + 1) s
      opnd := ⟨regClk c, ctlByte (controlIntBit int div4) (pllSrc c == .B) inv s.cfg.idrv⟩
      w := { s.w with ctl := some (ctlByte (controlIntBit int div4) (pllSrc c == .B) inv s.cfg.idrv) }
      trace := s.trace ++ writeTxns s (regClk c) [ctlByte (controlIntBit int div4) (pllSrc c == .B) inv s.cfg.idrv] (k + 1)
      chip := s.chip.write (regClk c).toNat (ctlByte (controlIntBit int div4) (pllSrc c == .B) inv s.cfg.idrv) } := by
  rw [stepS6, getCh, getMsInt, getMsDiv4, getInv, hc, h1, h2, h3, need_some, bind_ok, need_some, bind_ok, need_some, bind_ok, need_some, bind_ok]
  exact bind_of_ok _ (wr1Op_ok (by exact h))

theorem stepS6_fail {s : State} {c : Channel} {int div4 inv : Bool} (hc : s.w.ch = some c) (h1 : s.w.msInt = some int)
    (h2 : s.w.msDiv4 = some div4) (h3 : s.w.inv = some inv) (h : WritesFail s 1) :
    stepS6 s = .raised .transportError { s with
      att := 0, xport := s.xport.drop 3, draws := drawsAfter 3 s
      opnd := ⟨regClk c, ctlByte (controlIntBit int div4) (pllSrc c == .B) inv s.cfg.idrv⟩
      w := { s.w with ctl := some (ctlByte (controlIntBit int div4) (pllSrc c == .B) inv s.cfg.idrv) }
      trace := s.trace ++ writeTxns s (regClk c) [ctlByte (controlIntBit int div4) (pllSrc c == .B) inv s.cfg.idrv] 3 } := by
  rw [stepS6, getCh, getMsInt, getMsDiv4, getInv, hc, h1, h2, h3, need_some, bind_ok, need_some, bind_ok, need_some, bind_ok, need_some, bind_ok]
  exact bind_of_raised _ (wr1Op_fail (by exact h))

theorem stepS6v_ok {s : State} {c : Channel} {ctl b : Byte} {k : Nat} (hc : s.w.ch = some c) (h1 : s.w.ctl = some ctl)
    (h : FirstReadOk s (regClk c) k b) :
    stepS6v s = .ok { s with
      seq := .s7, att := 0, xport := s.xport.drop (k + 1), draws := drawsAfterReads (regClk c) k s
      opnd := ⟨regClk c, ctl⟩, vm := if b = ctl then s.vm else true, trace := s.trace ++ readTxns s (regClk c) (k + 1) } := by
  rw [stepS6v, getCh, getCtl, hc, h1, need_some, bind_ok, need_some, bind_ok]
  exact bind_of_ok _ (vfyOp_ok (by exact h))

theorem stepS6v_fail {s : State} {c : Channel} {ctl : Byte} (hc : s.w.ch = some c) (h1 : s.w.ctl = some ctl)
    (h : ReadsFail s (regClk c)) :
    stepS6v s = .raised .transportError { s with
      att := 0, xport := s.xport.drop 3, draws := drawsAfter 3 s
      opnd := ⟨regClk c, ctl⟩, trace := s.trace ++ readTxns s (regClk c) 3 } := by
  rw [stepS6v, getCh, getCtl, hc, h1, need_some, bind_ok, need_some, bind_ok]
  exact bind_of_raised _ (vfyOp_fail (by exact h))

theorem stepS7_ok {s : State} {c : Channel} {k : Nat} (hc : s.w.ch = some c) (h : FirstWriteOk s 1 k) :
    stepS7 s = .ok { s with
      seq := if s.cfg.verifyEnable then .s7v else .s8
      att := 0, xport := s.xport.drop (k + 1), draws := drawsAfter (k + 1) s
      opnd := ⟨3, oeByte s.chan c⟩, w := { s.w with oe := some (oeByte s.chan c) }
      trace := s.trace ++ writeTxns s 3 [oeByte s.chan c] (k + 1), chip := s.chip.write 3 (oeByte s.chan c) } := by
  rw [stepS7, getCh, hc, need_some, bind_ok]
  exact bind_of_ok _ (wr1Op_ok (by exact h))

theorem stepS7_fail {s : State} {c : Channel} (hc : s.w.ch = some c) (h : WritesFail s 1) :
    stepS7 s = .raised .transportError { s with
      att := 0, xport := s.xport.drop 3, draws := drawsAfter 3 s
      opnd := ⟨3, oeByte s.chan c⟩, w := { s.w with oe := some (oeByte s.chan c) }
      trace := s.trace ++ writeTxns s 3 [oeByte s.chan c] 3 } := by
  rw [stepS7, getCh, hc, need_some, bind_ok]
  exact bind_of_raised _ (wr1Op_fail (by exact h))

theorem stepS7v_ok {s : State} {oe b : Byte} {k : Nat} (h1 : s.w.oe = some oe) (h : FirstReadOk s 3 k b) :
    stepS7v s = .ok { s with
      seq := .s8, att := 0, xport := s.xport.drop (k + 1), draws := drawsAfterReads 3 k s
      opnd := ⟨3, oe⟩, vm := if b = oe then s.vm else true, trace := s.trace ++ readTxns s 3 (k + 1) } := by
  rw [stepS7v, getOe, h1, need_some, bind_ok]
  exact bind_of_ok _ (vfyOp_ok (by exact h))

theorem stepS7v_fail {s : State} {oe : Byte} (h1 : s.w.oe = some oe) (h : ReadsFail s 3) :
    stepS7v s = .raised .transportError { s with
      att := 0, xport := s.xport.drop 3, draws := drawsAfter 3 s
      opnd := ⟨3, oe⟩, trace := s.trace ++ readTxns s 3 3 } := by
  rw [stepS7v, getOe, h1, need_some, bind_ok]
  exact bind_of_raised _ (vfyOp_fail (by exact h))

theorem stepS8_ok {s : State} {c : Channel} {k : Nat} (hc : s.w.ch = some c) (h : FirstWriteOk s 1 k) :
    stepS8 s = .ok { s with
      seq := .s9, att := 0, xport := s.xport.drop (k + 1), draws := drawsAfter (k + 1) s
      opnd := ⟨177, rstByte s.cfg (pllSrc c)⟩, w := { s.w with rst := some (rstByte s.cfg (pllSrc c)) }
      trace := s.trace ++ writeTxns s 177 [rstByte s.cfg (pllSrc c)] (k + 1), chip := s.chip.write 177 (rstByte s.cfg (pllSrc c)) } := by
  rw [stepS8, getCh, hc, need_some, bind_ok]
  exact bind_of_ok _ (wr1Op_ok (by exact h))

theorem stepS8_fail {s : State} {c : Channel} (hc : s.w.ch = some c) (h : WritesFail s 1) :
    stepS8 s = .raised .transportError { s with
      att := 0, xport := s.xport.drop 3, draws := drawsAfter 3 s
      opnd := ⟨177, rstByte s.cfg (pllSrc c)⟩, w := { s.w with rst := some (rstByte s.cfg (pllSrc c)) }
      trace := s.trace ++ writeTxns s 177 [rstByte s.cfg (pllSrc c)] 3 } := by
  rw [stepS8, getCh, hc, need_some, bind_ok]
  exact bind_of_raised _ (wr1Op_fail (by exact h))

theorem stepS9_eq {s : State} {c : Channel} {f vco : Hz} {n : BitVec 11} {r : BitVec 3} (hc : s.w.ch = some c) (h1 : s.w.fout = some f)
    (h2 : s.w.vco = some vco) (h3 : s.w.n = some n) (h4 : s.w.r = some r) :
    stepS9 s = if n.toNat = 0 then .refused .divisionByZero
      else .ok (commit c f (BitVec.ofNat 32 (realized vco.toNat n.toNat r.toNat)) s) := by
  simp only [stepS9, getCh, getFout, getVco, getN, getR, need, hc, h1, h2, h3, h4, Result.bind]

/-- On a plan, the realized frequency is the request (spec/42_coordinator.md R195). -/
theorem realized_planned {f vco : Hz} {n : BitVec 11} {r : BitVec 3} (h : Planned f vco n r) :
    n.toNat ≠ 0 ∧ realized vco.toNat n.toNat r.toNat = f.toNat := by
  obtain ⟨he, hn⟩ := h
  have h0 : 0 < n.toNat := by
    rcases hn with ⟨-, rfl, -⟩ | ⟨-, h6, -⟩
    · decide
    · omega
  exact ⟨by omega, by rw [realized, he, Nat.mul_div_cancel _ h0, Nat.mul_div_cancel _ (Nat.two_pow_pos _)]⟩

/-- The bytes of step 6 as a sum (spec/10_state.md R37). -/
theorem ctlByte_eq (int src inv : Bool) (idrv : BitVec 2) :
    ctlByte int src inv idrv =
      BitVec.ofNat 8 ((if int then 64 else 0) + (if src then 32 else 0) + (if inv then 16 else 0) + 12 + idrv.toNat) := by
  revert int src inv idrv; decide

end Sys2Proof.Machine
end

