-- ==== Sys2Proof/Laws/Step.lean ====
section
/-! SUPPORT. Everything a directly called micro-operation can do, said once: what it keeps, and how it ends. -/

namespace Sys2Proof.Machine

/-- What every micro-operation keeps, whether it ends well or raises: the channel records, SEQ, the flags but VM, the parameters, the operands of
the command in progress and the bytes its read-backs compare with; and what it may write among the working registers. -/
structure UnitKeeps (s t : State) : Prop where
  chan : t.chan = s.chan
  seq : t.seq = s.seq
  busy : t.busy = s.busy
  busLock : t.busLock = s.busLock
  cfg : t.cfg = s.cfg
  cmd : t.cmd = s.cmd
  rsp : t.rsp = s.rsp
  rst : t.rst = s.rst
  uop : t.uop = s.uop
  opnd : t.opnd = s.opnd
  att : t.att = s.att ∨ t.att = 0
  memory : s.chip.wf = true → t.chip.wf = true
  ch : t.w.ch = s.w.ch
  fout : t.w.fout = s.w.fout
  inv : t.w.inv = s.w.inv
  ph : t.w.ph = s.w.ph
  ctl : t.w.ctl = s.w.ctl
  oe : t.w.oe = s.w.oe
  rstByte : t.w.rst = s.w.rst
  plan : (t.w.vco = s.w.vco ∧ t.w.n = s.w.n ∧ t.w.r = s.w.r) ∨
    ∃ f vco n r, t.w.fout = some f ∧ t.w.vco = some vco ∧ t.w.n = some n ∧ t.w.r = some r ∧ Planned f vco n r
  pll : (t.w.pllP1 = s.w.pllP1 ∧ t.w.pllP2 = s.w.pllP2 ∧ t.w.pllP3 = s.w.pllP3) ∨
    ∃ p1 p2 p3, t.w.pllP1 = some p1 ∧ t.w.pllP2 = some p2 ∧ t.w.pllP3 = some p3
  msP1 : t.w.msP1 = s.w.msP1 ∨ ∃ p1, t.w.msP1 = some p1
  ms : (t.w.msP2 = s.w.msP2 ∧ t.w.msP3 = s.w.msP3 ∧ t.w.msInt = s.w.msInt ∧ t.w.msDiv4 = s.w.msDiv4) ∨
    ∃ p2 p3 i d, t.w.msP2 = some p2 ∧ t.w.msP3 = some p3 ∧ t.w.msInt = some i ∧ t.w.msDiv4 = some d
  msR : t.w.msR = s.w.msR
  /-- Where no working register holds a value (outside a command, spec/10_state.md R24, R34), none does afterwards: each operation that writes one
  reads one first. -/
  unwritten : s.w = Work.unwritten → t.w = Work.unwritten

/-- Every update this file meets keeps what `UnitKeeps` lists, by reading it off. -/
theorem unitKeeps_refl (s : State) : UnitKeeps s s := by
  constructor <;> first | rfl | exact .inl rfl | exact .inl ⟨rfl, rfl, rfl⟩ | exact .inl ⟨rfl, rfl, rfl, rfl⟩ | exact id

/-- A working register that holds a value: not all of them hold none. -/
theorem work_written {α : Type} {w : Work} {a : α} {P : Prop} (get : Work → Option α) (h : get w = some a)
    (h0 : get Work.unwritten = none := by rfl) : w = Work.unwritten → P := by
  rintro rfl
  rw [h0] at h
  cases h

/-- The register operations change ATT, TRACE, VM, the chip's registers and what was drawn; among the working registers nothing. -/
theorem unitKeeps_bus {s t : State} (h : UnitKeeps s t) (xs : List Answer) (k : Nat) (tr : List Txn) (vm : Bool) (ret : UnitReturn)
    (m : Memory) (hm : t.chip.wf = true → m.wf = true) :
    UnitKeeps s { t with xport := xs, draws := k, att := 0, trace := tr, vm := vm, ret := ret, chip := m } :=
  { h with att := .inr rfl, memory := fun hs => hm (h.memory hs) }

/-- The same with no register changed and no ATT used. -/
theorem unitKeeps_ret {s t : State} (h : UnitKeeps s t) (ret : UnitReturn) : UnitKeeps s { t with ret := ret } :=
  { h with }

/-- How a micro-operation ends: a next state that keeps what `UnitKeeps` lists; an error, one of two kinds, taken in such a state; a read of an
unwritten working register; or FRAC outside its precondition. -/
inductive UnitEnds (s : State) (x : Host.Outcome State Fault Refusal) : Prop where
  | next (t : State) (h : x = .next t) (k : UnitKeeps s t)
  | error (e : ErrorKind) (t : State) (h : x = takeError e t) (k : UnitKeeps s t) (he : e = .noValidDivider ∨ e = .transportError)
  | fault (reg : WReg) (h : x = .fault (.unwrittenRegister reg))
  | refused (h : x = .refused .fracPrecondition)

theorem execCpll_ends (s : State) : UnitEnds s (execCpll s) := by
  rw [execCpll, finishUnit, cpllOp, getVco]
  rcases h : s.w.vco with _ | vco
  · exact .fault _ rfl
  · rw [need_some, bind_ok]
    rcases hf : frac vco.toNat s.cfg.xtalHz.toNat with _ | p
    · exact .refused rfl
    · exact .next _ rfl { unitKeeps_refl s with pll := .inr ⟨_, _, _, rfl, rfl, rfl⟩, unwritten := work_written (·.vco) h }

theorem writeMs_keeps (p : FracParams) (d : Bool) (ret : UnitReturn) {s : State} {f : Hz} (hf : s.w.fout = some f) :
    UnitKeeps s { writeMs p d s with ret := ret } :=
  { unitKeeps_refl s with unwritten := work_written (·.fout) hf, msP1 := .inr ⟨_, rfl⟩, ms := .inr ⟨_, _, _, _, rfl, rfl, rfl, rfl⟩ }

theorem execCms_ends (s : State) : UnitEnds s (execCms s) := by
  rw [execCms, finishUnit, cmsOp, getFout, getR]
  rcases h1 : s.w.fout with _ | f
  · exact .fault _ rfl
  rcases h2 : s.w.r with _ | r
  · exact .fault _ rfl
  rw [need_some, bind_ok, need_some, bind_ok]
  dsimp only
  split
  · exact .next _ rfl (writeMs_keeps _ _ _ h1)
  · rw [getVco]
    rcases h3 : s.w.vco with _ | vco
    · exact .fault _ rfl
    · rw [need_some, bind_ok]
      split
      · exact .refused rfl
      · exact .next _ rfl (writeMs_keeps _ _ _ h1)

theorem execChr_ends (s : State) : UnitEnds s (execChr s) := by
  rw [execChr, chrOp, getVco, getFout]
  rcases h1 : s.w.vco with _ | vco
  · exact .fault _ rfl
  rcases h2 : s.w.fout with _ | f
  · exact .fault _ rfl
  rw [need_some, bind_ok, need_some, bind_ok]
  split
  · split
    · exact .next _ rfl (unitKeeps_ret (unitKeeps_refl s) _)
    · exact .error _ s rfl (unitKeeps_refl s) (.inl rfl)
  · split
    · exact .next _ rfl (unitKeeps_ret (unitKeeps_refl s) _)
    · exact .error _ s rfl (unitKeeps_refl s) (.inl rfl)

theorem execSvco_ends (s : State) : UnitEnds s (execSvco s) := by
  rw [execSvco, finishUnit, svcoOp, getFout]
  rcases h1 : s.w.fout with _ | f
  · exact .fault _ rfl
  rw [need_some, bind_ok]
  rcases hs : searchVco f.toNat with _ | ⟨v, n, r⟩
  · exact .error _ s rfl (unitKeeps_refl s) (.inl rfl)
  · refine .next _ rfl { unitKeeps_refl s with unwritten := work_written (·.fout) h1, plan := .inr ⟨f, _, _, _, h1, rfl, rfl, rfl, planned_search ?_ hs⟩ }
    obtain ⟨-, ⟨h6, -, -, -, hhi⟩, -, -⟩ := searchVco_some hs
    have h7 : f.toNat * 1 ≤ f.toNat * 2 ^ r := Nat.mul_le_mul_left _ Nat.one_le_two_pow
    have := Nat.mul_le_mul_left (f.toNat * 2 ^ r) h6
    omega

theorem execApho_ends (s : State) : UnitEnds s (execApho s) := by
  rw [execApho, finishUnit, aphoOp, getMsP1, getPh, getMsDiv4]
  rcases h1 : s.w.msP1 with _ | p1
  · exact .fault _ rfl
  rcases h2 : s.w.ph with _ | ph
  · exact .fault _ rfl
  rcases h3 : s.w.msDiv4 with _ | d
  · exact .fault _ rfl
  exact .next _ rfl { unitKeeps_refl s with msP1 := .inr ⟨_, rfl⟩, unwritten := work_written (·.ph) h2 }

theorem execEncp_ends (s : State) : UnitEnds s (execEncp s) := by
  rw [execEncp, finishUnit, encpOp, getPllP1, getPllP2, getPllP3]
  rcases h1 : s.w.pllP1 with _ | p1
  · exact .fault _ rfl
  rcases h2 : s.w.pllP2 with _ | p2
  · exact .fault _ rfl
  rcases h3 : s.w.pllP3 with _ | p3
  · exact .fault _ rfl
  exact .next _ rfl { unitKeeps_refl s with unwritten := work_written (·.pllP1) h1 }

theorem execEncm_ends (s : State) : UnitEnds s (execEncm s) := by
  rw [execEncm, finishUnit, encmOp, getMsDiv4]
  rcases h0 : s.w.msDiv4 with _ | d
  · exact .fault _ rfl
  rw [need_some, bind_ok]
  cases d
  · rw [if_neg (by simp), getMsP1, getMsP2, getMsP3, getMsR]
    rcases h1 : s.w.msP1 with _ | p1
    · exact .fault _ rfl
    rcases h2 : s.w.msP2 with _ | p2
    · exact .fault _ rfl
    rcases h3 : s.w.msP3 with _ | p3
    · exact .fault _ rfl
    rcases h4 : s.w.msR with _ | r
    · exact .fault _ rfl
    exact .next _ rfl { unitKeeps_refl s with unwritten := work_written (·.msDiv4) h0 }
  · rw [if_pos rfl]
    exact .next _ rfl { unitKeeps_refl s with unwritten := work_written (·.msDiv4) h0 }

theorem execDecb_ends (s : State) : UnitEnds s (execDecb s) := by
  rw [execDecb, getBlk]
  rcases h : s.w.blk with _ | b
  · exact .fault _ rfl
  · exact .next _ rfl (unitKeeps_ret (unitKeeps_refl s) _)

theorem execWrb_ends (s : State) : UnitEnds s (execWrb s) := by
  rw [execWrb, finishUnit]
  rcases hb : s.w.blk with _ | b
  · rw [wrbOp, getBlk, hb]; exact .fault _ rfl
  rcases write_outcome s 8 with ⟨k, h⟩ | h
  · rw [wrbOp_ok hb h]
    exact .next _ rfl (unitKeeps_bus (unitKeeps_refl s) _ _ _ _ _ _ (store_wf _ _))
  · rw [wrbOp_fail hb h]
    exact .error _ _ rfl (unitKeeps_bus (unitKeeps_refl s) _ _ _ s.vm s.ret s.chip id) (.inr rfl)

theorem execWr1_ends (s : State) : UnitEnds s (execWr1 s) := by
  rw [execWr1, finishUnit]
  rcases write_outcome s 1 with ⟨k, h⟩ | h
  · rw [wr1Op_ok h]
    exact .next _ rfl (unitKeeps_bus (unitKeeps_refl s) _ _ _ _ _ _ (write_wf _ s.opnd.addr.isLt))
  · rw [wr1Op_fail h]
    exact .error _ _ rfl (unitKeeps_bus (unitKeeps_refl s) _ _ _ s.vm s.ret s.chip id) (.inr rfl)

theorem execVfy_ends (s : State) : UnitEnds s (execVfy s) := by
  rw [execVfy, finishUnit]
  rcases read_outcome s s.opnd.addr with ⟨k, b, h⟩ | h
  · rw [vfyOp_ok h]
    exact .next _ rfl (unitKeeps_bus (unitKeeps_refl s) _ _ _ _ _ s.chip id)
  · rw [vfyOp_fail h]
    exact .error _ _ rfl (unitKeeps_bus (unitKeeps_refl s) _ _ _ s.vm s.ret s.chip id) (.inr rfl)

/-- Everything the micro-operation of a select code can do (spec/30_encoding.md R90). -/
theorem uop_ends {c : BitVec 4} {i : Instr} (h : decodeUop c = .ok i) (s : State) : UnitEnds s (exec i s) := by
  rw [decodeUop] at h
  split at h <;> cases h
  · exact execCpll_ends s
  · exact execCms_ends s
  · exact execChr_ends s
  · exact execSvco_ends s
  · exact execApho_ends s
  · exact execEncp_ends s
  · exact execEncm_ends s
  · exact execDecb_ends s
  · exact execWrb_ends s
  · exact execWr1_ends s
  · exact execVfy_ends s

/-- Everything a step can be: a reset, a directly called micro-operation, a step of the sequencer, the command port. -/
theorem step_cases (s : State) :
    (s.rst ≠ .low ∧ step s = .next (applyReset s)) ∨
    (∃ c, s.rst = .low ∧ s.uop = some c ∧ step s = uopStep c s) ∨
    (Quiet s ∧ s.seq ≠ .idle ∧ step s = finish (seqStep s)) ∨
    (Quiet s ∧ s.seq = .idle ∧ step s = portStep s) := by
  by_cases h1 : s.rst = .low
  · right
    rcases h2 : s.uop with _ | c
    · right
      by_cases h3 : s.seq = .idle
      · exact .inr ⟨⟨h1, h2⟩, h3, step_of_idle ⟨h1, h2⟩ h3⟩
      · exact .inl ⟨⟨h1, h2⟩, h3, step_of_quiet ⟨h1, h2⟩ h3⟩
    · exact .inl ⟨c, h1, rfl, by rw [step, if_neg (by simp [h1]), h2]⟩
  · exact .inl ⟨h1, by rw [step, if_pos h1]⟩

/-- Everything the command port can do at an idle block: nothing; a response, `status` Ok or IllegalCommand; or the acceptance of a SETF. -/
theorem portStep_cases {s : State} (hb : s.busy = false) :
    (s.cmd = [] ∧ portStep s = .next s) ∨
    ∃ w rest, s.cmd = w :: rest ∧
      ((∃ st hz, portStep s = .next (respond st (fieldCh w) false hz { s with cmd := rest })) ∨
       (∃ c inv ph hz, portStep s = .next (acceptSetf c inv ph hz { s with cmd := rest }))) := by
  rcases hc : s.cmd with _ | ⟨w, rest⟩
  · exact .inl ⟨rfl, by rw [portStep, hc]⟩
  · refine .inr ⟨w, rest, rfl, ?_⟩
    rw [portStep, hc]
    dsimp only
    rcases decodeCmd_cases w with ⟨r, h⟩ | ⟨h3, h⟩
    · rw [h]; exact .inl ⟨15, 0, by simp only [hb]; rfl⟩
    · obtain ⟨c, hcc⟩ : ∃ c, chOfBits (fieldCh w) = some c := by
        rcases he : chOfBits (fieldCh w) with _ | c
        · exact absurd (chOfBits_eq_none.mp he) h3
        · exact ⟨c, rfl⟩
      rcases h with ⟨inv, ph, hz, h⟩ | h | h <;> rw [h]
      · exact .inr ⟨c, inv, ph, hz, by simp only [exec, execSetf, hb, hcc]; rfl⟩
      · exact .inl ⟨_, _, by simp only [exec, execGetr, hb, hcc]; rfl⟩
      · exact .inl ⟨_, _, by simp only [exec, execGetq, hb, hcc]; rfl⟩

/-! ### Runs -/

theorem run_zero (s : State) : run 0 s = .next s := rfl

/-- A run goes on after a next state. -/
theorem run_succ_next {s t : State} (k : Nat) (h : step s = .next t) : run (k + 1) s = run k t := by
  have gen : ∀ (M : Host.Core) (a b : M.State), M.step a = .next b → M.run (k + 1) a = M.run k b :=
    fun M a b h => by simp only [Host.Core.run, h]
  exact gen Sys2Proof.core s t h

/-- A run stops at a fault. -/
theorem run_succ_fault {s : State} {q : Fault} (k : Nat) (h : step s = .fault q) : run (k + 1) s = .fault q := by
  have gen : ∀ (M : Host.Core) (a : M.State) (q : M.Fault), M.step a = .fault q → M.run (k + 1) a = .fault q :=
    fun M a q h => by simp only [Host.Core.run, h]
  exact gen Sys2Proof.core s q h

/-- A run stops at a refusal. -/
theorem run_succ_refused {s : State} {q : Refusal} (k : Nat) (h : step s = .refused q) : run (k + 1) s = .refused q := by
  have gen : ∀ (M : Host.Core) (a : M.State) (q : M.Refusal), M.step a = .refused q → M.run (k + 1) a = .refused q :=
    fun M a q h => by simp only [Host.Core.run, h]
  exact gen Sys2Proof.core s q h

/-- A property that every step keeps, every run keeps. -/
theorem run_keeps {P : State → Prop} (h : ∀ a b, P a → step a = .next b → P b) (k : Nat) {s t : State} (hs : P s)
    (ht : run k s = .next t) : P t := by
  induction k generalizing s with
  | zero => cases ht; exact hs
  | succ k ih =>
    rcases hst : step s with u | q | q
    · rw [run_succ_next k hst] at ht
      exact ih (h s u hs hst) ht
    · rw [run_succ_fault k hst] at ht; cases ht
    · rw [run_succ_refused k hst] at ht; cases ht

end Sys2Proof.Machine
end

