-- ==== Sys2Proof/Tests/Slice0.lean ====
section
/-! SUPPORT. Tests: the checks of WellFormed, decoding of words written out from the spec's encodings, one step of each instruction on values
of spec/95_test_vectors.md, and for every statement with hypotheses a state and operands that meet them. -/

namespace Sys2Proof.Tests

open Sys2Proof.Machine

/-! ### Helpers -/

/-- The outcome is a next state with property `p`. -/
def nextWith (x : Host.Outcome State Fault Refusal) (p : State → Bool) : Bool :=
  match x with
  | .next t => p t
  | .fault _ => false
  | .refused _ => false

/-- The state after reset with other working registers. -/
def withWork (w : Work) : State := { State.reset with w := w }

/-- The state after reset with a parameter `XTAL_HZ` and a value in `W.vco`. -/
def withCrystal (xtal vco : Hz) : State :=
  { State.reset with cfg := { Params.default with xtalHz := xtal }, w := { Work.unwritten with vco := some vco } }

/-- The state after reset with operands latched for WRB, WR1, VFY, a block in `W.blk`, and the Transport's next answers. -/
def onBus (addr : RegAddr) (val : Byte) (b : Block) (answers : List Answer) : State :=
  { State.reset with opnd := ⟨addr, val⟩, w := { Work.unwritten with blk := some b }, xport := answers }

/-- An answer `fail` to a write or a read. -/
def failed : Answer := .reply none none

/-- A block of the bytes of `SVCO(10,000,000)`'s PLL (spec/95_test_vectors.md 2.4). -/
def blkA : Block := ⟨0x00, 0x01, 0x00, 0x0A, 0x00, 0x00, 0x00, 0x00⟩

/-- The working registers of `SETF 0, 10_000_000` after step 4 (spec/95_test_vectors.md P1), with the bytes of steps 6 and 7. -/
def workP1 (c : Channel) : Work :=
  { Work.unwritten with
    ch := some c, fout := some 10000000, inv := some false, ph := some 0, vco := some 600000000, n := some 60, r := some 0
    pllP1 := some 2560, pllP2 := some 0, pllP3 := some 1, pllInt := some true
    msP1 := some 7168, msP2 := some 0, msP3 := some 1, msInt := some true, msDiv4 := some false, msR := some 0
    ctl := some 0x6F, oe := some 0xFE }

/-- A SETF on channel `c` in progress, about to run step `q`. -/
def midway (c : Channel) (q : Seq) (answers : List Answer) : State :=
  { State.reset with
    seq := q, busy := busyAt q, busLock := busLockAt q, w := workP1 c, xport := answers
    chan := if 4 ≤ q.rank then State.reset.chan.set c ⟨0, 0, .configuring⟩ else State.reset.chan }

/-- The state after reset with words at the port and answers of the Transport. -/
def waiting (words : List (BitVec 64)) (answers : List Answer) : State := { State.reset with cmd := words, xport := answers }

/-- Answers `ok` to the five writes of a SETF (spec/42_coordinator.md R186). -/
def callAnswers : List Answer := [9, 9, 2, 2, 2].map fun n => .reply (some n) none

/-- Answers `ok` to the five writes of a SETF and, with a byte `b`, to its two read-backs. -/
def verifiedAnswers (b : Byte) : List Answer := [9, 9, 2, 2, 2, 2, 2].map fun n => .reply (some n) (some b)

/-- The three channels configured at the given frequencies. -/
def configured (f0 f1 f2 : Hz) : Channels := ⟨⟨f0, f0, .active⟩, ⟨f1, f1, .active⟩, ⟨f2, f2, .active⟩⟩

/-! ### WellFormed: each check refuses an ill-formed term -/

theorem test_wf_setf_channel_three : (Instr.setf 3 false 0 10000000).wellFormed = false := by decide
theorem test_wf_getr_channel_three : (Instr.getr 3).wellFormed = false := by decide
theorem test_wf_getq_channel_three : (Instr.getq 3).wellFormed = false := by decide
theorem test_wf_channel_two : (Instr.setf 2 true 65535 0xFFFFFFFF).wellFormed = true := by decide

/-! ### Decoding: words written out bit by bit from spec/30_encoding.md R82 and R90 -/

/-- op 0001, ch 10, inv 0, rsv 0, ph 150, hz 1,000,000 (R104). -/
theorem test_decode_setf :
    decode (.cmd 0b0001100000000000000000001001011000000000000011110100001001000000) = .ok (.setf 2 false 150 1000000) := by decide
/-- op 0001, ch 00, inv 1, rsv 0, ph all ones, hz all ones. -/
theorem test_decode_setf_inv :
    decode (.cmd 0b0001001000000000111111111111111111111111111111111111111111111111) = .ok (.setf 0 true 0xFFFF 0xFFFFFFFF) := by decide
/-- op 0010, ch 01, the rest 0. -/
theorem test_decode_getr :
    decode (.cmd 0b0010010000000000000000000000000000000000000000000000000000000000) = .ok (.getr 1) := by decide
/-- op 0011, ch 10, the rest 0. -/
theorem test_decode_getq :
    decode (.cmd 0b0011100000000000000000000000000000000000000000000000000000000000) = .ok (.getq 2) := by decide
theorem test_decode_cpll : decode (.uop 0b0000) = .ok .cpll := by decide
theorem test_decode_cms : decode (.uop 0b0001) = .ok .cms := by decide
theorem test_decode_chr : decode (.uop 0b0010) = .ok .chr := by decide
theorem test_decode_svco : decode (.uop 0b0011) = .ok .svco := by decide
theorem test_decode_apho : decode (.uop 0b0100) = .ok .apho := by decide
theorem test_decode_encp : decode (.uop 0b0101) = .ok .encp := by decide
theorem test_decode_encm : decode (.uop 0b0110) = .ok .encm := by decide
theorem test_decode_decb : decode (.uop 0b0111) = .ok .decb := by decide
theorem test_decode_wrb : decode (.uop 0b1000) = .ok .wrb := by decide
theorem test_decode_wr1 : decode (.uop 0b1001) = .ok .wr1 := by decide
theorem test_decode_vfy : decode (.uop 0b1010) = .ok .vfy := by decide
/-- The illegal words of spec/95_test_vectors.md 2.8, and select code 11. -/
theorem test_decode_rejects :
    decode (.cmd 0x1C00000000989680) = .error .illegalChannel ∧ decode (.cmd 0x0000000000989680) = .error .unusedOpcode ∧
    decode (.cmd 0x1001000000989680) = .error .mustBeZero ∧ decode (.cmd 0x2000000000000001) = .error .mustBeZero ∧
    decode (.cmd 0x4000000000000000) = .error .unusedOpcode ∧ decode (.uop 0b1011) = .error .unusedSelectCode := by decide
theorem test_decode_table_word :
    decodeTableWord 64 0x1000000000000000 = some (.setf 0 false 0 0) ∧ decodeTableWord 8 0xA = some .vfy ∧ decodeTableWord 8 0xB = none := by
  decide
/-- Assembly and SETQ (spec/95_test_vectors.md 2.10). -/
theorem test_assembly :
    encode (asmSetf 0 10000000) = .cmd 0x1000000000989680 ∧ encode (asmSetf 0 160000000 true 5) = .cmd 0x1200000509896800 ∧
    expandSetq 2 10000000 = some (.setf 2 false 15 10000000) ∧ expandSetq 2 1174168 = some (.setf 2 false 128 1174168) := by decide

/-! ### One step of each instruction -/

theorem test_step_setf :
    nextWith (step (State.reset.withFetchWord 64 0x12000005098968FF)) (fun t =>
      t.seq == .s1 && t.busy && t.w.fout == some 0x098968FF && t.w.inv == some true && t.w.ph == some 5 && t.w.ch == some .ch0) = true := by
  decide
theorem test_step_illegal :
    nextWith (step (State.reset.withFetchWord 64 0x1C00000000989680)) (fun t => t.rsp == [0xFC00000000000000] && t.seq == .idle) = true := by
  decide
theorem test_step_getr :
    nextWith (step (State.reset.withFetchWord 64 0x2400000000000000)) (fun t => t.rsp == [0x0400000000000000]) = true := by decide
theorem test_step_getq :
    nextWith (exec (.getq 2) { State.reset with chan := configured 0 0 1000000 }) (fun t => t.rsp == [0x08000000000F4240]) = true := by
  decide
theorem test_cpll_fractional :
    nextWith (exec .cpll (withCrystal 25000000 640000000)) (fun t =>
      t.w.pllP1 == some 2764 && t.w.pllP2 == some 838784 && t.w.pllP3 == some 1048576 && t.w.pllInt == some false) = true := by decide
theorem test_cpll_b_zero :
    nextWith (exec .cpll (withCrystal 25000000 600000001)) (fun t =>
      t.w.pllP1 == some 2560 && t.w.pllP2 == some 0 && t.w.pllP3 == some 1048576 && t.w.pllInt == some false) = true := by decide
theorem test_cms_fractional :
    nextWith (exec .cms (withWork { Work.unwritten with fout := some 3000000, r := some 0, vco := some 700000000 })) (fun t =>
      t.w.msP1 == some 29354 && t.w.msP2 == some 699008 && t.w.msDiv4 == some false) = true := by decide
theorem test_cms_divide_by_four :
    nextWith (exec .cms (withWork { Work.unwritten with fout := some 150000001, r := some 0 })) (fun t =>
      t.w.msP1 == some 0 && t.w.msP3 == some 1 && t.w.msInt == some true && t.w.msDiv4 == some true) = true := by decide
theorem test_chr_just_above :
    nextWith (exec .chr (withWork { Work.unwritten with vco := some 819200001, fout := some 400000 })) (fun t => t.ret == .rDivExp 1) = true := by
  decide
theorem test_chr_raises :
    nextWith (exec .chr (withWork { Work.unwritten with vco := some 600000000, fout := some 80000000 })) (fun t =>
      t.ret == .raised .noValidDivider) = true := by decide
theorem test_svco_lowest :
    nextWith (exec .svco (withWork { Work.unwritten with fout := some 8000 })) (fun t =>
      t.w.vco == some 600064000 && t.w.n == some 1172 && t.w.r == some 6) = true := by decide
theorem test_svco_raises :
    nextWith (exec .svco (withWork { Work.unwritten with fout := some 150000001 })) (fun t => t.ret == .raised .noValidDivider) = true := by
  decide
theorem test_apho_clamp :
    nextWith (exec .apho (withWork { Work.unwritten with msP1 := some 76288, ph := some 150, msDiv4 := some false })) (fun t =>
      t.w.msP1 == some 92544) = true := by decide
theorem test_apho_divide_by_four :
    nextWith (exec .apho (withWork { Work.unwritten with msP1 := some 0, ph := some 5, msDiv4 := some true })) (fun t =>
      t.w.msP1 == some 128) = true := by decide
/-- The source's reference vector (E1). -/
theorem test_encp_reference :
    nextWith (exec .encp (withWork { Work.unwritten with pllP1 := some 0x12345, pllP2 := some 0x0ABCD, pllP3 := some 0x100000 })) (fun t =>
      t.w.blk == some ⟨0x00, 0x00, 0x01, 0x23, 0x45, 0x00, 0xAB, 0xCD⟩) = true := by decide
theorem test_encp_full :
    nextWith (exec .encp (withWork { Work.unwritten with pllP1 := some 0x3FFFF, pllP2 := some 0xFFFFF, pllP3 := some 0xFFFFF })) (fun t =>
      t.w.blk == some ⟨0xFF, 0xFF, 0x03, 0xFF, 0xFF, 0xFF, 0xFF, 0xFF⟩) = true := by decide
theorem test_encm_normal :
    nextWith (exec .encm (withWork { Work.unwritten with
      msP1 := some 149504, msP2 := some 0, msP3 := some 1, msR := some 6, msDiv4 := some false })) (fun t =>
      t.w.blk == some ⟨0x00, 0x01, 0x62, 0x48, 0x00, 0x00, 0x00, 0x00⟩) = true := by decide
theorem test_encm_divide_by_four :
    nextWith (exec .encm (withWork { Work.unwritten with msDiv4 := some true })) (fun t =>
      t.w.blk == some ⟨0x00, 0x01, 0x0C, 0x00, 0x00, 0x00, 0x00, 0x00⟩) = true := by decide
theorem test_decb_reference :
    nextWith (exec .decb (withWork { Work.unwritten with blk := some ⟨0x00, 0x00, 0x01, 0x23, 0x45, 0x00, 0xAB, 0xCD⟩ })) (fun t =>
      t.ret == .decoded ⟨0x00000, 0x12345, 0x0ABCD, 0, 0⟩) = true := by decide
theorem test_decb_full :
    nextWith (exec .decb (withWork { Work.unwritten with blk := some ⟨0xFF, 0xFF, 0xFF, 0xFF, 0xFF, 0xFF, 0xFF, 0xFF⟩ })) (fun t =>
      t.ret == .decoded ⟨0xFFFFF, 0x3FFFF, 0xFFFFF, 7, 3⟩) = true := by decide
/-- A short count, then success (spec/95_test_vectors.md 2.7). -/
theorem test_wrb_short_count :
    nextWith (exec .wrb (onBus 26 0 blkA [.reply (some 8) none, .reply (some 9) none])) (fun t =>
      t.trace.map Txn.ok == [false, true] && t.trace.map Txn.frame == List.replicate 2 (26 :: blkA.toList) &&
      t.chip.read 27 == some 0x01 && t.chip.read 34 == none) = true := by decide
theorem test_wrb_raises :
    nextWith (exec .wrb (onBus 26 0 blkA [failed, failed, failed, .device])) (fun t =>
      t.trace.length == 3 && t.chip == [] && t.ret == .raised .transportError && t.xport == [.device]) = true := by decide
theorem test_wr1 :
    nextWith (exec .wr1 (onBus 177 0x20 blkA [.device])) (fun t =>
      t.trace == [⟨0x60, 177, .write [0x20], .bytesWritten 2⟩] && t.chip.read 177 == some 0x20) = true := by decide
theorem test_vfy_mismatch :
    nextWith (exec .vfy (onBus 16 0x6F blkA [.reply none (some 0x4F)])) (fun t => t.vm && t.trace.length == 1 && t.chip == []) = true := by
  decide
theorem test_vfy_retry_match :
    nextWith (exec .vfy (onBus 16 0x6F blkA [failed, .reply none (some 0x6F)])) (fun t => !t.vm && t.trace.length == 2) = true := by decide
/-- The control bytes of spec/95_test_vectors.md 2.9: channel 0 and channel 1, inverted or not, both paths. -/
theorem test_control_bytes :
    ctlByte (controlIntBit true false) true false 3 = 0x6F ∧ ctlByte (controlIntBit true true) true true 3 = 0x3F ∧
    ctlByte (controlIntBit true false) false true 3 = 0x5F ∧ ctlByte (controlIntBit true true) false false 3 = 0x0F := by decide
/-- The output-enable bytes of spec/95_test_vectors.md 2.9. -/
theorem test_output_enable_bytes :
    oeByte State.reset.chan .ch0 = 0xFE ∧ oeByte State.reset.chan .ch2 = 0xFB ∧ oeByte (configured 0 1000000 0) .ch2 = 0xF9 ∧
    oeByte (configured 1 1 1) .ch1 = 0xF8 := by decide
/-- P1, step 6: T3 (spec/95_test_vectors.md). -/
theorem test_step_six :
    nextWith (step (midway .ch0 .s6 [.device])) (fun t => t.trace.map Txn.frame == [[0x10, 0x6F]] && t.seq == .s7) = true := by decide
/-- P1, step 9: the response (spec/95_test_vectors.md). -/
theorem test_step_nine :
    nextWith (step (midway .ch0 .s9 [])) (fun t =>
      t.rsp == [0x0000000000989680] && t.chan == ⟨⟨10000000, 10000000, .active⟩, ChannelRecord.reset, ChannelRecord.reset⟩) = true := by decide

/-! ### Witnesses: for each statement with hypotheses, states and operands that meet them, at the boundaries of its clauses -/

/-- A waiting block is good, whatever stands at its ports. -/
theorem waiting_good (words : List (BitVec 64)) (answers : List Answer) : Inv (waiting words answers) := by
  refine ⟨rfl, rfl, rfl, rfl, (by unfold XtalLegal; decide : XtalLegal Params.default), ?_, ?_, .inl rfl, ?_, ?_, ?_⟩
  · intro c; cases c <;> rfl
  · intro c; cases c <;> exact .inl rfl
  · intro c e; cases c <;> exact fun h => nomatch h
  · intro c; cases c <;> exact fun h => nomatch h
  · constructor <;> intro h <;> first | rfl | exact absurd h (by decide) | exact nomatch h

/-- `W.fout`, `W.vco`, `W.n`, `W.r` of `workP1` are what step 3 leaves. -/
theorem planned_p1 : Planned 10000000 600000000 60 0 := by unfold Planned; decide

/-- A SETF in progress is good at every step. -/
theorem midway_good (c : Channel) (q : Seq) (answers : List Answer) (h : q ≠ .idle) : Inv (midway c q answers) := by
  refine ⟨rfl, rfl, rfl, rfl, (by unfold XtalLegal; decide : XtalLegal Params.default), ?_, ?_, ?_, ?_, ?_, ?_⟩
  · intro d; cases q <;> cases c <;> cases d <;> rfl
  · intro d; cases q <;> cases c <;> cases d <;> exact .inl rfl
  · left; cases q <;> cases c <;> rfl
  · intro d e; cases q <;> cases c <;> cases d <;> exact fun h => nomatch h
  · intro d; cases q <;> cases c <;> cases d <;> first | exact fun _ => ⟨Nat.le_of_ble_eq_true rfl, rfl⟩ | exact fun h => nomatch h
  · constructor
    · exact fun e => absurd e h
    · exact fun _ => ⟨_, _, _, _, rfl, rfl, rfl, rfl⟩
    · intro _ f hf; cases hf; unfold InRange; decide
    · intro _ d f hd hf; cases hd; cases hf; cases q <;> cases c <;> rfl
    · exact fun _ => ⟨_, _, _, _, rfl, rfl, rfl, rfl, planned_p1⟩
    · exact fun _ => ⟨_, _, _, rfl, rfl, rfl⟩
    · exact fun _ => ⟨_, _, _, _, _, _, rfl, rfl, rfl, rfl, rfl, rfl⟩
    · exact fun _ => ⟨_, rfl⟩
    · exact fun _ => ⟨_, rfl⟩

theorem test_witness_DecodeOfEncodeIsTheInstruction :
    (Instr.setf 2 true 0xFFFF 0xFFFFFFFF).wellFormed = true ∧ (Instr.getr 0).wellFormed = true ∧ Instr.vfy.wellFormed = true := by decide
theorem test_witness_EncodeOfDecodedCodeIsTheCode :
    decode (.cmd 0x12000005FFFFFFFF) = .ok (.setf 0 true 5 0xFFFFFFFF) ∧ decode (.uop 10) = .ok .vfy := by decide
/-- One word for each way of being illegal; `op` 0 and 4, `rsv` 1, GETQ with `inv`, GETR with the top bit of `ph`. -/
theorem test_witness_IllegalCommandIsAnsweredAndChangesNothing :
    Ready (waiting [0x0] []) ∧ (waiting [0x0] []).cmd = [0x0] ∧
    (0x4000000000000000 / 2 ^ 60 = 4) ∧ (0x1C00000000000000 / 2 ^ 58 % 4 = 3) ∧ (0x1001000000000000 / 2 ^ 48 % 2 ^ 9 = 1) ∧
    (0x3200000000000000 / 2 ^ 57 % 2 = 1) ∧ (0x2000800000000000 % 2 ^ 48 ≠ 0) := by
  refine ⟨⟨⟨rfl, rfl⟩, rfl, rfl⟩, rfl, ?_⟩; decide
theorem test_witness_PresentedCommandRuns :
    Quiet (waiting [0x2400000000000000] []) ∧ (waiting [0x2400000000000000] []).seq = .idle ∧
    decode (.cmd 0x2400000000000000) = .ok (.getr 1) := ⟨⟨rfl, rfl⟩, rfl, by decide⟩
/-- Select codes 10 and 11, on either side of the boundary. -/
theorem test_witness_CalledMicroOperationRuns :
    ({ State.reset with uop := some 10 } : State).rst = .low ∧ decode (.uop 10) = .ok .vfy ∧ 11 ≤ (11 : BitVec 4).toNat := by decide
theorem test_witness_PlacedWordRunsNext :
    decodeTableWord 64 0x2400000000000000 = some (.getr 1) ∧ decodeTableWord 8 0x9 = some .wr1 := by decide
theorem test_witness_IdleBlockWaits : Quiet State.reset ∧ State.reset.seq = .idle ∧ State.reset.cmd = [] := ⟨⟨rfl, rfl⟩, rfl, rfl⟩
/-- Reset during step 5 of channel 2 (registers 58 to 65), and of channel 0 with `PLLB_BASE` 250, whose block wraps to register 1. -/
theorem test_witness_ResetAbandonsTheCommand :
    nextWith (step { midway .ch2 .s5b [] with rst := .highInFlight, chip := [(57, 1), (58, 2), (65, 3), (66, 4)] })
      (fun t => t.chip == [(57, 1), (66, 4)] && t.seq == .idle) = true ∧
    nextWith (step { midway .ch0 .s5a [] with
      rst := .highInFlight, cfg := { Params.default with pllbBase := 250 }, chip := [(1, 1), (2, 2), (249, 3), (250, 4), (255, 5)] })
      (fun t => t.chip == [(2, 2), (249, 3)]) = true ∧
    nextWith (step { midway .ch1 .s6 [] with rst := .highInFlight, chip := [(16, 1), (17, 2), (18, 3)] })
      (fun t => t.chip == [(16, 1), (18, 3)]) = true ∧
    nextWith (step { midway .ch1 .s7v [] with rst := .highInFlight, chip := [(3, 1), (177, 2)] }) (fun t => t.chip == [(177, 2)]) = true ∧
    nextWith (step { midway .ch1 .s8 [] with rst := .highInFlight, chip := [(3, 1), (177, 2)] }) (fun t => t.chip == [(3, 1)]) = true ∧
    nextWith (step { midway .ch1 .s8 [] with rst := .high, chip := [(3, 1), (177, 2)] }) (fun t => t.chip == [(3, 1), (177, 2)]) = true := by
  decide
theorem test_witness_SetfIsAccepted : State.reset.busy = false ∧ BitVec.ofNat 2 (chNum .ch2) = 2 := by decide
theorem test_witness_GetrAnswersRealizedFrequency : State.reset.busy = false ∧ BitVec.ofNat 2 (chNum .ch0) = 0 := by decide
theorem test_witness_GetqAnswersRequestedFrequency : State.reset.busy = false ∧ BitVec.ofNat 2 (chNum .ch1) = 1 := by decide
theorem test_witness_ChannelThreeIsIllegal : State.reset.busy = false ∧ Instr.getr 3 ≠ Instr.getr 2 := by decide
theorem test_witness_BusyBlockAcceptsNoCommand :
    (midway .ch0 .s1 []).busy = true ∧ Quiet (midway .ch0 .s1 []) ∧ (midway .ch0 .s1 []).seq ≠ .idle ∧
    nextWith (step { midway .ch0 .s1 [] with cmd := [0x2400000000000000] }) (fun t => t.cmd == [0x2400000000000000]) = true :=
  ⟨rfl, ⟨rfl, rfl⟩, by decide, by decide⟩
/-- `XTAL_HZ` at its highest: the ratio is exactly 4. -/
theorem test_witness_CpllWritesPllParameters :
    (withCrystal 150000000 600000000).w.vco = some 600000000 ∧ 0 < (withCrystal 150000000 600000000).cfg.xtalHz.toNat ∧
    4 ≤ (600000000 : Hz).toNat / (withCrystal 150000000 600000000).cfg.xtalHz.toNat := by decide
theorem test_witness_CmsTakesDivideByFourAbove150MHz : 150000000 < (150000001 : Hz).toNat * 2 ^ (0 : BitVec 3).toNat := by decide
/-- Exactly 150 MHz, and the ratio exactly 4. -/
theorem test_witness_CmsWritesFractionalParameters :
    (150000000 : Hz).toNat * 2 ^ (0 : BitVec 3).toNat ≤ 150000000 ∧ 0 < (150000000 : Hz).toNat ∧
    4 ≤ (600000000 : Hz).toNat / ((150000000 : Hz).toNat * 2 ^ (0 : BitVec 3).toNat) := by decide
theorem test_witness_FracPreconditionIsChecked :
    (withCrystal 0 600000000).cfg.xtalHz.toNat = 0 ∧ (599999999 : Hz).toNat / (withCrystal 150000000 599999999).cfg.xtalHz.toNat < 4 ∧
    (0 : Hz).toNat * 2 ^ (7 : BitVec 3).toNat ≤ 150000000 ∧
    (599999999 : Hz).toNat / ((150000000 : Hz).toNat * 2 ^ (0 : BitVec 3).toNat) < 4 := by decide
/-- CHR at its last exponent, and just above the edge of exponent 0. -/
theorem test_witness_ChrReturnsLeastFittingExponent :
    (8 * (2289 * 2 ^ 7) ≤ 600000000 ∧ 600000000 ≤ 2048 * (2289 * 2 ^ 7)) ∧
    (∀ q, q < 7 → ¬ (8 * (2289 * 2 ^ q) ≤ 600000000 ∧ 600000000 ≤ 2048 * (2289 * 2 ^ q))) ∧
    (8 * (400000 * 2 ^ 1) ≤ 819200001 ∧ 819200001 ≤ 2048 * (400000 * 2 ^ 1)) ∧
    (∀ q, q < 1 → ¬ (8 * (400000 * 2 ^ q) ≤ 819200001 ∧ 819200001 ≤ 2048 * (400000 * 2 ^ q))) := by decide
theorem test_witness_ChrRaisesWhereNoExponentFits :
    (∀ r, r < 8 → ¬ (8 * (2288 * 2 ^ r) ≤ 600000000 ∧ 600000000 ≤ 2048 * (2288 * 2 ^ r))) ∧
    (∀ r, r < 8 → ¬ (8 * (100000001 * 2 ^ r) ≤ 800000000 ∧ 800000000 ≤ 2048 * (100000001 * 2 ^ r))) := by decide
/-- The lowest frequency with a candidate. -/
theorem test_witness_SvcoReturnsFirstCandidate :
    IsCandidate 2605 1800 7 ∧ ∀ m q, IsCandidate 2605 m q → 7 < q ∨ (7 = q ∧ 1800 ≤ m) := by
  refine ⟨by unfold IsCandidate; decide, ?_⟩
  rintro m q ⟨h1, h2, h3, h4, h5⟩
  interval_cases q <;> omega
/-- The two edges of the range, 2,604 Hz and 150,000,001 Hz. -/
theorem test_witness_SvcoRaisesWithoutCandidate :
    (∀ n r, ¬ IsCandidate 2604 n r) ∧ (∀ n r, ¬ IsCandidate 150000001 n r) := by
  constructor <;> (rintro n r ⟨h1, h2, h3, h4, h5⟩; interval_cases r <;> omega)
theorem test_witness_SearchResultsAreExact :
    searchVco 2605 = some (600192000, 1800, 7) ∧ searchVco 150000000 = some (900000000, 6, 0) ∧ IsCandidate 10000000 90 0 := by
  refine ⟨by decide, by decide, by unfold IsCandidate; decide⟩
theorem test_witness_SearchHasTheClosedForm :
    (searchVco 2604 = none ∧ searchVco 150000001 = none) ∧
    (333334 ≤ 333333 * 2 ^ 1 ∧ 333333 * 2 ^ 1 ≤ 150000000 ∧ ∀ q, q < 1 → 333333 * 2 ^ q < 333334) ∧
    searchVco 333333 = some (600666066, 901, 1) := by decide
theorem test_witness_SetqExpandsToAQuarterOfTheDivider :
    150000000 < (150000001 : Hz).toNat ∧ searchVco 1174169 = some (600000359, 511, 0) ∧ searchVco 1174168 = some (601174016, 512, 0) ∧
    searchVco 2604 = none := by decide
theorem test_witness_AphoAddsClampedPhase :
    (withWork { Work.unwritten with msP1 := some 0xFFFFC080, ph := some 127, msDiv4 := some false }).w.ph = some 127 ∧
    (0xFFFFC080 : BitVec 32).toNat + 128 * min (127 : BitVec 16).toNat 127 = 2 ^ 32 := by decide
theorem test_witness_IntegerModeMeansP2ZeroP3One :
    nextWith (exec .cpll (withCrystal 25000000 600000001)) (fun _ => true) = true ∧
    nextWith (exec .cms (withWork { Work.unwritten with fout := some 150000001, r := some 0 })) (fun _ => true) = true ∧
    nextWith (exec .apho (withWork { Work.unwritten with msP1 := some 0, ph := some 5, msDiv4 := some true })) (fun _ => true) = true := by
  decide
theorem test_witness_InverseFormulaRecoversTheRatio :
    frac 640000000 25000000 = some ⟨2764, 838784, 1048576, false⟩ ∧ frac 600000000 150000000 = some ⟨0, 0, 1, true⟩ := by decide
/-- spec/95_test_vectors.md E3: `fvco' = 25,000,000 * (25 + 629,145 / 1,048,576)`; and a MultiSynth ratio of 4 gives 150 MHz back. -/
theorem test_inverse_frequencies :
    inverseVco 25000000 ⟨2764, 838784, 1048576, false⟩ = 25000000 * (25 + 629145 / 1048576) ∧
    inverseFout 600000000 ⟨0, 0, 1, true⟩ = 150000000 := by
  norm_num [inverseVco, inverseFout, inverseRatio, inverseA, inverseB, inverseFloorTerm]
theorem test_witness_UnwrittenRegisterFaults :
    State.reset.w.vco = none ∧ State.reset.w.blk = none ∧
    ((withWork { Work.unwritten with fout := some 150000000, r := some 0 }).w.vco = none ∧ (150000000 : Hz).toNat * 2 ^ 0 ≤ 150000000) ∧
    ((withWork { Work.unwritten with msDiv4 := some false }).w.msDiv4 = some false ∧
      (withWork { Work.unwritten with msDiv4 := some false }).w.msR = none) := by decide
theorem test_witness_EncpPacksTheBlock : (workP1 .ch0).pllP1 = some 2560 ∧ (workP1 .ch0).pllP2 = some 0 ∧ (workP1 .ch0).pllP3 = some 1 := by
  decide
theorem test_witness_EncmPacksTheBlockWithTheRDivider :
    (workP1 .ch0).msP1 = some 7168 ∧ (workP1 .ch0).msP2 = some 0 ∧ (workP1 .ch0).msP3 = some 1 ∧ (workP1 .ch0).msR = some 0 ∧
    (workP1 .ch0).msDiv4 = some false := by decide
theorem test_witness_EncmDivideByFourIsTheFixedPattern :
    (withWork { Work.unwritten with msDiv4 := some true }).w.msDiv4 = some true := by decide
theorem test_witness_DecbExtractsTheFields : (onBus 0 0 blkA []).w.blk = some blkA := by decide
/-- A block whose third byte has every bit set that the law allows. -/
theorem test_witness_BlockRoundTrips :
    (0x73 : Byte).getLsbD 7 = false ∧ (0x73 : Byte).getLsbD 3 = false ∧ (0x73 : Byte).getLsbD 2 = false := by decide
/-- Success at the first and at the last attempt; a count one short, and one too many, are failures. -/
theorem test_witness_WrbWritesWithinThreeAttempts :
    FirstWriteOk (onBus 26 0 blkA [.device]) 8 0 ∧
    FirstWriteOk (onBus 26 0 blkA [.reply (some 8) none, .reply (some 10) none, .reply (some 9) none]) 8 2 := by
  unfold FirstWriteOk WriteOk; decide
theorem test_witness_WrOneWritesWithinThreeAttempts :
    FirstWriteOk (onBus 177 0x20 blkA [.device]) 1 0 ∧ FirstWriteOk (onBus 177 0x20 blkA [failed, failed, .device]) 1 2 := by
  unfold FirstWriteOk WriteOk; decide
theorem test_witness_RegisterOperationsRaiseAfterThreeFailures :
    WritesFail (onBus 26 0 blkA [failed, failed, failed]) 8 ∧ WritesFail (onBus 16 0x6F blkA [failed, failed, .reply (some 1) none]) 1 ∧
    ReadsFail (onBus 3 0xFE blkA [failed, failed, failed]) 3 ∧
    State.reset.seq = .idle ∧ ((midway .ch0 .s5a []).w.ch = some .ch0 ∧ 3 ≤ Seq.s5a.rank ∧ Seq.s8.rank ≤ 11) := by
  unfold WritesFail ReadsFail WriteOk; decide
theorem test_witness_VfyReportsAMismatchInVm :
    FirstReadOk (onBus 16 0x6F blkA [.reply none (some 0x4F)]) 16 0 0x4F ∧
    FirstReadOk (onBus 16 0x6F blkA [failed, failed, .reply none (some 0x6F)]) 16 2 0x6F ∧
    FirstReadOk { onBus 16 0x6F blkA [.device] with chip := [(16, 0x6F)] } 16 0 0x6F := by
  unfold FirstReadOk; decide
/-- A block at 248, the last base inside the space, and at 249, whose last byte passes its end. -/
theorem test_witness_RegisterWritesChangeOnlyTheirRegisters :
    FirstWriteOk (onBus 248 0 blkA [.device]) 8 0 ∧ FirstWriteOk (onBus 249 0 blkA [.device]) 8 0 ∧
    nextWith (exec .wrb { onBus 249 0 blkA [.device] with chip := [(0, 7), (1, 8)] }) (fun t =>
      t.chip.read 0 == none && t.chip.read 1 == some 8 && t.chip.read 255 == some 0x00 && t.chip.wf) = true ∧
    nextWith (exec .wr1 { onBus 255 9 blkA [.device] with chip := [(0, 7)] }) (fun t =>
      t.chip.read 0 == some 7 && t.chip.read 255 == some 9 && t.chip.wf) = true := by
  unfold FirstWriteOk WriteOk; decide
/-- The four edges of the accepted range. -/
theorem test_witness_StepOneValidatesTheFrequency :
    (Quiet (midway .ch0 .s1 []) ∧ (midway .ch0 .s1 []).seq = .s1 ∧ (midway .ch0 .s1 []).w.fout = some 10000000) ∧
    (7999 : Hz).toNat < 8000 ∧ ¬ (8000 : Hz).toNat < 8000 ∧ ¬ 160000000 < (160000000 : Hz).toNat ∧ 160000000 < (160000001 : Hz).toNat :=
  ⟨⟨⟨rfl, rfl⟩, rfl, rfl⟩, by decide⟩
/-- The sibling at another frequency, at the same one, and never configured. -/
theorem test_witness_StepTwoChecksTheSibling :
    (Quiet (midway .ch2 .s2 []) ∧ (midway .ch2 .s2 []).seq = .s2 ∧ (midway .ch2 .s2 []).w.ch = some .ch2) ∧
    ((configured 0 1000000 0).c1.requestedHz ≠ 0 ∧ (configured 0 1000000 0).c1.requestedHz ≠ 10000000) ∧
    (configured 0 10000000 0).c1.requestedHz = 10000000 ∧ (configured 0 0 0).c1.requestedHz = 0 := ⟨⟨⟨rfl, rfl⟩, rfl, rfl⟩, by decide⟩
theorem test_witness_StepThreeDeterminesTheVco :
    (Quiet (midway .ch0 .s3 []) ∧ (midway .ch0 .s3 []).seq = .s3) ∧ InRange 8000 ∧ InRange 150000000 ∧ InRange 150000001 ∧ InRange 160000000 := by
  refine ⟨⟨⟨rfl, rfl⟩, rfl⟩, ?_⟩
  unfold InRange; decide
theorem test_witness_StepFourComputesTheParameters :
    (Quiet (midway .ch0 .s4 []) ∧ (midway .ch0 .s4 []).seq = .s4) ∧ XtalLegal Params.default ∧
    Planned 8000 600064000 1172 6 ∧ Planned 150000000 900000000 6 0 ∧ Planned 150000001 600000004 4 0 ∧ Planned 160000000 640000000 4 0 := by
  refine ⟨⟨⟨rfl, rfl⟩, rfl⟩, ?_⟩
  unfold XtalLegal Planned; decide
theorem test_witness_StepFiveWritesBothBlocks :
    (Quiet (midway .ch0 .s5a [.device]) ∧ FirstWriteOk (midway .ch0 .s5a [.device]) 8 0) ∧
    (Quiet (midway .ch2 .s5b [failed, failed, .device]) ∧ FirstWriteOk (midway .ch2 .s5b [failed, failed, .device]) 8 2 ∧
      exec .encm (midway .ch2 .s5b [failed, failed, .device]) =
        .next { midway .ch2 .s5b [failed, failed, .device] with
          ret := .done, w := { workP1 .ch2 with blk := some ⟨0x00, 0x01, 0x00, 0x1C, 0x00, 0x00, 0x00, 0x00⟩ } }) := by
  refine ⟨⟨⟨rfl, rfl⟩, ?_⟩, ⟨rfl, rfl⟩, ?_, rfl⟩ <;> (unfold FirstWriteOk WriteOk; decide)
theorem test_witness_StepSixWritesTheControlRegister :
    (Quiet (midway .ch0 .s6 [.device]) ∧ FirstWriteOk (midway .ch0 .s6 [.device]) 1 0) ∧
    (Quiet (midway .ch2 .s6v [.reply none (some 0x4F)]) ∧ FirstReadOk (midway .ch2 .s6v [.reply none (some 0x4F)]) 18 0 0x4F ∧
      (midway .ch2 .s6v []).w.ctl = some 0x6F) := by
  refine ⟨⟨⟨rfl, rfl⟩, ?_⟩, ⟨rfl, rfl⟩, ?_, rfl⟩
  · unfold FirstWriteOk WriteOk; decide
  · unfold FirstReadOk; decide
/-- No channel in use but the current one, and all of them. -/
theorem test_witness_StepSevenWritesTheOutputEnables :
    (Quiet (midway .ch0 .s7 [.device]) ∧ FirstWriteOk (midway .ch0 .s7 [.device]) 1 0) ∧
    (nextWith (step (midway .ch1 .s7 [.device])) (fun t => t.chip.read 3 == some 0xFD) = true ∧
      nextWith (step { midway .ch1 .s7 [.device] with chan := configured 1 1 1 }) (fun t => t.chip.read 3 == some 0xF8) = true) ∧
    (Quiet (midway .ch0 .s7v [.reply none (some 0xFE)]) ∧ FirstReadOk (midway .ch0 .s7v [.reply none (some 0xFE)]) 3 0 0xFE) := by
  refine ⟨⟨⟨rfl, rfl⟩, ?_⟩, by decide, ⟨rfl, rfl⟩, ?_⟩
  · unfold FirstWriteOk WriteOk; decide
  · unfold FirstReadOk; decide
theorem test_witness_StepEightResetsThePll :
    (Quiet (midway .ch0 .s8 [failed, .device]) ∧ FirstWriteOk (midway .ch0 .s8 [failed, .device]) 1 1) ∧
    nextWith (step (midway .ch1 .s8 [.device])) (fun t => t.chip.read 177 == some 0x20) = true := by
  refine ⟨⟨⟨rfl, rfl⟩, ?_⟩, by decide⟩
  unfold FirstWriteOk WriteOk; decide
theorem test_witness_StepNineCommits :
    Quiet (midway .ch0 .s9 []) ∧ (midway .ch0 .s9 []).seq = .s9 ∧ (60 : BitVec 11).toNat ≠ 0 ∧ Planned 10000000 600000000 60 0 :=
  ⟨⟨rfl, rfl⟩, rfl, by decide, planned_p1⟩
/-- spec/10_state.md R24, R34: after a commit, and after an abort, no working register holds a value. -/
theorem test_command_end_empties_working_registers :
    nextWith (step (midway .ch0 .s9 [])) (fun t => t.w == Work.unwritten) = true ∧
    nextWith (step (midway .ch0 .s8 [failed, failed, failed])) (fun t => t.w == Work.unwritten) = true := by decide
theorem test_witness_TransportFailureAborts :
    (Inv (midway .ch0 .s5a [failed, failed, failed]) ∧ Quiet (midway .ch0 .s5a [failed, failed, failed]) ∧
      WritesFail (midway .ch0 .s5a [failed, failed, failed]) 8) ∧
    (Inv (midway .ch1 .s8 [failed, failed, failed]) ∧ WritesFail (midway .ch1 .s8 [failed, failed, failed]) 1) ∧
    (Inv (midway .ch2 .s7v [failed, failed, failed]) ∧
      ∀ j, j < 3 → ∃ x, oracle (midway .ch2 .s7v [failed, failed, failed]) j = .reply x none) := by
  refine ⟨⟨midway_good _ _ _ (by decide), ⟨rfl, rfl⟩, ?_⟩, ⟨midway_good _ _ _ (by decide), ?_⟩, midway_good _ _ _ (by decide), ?_⟩
  · unfold WritesFail WriteOk; decide
  · unfold WritesFail WriteOk; decide
  · intro j hj
    refine ⟨none, ?_⟩
    interval_cases j <;> rfl
/-- Every step of a SETF goes on where the Transport answers; in IDLE the port holds nothing, and below a SETF (spec/30_encoding.md R104). -/
theorem test_witness_SuccessorsOfTheStepRegister (q : Seq) :
    Quiet (midway .ch0 q [.reply (some 9) (some 0), .device]) ∧
    nextWith (step (midway .ch0 q [.reply (some 9) (some 0), .device])) (fun _ => true) = true ∧
    nextWith (step (waiting [0x18000096000F4240] [])) (fun t => t.seq == .s1) = true := by
  refine ⟨⟨rfl, rfl⟩, ?_, by decide⟩
  cases q <;> decide
theorem test_witness_EveryStepKeepsTheGoodStates :
    Inv (midway .ch0 .s4 []) ∧ nextWith (step (midway .ch0 .s4 [])) (fun t => t.seq == .s5a) = true := ⟨midway_good _ _ _ (by decide), by decide⟩
theorem test_witness_WithoutADirectCallTheMachineNeverStops : Inv (midway .ch0 .s9 []) ∧ (midway .ch0 .s9 []).uop = none :=
  ⟨midway_good _ _ _ (by decide), rfl⟩
theorem test_witness_EverySetfEnds : Inv (midway .ch0 .s1 []) ∧ Quiet (midway .ch0 .s1 []) ∧ (midway .ch0 .s1 []).seq ≠ .idle :=
  ⟨midway_good _ _ _ (by decide), ⟨rfl, rfl⟩, by decide⟩
/-- The two ends of the accepted range. -/
theorem test_witness_SetfIssuesItsFiveWrites :
    let s := waiting [packCmd 1 (BitVec.ofNat 2 (chNum .ch0)) true 5 160000000] (List.replicate 5 .device)
    Inv s ∧ Ready s ∧ InRange 160000000 ∧ InRange 8000 ∧ siblingAllows s.chan .ch0 160000000 = true ∧ s.cfg.verifyEnable = false ∧
    (∀ j, j < 2 → WriteOk s 8 j) ∧ (∀ j, 2 ≤ j → j < 5 → WriteOk s 1 j) := by
  refine ⟨waiting_good _ _, ⟨⟨rfl, rfl⟩, rfl, rfl⟩, by unfold InRange; decide, by unfold InRange; decide, rfl, rfl, ?_, ?_⟩
  · unfold WriteOk; decide
  · intro j h1 h2
    unfold WriteOk
    interval_cases j <;> decide
/-- Without read-backs, every write answered with its count of bytes. -/
theorem test_witness_RepeatedSetfIsIdempotent :
    let w := packCmd 1 (BitVec.ofNat 2 (chNum .ch1)) false 0 1000000
    let s := waiting [w, w] (callAnswers ++ callAnswers)
    Inv s ∧ Ready s ∧ InRange 1000000 ∧ siblingAllows s.chan .ch1 1000000 = true ∧ s.cfg.verifyEnable = false ∧
    ∀ j, j < 5 → SetfAnswerOk s .ch1 0 j ∧ SetfAnswerOk s .ch1 5 j := by
  refine ⟨waiting_good _ _, ⟨⟨rfl, rfl⟩, rfl, rfl⟩, by unfold InRange; decide, rfl, rfl, ?_⟩
  intro j hj
  unfold SetfAnswerOk WriteOk
  interval_cases j <;> decide
/-- With read-backs, whose bytes differ in the two calls. -/
theorem test_witness_RepeatedSetfIsIdempotent_verified :
    let w := packCmd 1 (BitVec.ofNat 2 (chNum .ch1)) false 0 1000000
    let s : State := { waiting [w, w] (verifiedAnswers 0 ++ verifiedAnswers 0xFF) with cfg := { Params.default with verifyEnable := true } }
    Inv s ∧ Ready s ∧ InRange 1000000 ∧ siblingAllows s.chan .ch1 1000000 = true ∧ s.cfg.verifyEnable = true ∧
    ∀ j, j < 7 → SetfAnswerOk s .ch1 0 j ∧ SetfAnswerOk s .ch1 7 j := by
  refine ⟨?_, ⟨⟨rfl, rfl⟩, rfl, rfl⟩, by unfold InRange; decide, rfl, rfl, ?_⟩
  · have h := waiting_good [] []
    exact ⟨rfl, rfl, rfl, rfl, h.xtal, h.realized, h.legal, h.shared, h.reason, h.configuring, by constructor <;> intro h <;> first | rfl | exact absurd h (by decide)⟩
  · intro j hj
    unfold SetfAnswerOk WriteOk
    interval_cases j <;> decide
theorem test_witness_CommittedFrequenciesChangeOnlyAtCommit :
    nextWith (step (midway .ch0 .s9 [])) (fun t => t.chan.c1 == State.reset.chan.c1) = true ∧ (midway .ch0 .s9 []).w.ch ≠ some .ch1 ∧
    (midway .ch0 .s8 []).seq ≠ .s9 := by decide
theorem test_witness_TransactionsStayInTheMap :
    Quiet (midway .ch0 .s8 [failed, failed, failed]) ∧
    nextWith (step (midway .ch0 .s8 [failed, failed, failed])) (fun t => t.trace.length == 3) = true := ⟨⟨rfl, rfl⟩, by decide⟩
theorem test_witness_ChannelsOneAndTwoAreLockedIn :
    let s : State := { State.reset with chan := configured 0 1000000 1000000 }
    Inv s ∧ s.rst = .low ∧ s.chan.c1.requestedHz = 1000000 ∧ s.chan.c2.requestedHz = 1000000 := by
  refine ⟨⟨rfl, rfl, rfl, rfl, by unfold XtalLegal; decide, ?_, ?_, .inr (.inr rfl), ?_, ?_, ?_⟩, rfl, rfl, rfl⟩
  · intro c; cases c <;> rfl
  · intro c; cases c
    · exact .inl rfl
    all_goals exact .inr (by unfold InRange; decide)
  · intro c e; cases c <;> exact fun h => nomatch h
  · intro c; cases c <;> exact fun h => nomatch h
  · constructor <;> intro h <;> first | rfl | exact absurd h (by decide)

end Sys2Proof.Tests
end

/-! SUPPORT. The good states are kept by every step, and without a direct call the machine never stops. -/

namespace Sys2Proof.Machine

/-! ### What a good state says of the channel records -/

/-- The clauses of `Inv` that read nothing but the channel records. -/
structure RecordsInv (cs : Channels) : Prop where
  realized : ∀ c, (cs.get c).realizedHz = (cs.get c).requestedHz
  legal : ∀ c, (cs.get c).requestedHz = 0 ∨ InRange (cs.get c).requestedHz
  shared : (cs.get .ch1).requestedHz = 0 ∨ (cs.get .ch2).requestedHz = 0 ∨ (cs.get .ch1).requestedHz = (cs.get .ch2).requestedHz
  reason : ∀ c e, (cs.get c).phase = .failed e → e = .noValidDivider ∨ e = .transportError

theorem Inv.records {s : State} (h : Inv s) : RecordsInv s.chan := { h with }

theorem RecordsInv.of_eq {cs ds : Channels} (h : RecordsInv cs) (e : ds = cs) : RecordsInv ds := e ▸ h

theorem recordsInv_reset : RecordsInv State.reset.chan where
  realized c := by cases c <;> rfl
  legal c := by cases c <;> exact .inl rfl
  shared := .inl rfl
  reason c e := by cases c <;> exact nofun

/-- Writing a phase touches no frequency; a failure's reason must be one of the two of spec/60_exceptions.md R228. -/
theorem RecordsInv.set_phase {cs : Channels} (h : RecordsInv cs) (c : Channel) {p : Phase}
    (hp : ∀ e, p = .failed e → e = .noValidDivider ∨ e = .transportError) : RecordsInv (cs.set c { cs.get c with phase := p }) where
  realized d := by simpa using h.realized d
  legal d := by simpa using h.legal d
  shared := by simpa using h.shared
  reason d e hd := by
    rw [channels_get_set] at hd
    split at hd
    · exact hp e hd
    · exact h.reason d e hd

/-- What step 2 lets pass, for the two channels that share a PLL (spec/42_coordinator.md R184). -/
theorem siblingAllows_iff {cs : Channels} {c o : Channel} {f : Hz} (ho : sibling c = some o) :
    siblingAllows cs c f = true ↔ (cs.get o).requestedHz = 0 ∨ (cs.get o).requestedHz = f := by
  simp [siblingAllows, ho]

/-- A commit records a request that steps 1 and 2 let pass, as requested and as realized (spec/42_coordinator.md R195). -/
theorem RecordsInv.commit {cs : Channels} (h : RecordsInv cs) {c : Channel} {f : Hz} (hf : InRange f)
    (hs : siblingAllows cs c f = true) : RecordsInv (cs.set c ⟨f, f, .active⟩) where
  realized d := by
    rw [channels_get_set]
    split
    · rfl
    · exact h.realized d
  legal d := by
    rw [channels_get_set]
    split
    · exact .inr hf
    · exact h.legal d
  shared := by
    cases c with
    | ch0 => exact h.shared
    | ch1 => exact .inr (((siblingAllows_iff (c := .ch1) (o := .ch2) rfl).mp hs).imp id Eq.symm)
    | ch2 => exact ((siblingAllows_iff (c := .ch2) (o := .ch1) rfl).mp hs).imp id .inr
  reason d e hd := by
    rw [channels_get_set] at hd
    split at hd
    · cases hd
    · exact h.reason d e hd

/-! ### The end of a command -/

/-- The clauses of `WorkInv` for steps that SEQ has not reached hold of themselves. -/
theorem not_reached (q : Seq) {k : Nat} {P : Prop} (hq : q.rank < k) (h : k ≤ q.rank) : P := absurd h (Nat.not_le_of_lt hq)

theorem one_le_rank {q : Seq} (h : q ≠ .idle) : 1 ≤ q.rank := by
  revert h
  cases q <;> decide

/-- In IDLE the good states are those with good records, no channel Configuring and no working register written. -/
theorem inv_idle {t : State} (hr : RecordsInv t.chan) (hn : ∀ c, (t.chan.get c).phase ≠ .configuring) (hm : t.chip.wf = true)
    (ha : t.att = 0) (hx : XtalLegal t.cfg) (hq : t.seq = .idle) (hb : t.busy = false) (hl : t.busLock = false)
    (hw : t.w = Work.unwritten) : Inv t := by
  have no : ∀ {k : Nat} {P : Prop}, k + 1 ≤ t.seq.rank → P := fun h => not_reached .idle (Nat.succ_pos _) (hq ▸ h)
  exact { hr with
    memory := hm, att := ha, xtal := hx
    busy := by rw [hb, hq]; rfl
    busLock := by rw [hl, hq]; rfl
    configuring := fun c h => absurd h (hn c)
    work := {
      ended := fun _ => hw, operands := no, range := no, sibling := no, plan := no, pll := no, ms := no
      control := fun h => by rw [hq] at h; cases h
      enable := fun h => by rw [hq] at h; cases h } }

/-- Before step 3 is done no channel is Configuring (spec/42_coordinator.md R198). -/
theorem Inv.not_configuring {s : State} (h : Inv s) (hs : s.seq.rank ≤ 3) (c : Channel) : (s.chan.get c).phase ≠ .configuring :=
  fun hc => absurd (h.configuring c hc).1 (by omega)

/-- Only the channel in `W.ch` is Configuring (spec/42_coordinator.md R198). -/
theorem Inv.not_configuring_other {s : State} (h : Inv s) {c d : Channel} (hc : s.w.ch = some c) (hd : d ≠ c) :
    (s.chan.get d).phase ≠ .configuring :=
  fun hp => hd (Option.some.inj ((h.configuring d hp).2.symm.trans hc))

theorem inv_reject {s : State} (h : Inv s) (e : ErrorKind) (c : Channel) (hs : s.seq.rank ≤ 2) : Inv (reject e c s) := by
  have hl : s.busLock = false := by
    rw [h.busLock]
    revert hs
    cases s.seq <;> decide
  exact inv_idle h.records (h.not_configuring (by omega)) h.memory h.att h.xtal rfl rfl hl rfl

/-- An abort in `t`, reached from a good state with the records of `s`, leaves a good state. -/
theorem inv_abort {s t : State} (h : Inv s) {e : ErrorKind} {c : Channel} (hc : s.w.ch = some c) (ht : t.chan = s.chan)
    (hm : t.chip.wf = true) (ha : t.att = 0) (hx : XtalLegal t.cfg) (he : e = .noValidDivider ∨ e = .transportError) :
    Inv (abort e c t) := by
  refine inv_idle ?_ (fun d => ?_) hm ha hx rfl rfl rfl rfl
  · rw [abort_chan, ht]
    exact h.records.set_phase c fun e' h' => by cases h'; exact he
  · rw [abort_chan, ht, channels_get_set]
    split
    · exact nofun
    · next hd => exact h.not_configuring_other hc hd

/-- The outcome is a next state, and a good one. -/
def AnswersGood (x : Host.Outcome State Fault Refusal) : Prop := ∃ t, x = .next t ∧ Inv t

/-- In a good state an error can be taken, and leaves a good state: `W.ch` is written wherever it is read, and from step 3 on only the two kinds
raised there are recorded as a reason (spec/60_exceptions.md R228, R231). -/
theorem takeError_good {s : State} (h : Inv s) {e : ErrorKind} (he : 3 ≤ s.seq.rank → e = .noValidDivider ∨ e = .transportError) :
    AnswersGood (takeError e s) := by
  by_cases ho : s.seq = .idle ∨ s.seq = .s9
  · exact ⟨_, takeError_outside e ho, { h with work := { h.work with } }⟩
  have hne : s.seq ≠ .idle := fun hq => ho (.inl hq)
  obtain ⟨c, -, -, -, hc, -⟩ := h.work.operands (one_le_rank hne)
  by_cases h2 : s.seq.rank ≤ 2
  · exact ⟨_, takeError_reject e hc (one_le_rank hne) h2, inv_reject h e c h2⟩
  · have h11 : s.seq.rank ≤ 11 := by
      revert ho
      cases s.seq <;> decide
    exact ⟨_, takeError_abort e hc (by omega) h11, inv_abort h hc rfl h.memory h.att h.xtal (he (by omega))⟩

/-! ### Reset, the command port and direct calls -/

theorem inv_applyReset {s : State} (h : Inv s) : Inv (applyReset s) := by
  refine inv_idle recordsInv_reset (fun c => ?_) ?_ rfl h.xtal rfl rfl rfl rfl
  · cases c <;> exact nofun
  · cases hr : s.rst
    · simpa [applyReset, hr] using h.memory
    · simpa [applyReset, hr] using h.memory
    · simpa [applyReset, hr] using forgetAll_wf (addressed s) h.memory

theorem inv_acceptSetf {s : State} (h : Inv s) (hq : s.seq = .idle) (c : Channel) (inv : Bool) (ph : BitVec 16) (hz : Hz) :
    Inv (acceptSetf c inv ph hz s) := {
  h with
  busy := rfl
  busLock := by rw [acceptSetf_busLock, h.busLock, hq]; rfl
  configuring := fun d hd => absurd hd (h.not_configuring (by rw [hq]; decide) d)
  work := {
    ended := nofun, operands := fun _ => ⟨c, hz, inv, ph, rfl, rfl, rfl, rfl⟩
    range := not_reached .s1 (by decide), sibling := not_reached .s1 (by decide), plan := not_reached .s1 (by decide)
    pll := not_reached .s1 (by decide), ms := not_reached .s1 (by decide), control := nofun, enable := nofun } }

theorem portStep_good {s : State} (h : Inv s) (hq : s.seq = .idle) : AnswersGood (portStep s) := by
  have hb : s.busy = false := by rw [h.busy, hq]; rfl
  obtain ⟨-, hp⟩ | ⟨w, rest, -, ⟨st, hz, hp⟩ | ⟨c, inv, ph, hz, hp⟩⟩ := portStep_cases hb
  · exact ⟨_, hp, h⟩
  · exact ⟨_, hp, { h with work := { h.work with } }⟩
  · exact ⟨_, hp, inv_acceptSetf (s := { s with cmd := rest }) { h with work := { h.work with } } hq c inv ph hz⟩

/-- What a micro-operation keeps is enough for a good state to stay good, in whatever step of a SETF it was called. -/
theorem workInv_of_unitKeeps {s t : State} (h : WorkInv s) (k : UnitKeeps s t) : WorkInv t where
  ended hq := k.unwritten (h.ended (k.seq ▸ hq))
  operands := by rw [k.seq, k.ch, k.fout, k.inv, k.ph]; exact h.operands
  range := by rw [k.seq, k.fout]; exact h.range
  sibling := by rw [k.seq, k.ch, k.fout, k.chan]; exact h.sibling
  plan hr := by
    obtain ⟨e1, e2, e3⟩ | hp := k.plan
    · rw [k.fout, e1, e2, e3]; exact h.plan (k.seq ▸ hr)
    · exact hp
  pll hr := by
    obtain ⟨e1, e2, e3⟩ | hp := k.pll
    · rw [e1, e2, e3]; exact h.pll (k.seq ▸ hr)
    · exact hp
  ms hr := by
    obtain ⟨p1, p2, p3, i, d, r, h1, h2, h3, h4, h5, h6⟩ := h.ms (k.seq ▸ hr)
    obtain ⟨q1, hq1⟩ : ∃ q1, t.w.msP1 = some q1 := k.msP1.elim (fun e => ⟨p1, e.trans h1⟩) id
    obtain ⟨e2, e3, e4, e5⟩ | ⟨q2, q3, j, b, e2, e3, e4, e5⟩ := k.ms
    · exact ⟨q1, p2, p3, i, d, r, hq1, e2.trans h2, e3.trans h3, e4.trans h4, e5.trans h5, k.msR.trans h6⟩
    · exact ⟨q1, q2, q3, j, b, r, hq1, e2, e3, e4, e5, k.msR.trans h6⟩
  control := by rw [k.seq, k.ctl]; exact h.control
  enable := by rw [k.seq, k.oe]; exact h.enable

theorem inv_of_unitKeeps {s t : State} (h : Inv s) (k : UnitKeeps s t) : Inv t := {
  h.records.of_eq k.chan with
  memory := k.memory h.memory
  busy := by rw [k.busy, k.seq]; exact h.busy
  busLock := by rw [k.busLock, k.seq]; exact h.busLock
  att := k.att.elim (fun e => e.trans h.att) id
  xtal := by rw [k.cfg]; exact h.xtal
  configuring := by rw [k.chan, k.seq, k.ch]; exact h.configuring
  work := workInv_of_unitKeeps h.work k }

/-- A directly called micro-operation may stop, but where it does not it leaves a good state. -/
theorem inv_of_unitEnds {s t : State} (h : Inv s) {x : Host.Outcome State Fault Refusal} (hx : UnitEnds s x) (ht : x = .next t) : Inv t := by
  cases hx with
  | next u hu k =>
    cases hu.symm.trans ht
    exact inv_of_unitKeeps h k
  | error e u hu k he =>
    obtain ⟨v, hv, hi⟩ := takeError_good (inv_of_unitKeeps h k) fun _ => he
    cases (hu.trans hv).symm.trans ht
    exact hi
  | fault reg hu => cases hu.symm.trans ht
  | refused hu => cases hu.symm.trans ht

theorem inv_of_uopStep {s t : State} (h : Inv s) (c : BitVec 4) (ht : uopStep c s = .next t) : Inv t := by
  rw [uopStep] at ht
  split at ht
  · next i hi => exact inv_of_unitEnds (s := { s with uop := none }) { h with work := { h.work with } } (uop_ends hi _) ht
  · cases ht

/-! ### The steps S1 to S4 -/

theorem stepS1_good {s : State} (h : Inv s) (hq : s.seq = .s1) : AnswersGood (finish (stepS1 s)) := by
  have hr : s.seq.rank = 1 := by rw [hq]; rfl
  obtain ⟨c, f, i, p, hc, hf, -, -⟩ := h.work.operands (by omega)
  rw [stepS1_eq hf]
  split
  · exact takeError_good h (by omega)
  · next hin =>
    refine ⟨_, rfl, { h with
      busy := by rw [h.busy, hq]; rfl
      busLock := by rw [h.busLock, hq]; rfl
      configuring := fun d hd => absurd hd (h.not_configuring (by omega) d)
      work := { h.work with
        ended := nofun, operands := fun _ => h.work.operands (by omega), range := fun _ g hg => ?_
        sibling := not_reached .s2 (by decide), plan := not_reached .s2 (by decide), pll := not_reached .s2 (by decide)
        ms := not_reached .s2 (by decide), control := nofun, enable := nofun } }⟩
    obtain rfl : f = g := Option.some.inj (hf.symm.trans hg)
    exact ⟨by omega, by omega⟩

theorem stepS2_good {s : State} (h : Inv s) (hq : s.seq = .s2) : AnswersGood (finish (stepS2 s)) := by
  have hr : s.seq.rank = 2 := by rw [hq]; rfl
  obtain ⟨c, f, i, p, hc, hf, -, -⟩ := h.work.operands (by omega)
  rw [stepS2_eq hc hf]
  split
  · next hs =>
    refine ⟨_, rfl, { h with
      busy := by rw [h.busy, hq]; rfl
      busLock := by rw [h.busLock, hq]; rfl
      configuring := fun d hd => absurd hd (h.not_configuring (by omega) d)
      work := { h.work with
        ended := nofun, operands := fun _ => h.work.operands (by omega), range := fun _ => h.work.range (by omega)
        sibling := fun _ d g hd hg => ?_
        plan := not_reached .s3 (by decide), pll := not_reached .s3 (by decide), ms := not_reached .s3 (by decide)
        control := nofun, enable := nofun } }⟩
    cases hc.symm.trans hd
    cases hf.symm.trans hg
    exact hs
  · exact takeError_good h (by omega)

/-- What step 3 does, whichever way it goes: the channel is Configuring, and a plan for the request is written (spec/42_coordinator.md R187). -/
theorem stepS3_plans {s : State} {c : Channel} {f : Hz} (hc : s.w.ch = some c) (hf : s.w.fout = some f) (hin : InRange f) :
    ∃ vco n r, Planned f vco n r ∧ stepS3 s = .ok { s with
      seq := .s4, chan := s.chan.set c { s.chan.get c with phase := .configuring }
      w := { s.w with vco := some vco, n := some n, r := some r } } := by
  obtain ⟨hlo, hhi⟩ := hin
  by_cases hd : f.toNat ≤ 150000000
  · obtain ⟨v, n, r, hs⟩ := searchVco_isSome hlo hd
    exact ⟨_, _, _, planned_search hd hs, stepS3_search hc hf hd hs⟩
  · exact ⟨_, _, _, planned_div4 (by omega) hhi, stepS3_div4 hc hf (by omega) hhi⟩

theorem stepS3_good {s : State} (h : Inv s) (hq : s.seq = .s3) : AnswersGood (finish (stepS3 s)) := by
  have hr : s.seq.rank = 3 := by rw [hq]; rfl
  obtain ⟨c, f, i, p, hc, hf, -, -⟩ := h.work.operands (by omega)
  obtain ⟨vco, n, r, hp, hs⟩ := stepS3_plans hc hf (h.work.range (by omega) f hf)
  rw [hs]
  refine ⟨_, rfl, { h.records.set_phase c (p := .configuring) nofun, h with
    busy := by rw [h.busy, hq]; rfl
    busLock := by rw [h.busLock, hq]; rfl
    configuring := fun d hd => ⟨Nat.le_refl 4, ?_⟩
    work := { h.work with
      ended := nofun, operands := fun _ => h.work.operands (by omega), range := fun _ => h.work.range (by omega)
      sibling := fun _ d g hd hg => ?_
      plan := fun _ => ⟨f, vco, n, r, hf, rfl, rfl, rfl, hp⟩
      pll := not_reached .s4 (by decide), ms := not_reached .s4 (by decide), control := nofun, enable := nofun } }⟩
  · by_cases hdc : d = c
    · rw [hdc]; exact hc
    · rw [channels_get_set_other _ _ _ _ hdc] at hd
      exact absurd hd (h.not_configuring (by omega) d)
  · rw [setPhase_siblingAllows]
    exact h.work.sibling (by omega) d g hd hg

theorem stepS4_good {s : State} (h : Inv s) (hq : s.seq = .s4) : AnswersGood (finish (stepS4 s)) := by
  have hr : s.seq.rank = 4 := by rw [hq]; rfl
  obtain ⟨c, f', i, ph, hc, -, -, hph⟩ := h.work.operands (by omega)
  obtain ⟨f, vco, n, r, hf, hv, hn, hr', hp⟩ := h.work.plan (by omega)
  obtain ⟨q, hfr⟩ := planned_frac h.xtal hp
  rw [stepS4_ok (h.work.range (by omega) f hf) hf hv hr' hph hp hfr]
  exact ⟨_, rfl, { h with
    busy := by rw [h.busy, hq]; rfl
    busLock := by rw [h.busLock, hq]; rfl
    configuring := fun d hd => ⟨Nat.le_succ 4, (h.configuring d hd).2⟩
    work := { h.work with
      ended := nofun, operands := fun _ => h.work.operands (by omega), range := fun _ => h.work.range (by omega)
      sibling := fun _ => h.work.sibling (by omega), plan := fun _ => h.work.plan (by omega)
      pll := fun _ => ⟨_, _, _, rfl, rfl, rfl⟩, ms := fun _ => ⟨_, _, _, _, _, _, rfl, rfl, rfl, rfl, rfl, rfl⟩
      control := nofun, enable := nofun } }⟩

/-! ### The steps S5A to S8 -/

theorem busyAt_of_rank {q : Seq} (h : 1 ≤ q.rank) : busyAt q = true := by
  revert h
  cases q <;> decide

theorem busLockAt_of_rank {q : Seq} (h : 6 ≤ q.rank) : busLockAt q = true := by
  revert h
  cases q <;> decide

/-- What a step from S5A to S8 keeps, whether its register operation succeeds or fails. -/
structure BusStepKeeps (s t : State) : Prop where
  chan : t.chan = s.chan
  cfg : t.cfg = s.cfg
  busy : t.busy = s.busy
  att : t.att = 0
  memory : t.chip.wf = true
  work : t.w = { s.w with blk := t.w.blk, ctl := t.w.ctl, oe := t.w.oe, rst := t.w.rst }

/-- A step from S5A to S8 that succeeds goes on to a later step with BUSLOCK 1. -/
theorem inv_of_busStepKeeps {s t : State} (h : Inv s) (q : Seq) (k : BusStepKeeps s t) (hs : 5 ≤ s.seq.rank) (hq : t.seq = q)
    (ht : 6 ≤ q.rank) (hl : t.busLock = true) (hctl : q = .s6v → ∃ b, t.w.ctl = some b) (hoe : q = .s7v → ∃ b, t.w.oe = some b) :
    Inv t := by
  obtain ⟨hchan, hcfg, hbusy, hatt, hmem, hw⟩ := k
  subst hq
  exact { h.records.of_eq hchan with
    memory := hmem, att := hatt
    busy := by rw [hbusy, h.busy, busyAt_of_rank (by omega), busyAt_of_rank (by omega)]
    busLock := by rw [hl, busLockAt_of_rank ht]
    xtal := by rw [hcfg]; exact h.xtal
    configuring := by rw [hchan, hw]; exact fun d hd => ⟨by omega, (h.configuring d hd).2⟩
    work := {
      ended := fun hi => by rw [hi] at ht; exact absurd ht (by decide)
      operands := fun _ => by rw [hw]; exact h.work.operands (by omega)
      range := fun _ => by rw [hw]; exact h.work.range (by omega)
      sibling := fun _ => by rw [hw, hchan]; exact h.work.sibling (by omega)
      plan := fun _ => by rw [hw]; exact h.work.plan (by omega)
      pll := fun _ => by rw [hw]; exact h.work.pll (by omega)
      ms := fun _ => by rw [hw]; exact h.work.ms (by omega)
      control := hctl, enable := hoe } }

/-- A step from S5A to S8 whose three attempts all failed is aborted, and leaves a good state (spec/42_coordinator.md R196). -/
theorem busStep_raised_good {s t : State} (h : Inv s) (k : BusStepKeeps s t) (hq : t.seq = s.seq) (h5 : 5 ≤ s.seq.rank)
    (h11 : s.seq.rank ≤ 11) : AnswersGood (finish (.raised .transportError t)) := by
  obtain ⟨hchan, hcfg, -, hatt, hmem, hw⟩ := k
  obtain ⟨c, -, -, -, hc, -⟩ := h.work.operands (by omega)
  have hct : t.w.ch = some c := by rw [hw]; exact hc
  exact ⟨_, takeError_abort _ hct (by rw [hq]; omega) (by rw [hq]; omega), inv_abort h hc hchan hmem hatt (by rw [hcfg]; exact h.xtal) (.inr rfl)⟩

/-- BUSLOCK is already 1 when the write fails (spec/42_coordinator.md R190); the abort lowers it. -/
theorem stepS5a_good {s : State} (h : Inv s) (hq : s.seq = .s5a) : AnswersGood (finish (stepS5a s)) := by
  have hr : s.seq.rank = 5 := by rw [hq]; rfl
  obtain ⟨c, f, i, p, hc, -⟩ := h.work.operands (by omega)
  obtain ⟨p1, p2, p3, h1, h2, h3⟩ := h.work.pll (by omega)
  obtain ⟨k, hw⟩ | hw := write_outcome s 8
  · rw [stepS5a_ok hc h1 h2 h3 hw]
    exact ⟨_, rfl, inv_of_busStepKeeps h .s5b ⟨rfl, rfl, rfl, rfl, store_wf _ _ h.memory, rfl⟩ (by omega) rfl (by decide) rfl nofun nofun⟩
  · rw [stepS5a_fail hc h1 h2 h3 hw]
    exact busStep_raised_good h ⟨rfl, rfl, rfl, rfl, h.memory, rfl⟩ rfl (by omega) (by omega)

theorem stepS5b_good {s : State} (h : Inv s) (hq : s.seq = .s5b) : AnswersGood (finish (stepS5b s)) := by
  have hr : s.seq.rank = 6 := by rw [hq]; rfl
  have hl : s.busLock = true := by rw [h.busLock, hq]; rfl
  obtain ⟨c, f, i, p, hc, -⟩ := h.work.operands (by omega)
  obtain ⟨p1, p2, p3, j, d, r, h1, h2, h3, -, h4, h5⟩ := h.work.ms (by omega)
  obtain ⟨k, hw⟩ | hw := write_outcome s 8
  · rw [stepS5b_ok hc (encmOp_ok h1 h2 h3 h4 h5) hw]
    exact ⟨_, rfl, inv_of_busStepKeeps h .s6 ⟨rfl, rfl, rfl, rfl, store_wf _ _ h.memory, rfl⟩ (by omega) rfl (by decide) hl nofun nofun⟩
  · rw [stepS5b_fail hc (encmOp_ok h1 h2 h3 h4 h5) hw]
    exact busStep_raised_good h ⟨rfl, rfl, rfl, rfl, h.memory, rfl⟩ rfl (by omega) (by omega)

theorem stepS6_good {s : State} (h : Inv s) (hq : s.seq = .s6) : AnswersGood (finish (stepS6 s)) := by
  have hr : s.seq.rank = 7 := by rw [hq]; rfl
  have hl : s.busLock = true := by rw [h.busLock, hq]; rfl
  obtain ⟨c, f, i, p, hc, -, hi, -⟩ := h.work.operands (by omega)
  obtain ⟨p1, p2, p3, j, d, r, -, -, -, hj, hd, -⟩ := h.work.ms (by omega)
  obtain ⟨k, hw⟩ | hw := write_outcome s 1
  · rw [stepS6_ok hc hj hd hi hw]
    refine ⟨_, rfl, ?_⟩
    have keeps := write_wf (ctlByte (controlIntBit j d) (pllSrc c == .B) i s.cfg.idrv) (regClk c).isLt h.memory
    by_cases hv : s.cfg.verifyEnable = true
    · exact inv_of_busStepKeeps h .s6v ⟨rfl, rfl, rfl, rfl, keeps, rfl⟩ (by omega) (if_pos hv) (by decide) hl (fun _ => ⟨_, rfl⟩) nofun
    · exact inv_of_busStepKeeps h .s7 ⟨rfl, rfl, rfl, rfl, keeps, rfl⟩ (by omega) (if_neg hv) (by decide) hl nofun nofun
  · rw [stepS6_fail hc hj hd hi hw]
    exact busStep_raised_good h ⟨rfl, rfl, rfl, rfl, h.memory, rfl⟩ rfl (by omega) (by omega)

theorem stepS6v_good {s : State} (h : Inv s) (hq : s.seq = .s6v) : AnswersGood (finish (stepS6v s)) := by
  have hr : s.seq.rank = 8 := by rw [hq]; rfl
  have hl : s.busLock = true := by rw [h.busLock, hq]; rfl
  obtain ⟨c, f, i, p, hc, -⟩ := h.work.operands (by omega)
  obtain ⟨ctl, h1⟩ := h.work.control hq
  obtain ⟨k, b, ho⟩ | ho := read_outcome s (regClk c)
  · rw [stepS6v_ok hc h1 ho]
    exact ⟨_, rfl, inv_of_busStepKeeps h .s7 ⟨rfl, rfl, rfl, rfl, h.memory, rfl⟩ (by omega) rfl (by decide) hl nofun nofun⟩
  · rw [stepS6v_fail hc h1 ho]
    exact busStep_raised_good h ⟨rfl, rfl, rfl, rfl, h.memory, rfl⟩ rfl (by omega) (by omega)

theorem stepS7_good {s : State} (h : Inv s) (hq : s.seq = .s7) : AnswersGood (finish (stepS7 s)) := by
  have hr : s.seq.rank = 9 := by rw [hq]; rfl
  have hl : s.busLock = true := by rw [h.busLock, hq]; rfl
  obtain ⟨c, f, i, p, hc, -⟩ := h.work.operands (by omega)
  obtain ⟨k, hw⟩ | hw := write_outcome s 1
  · rw [stepS7_ok hc hw]
    refine ⟨_, rfl, ?_⟩
    have keeps := write_wf (oeByte s.chan c) (show 3 < 256 by decide) h.memory
    by_cases hv : s.cfg.verifyEnable = true
    · exact inv_of_busStepKeeps h .s7v ⟨rfl, rfl, rfl, rfl, keeps, rfl⟩ (by omega) (if_pos hv) (by decide) hl nofun (fun _ => ⟨_, rfl⟩)
    · exact inv_of_busStepKeeps h .s8 ⟨rfl, rfl, rfl, rfl, keeps, rfl⟩ (by omega) (if_neg hv) (by decide) hl nofun nofun
  · rw [stepS7_fail hc hw]
    exact busStep_raised_good h ⟨rfl, rfl, rfl, rfl, h.memory, rfl⟩ rfl (by omega) (by omega)

theorem stepS7v_good {s : State} (h : Inv s) (hq : s.seq = .s7v) : AnswersGood (finish (stepS7v s)) := by
  have hr : s.seq.rank = 10 := by rw [hq]; rfl
  have hl : s.busLock = true := by rw [h.busLock, hq]; rfl
  obtain ⟨oe, h1⟩ := h.work.enable hq
  obtain ⟨k, b, ho⟩ | ho := read_outcome s 3
  · rw [stepS7v_ok h1 ho]
    exact ⟨_, rfl, inv_of_busStepKeeps h .s8 ⟨rfl, rfl, rfl, rfl, h.memory, rfl⟩ (by omega) rfl (by decide) hl nofun nofun⟩
  · rw [stepS7v_fail h1 ho]
    exact busStep_raised_good h ⟨rfl, rfl, rfl, rfl, h.memory, rfl⟩ rfl (by omega) (by omega)

theorem stepS8_good {s : State} (h : Inv s) (hq : s.seq = .s8) : AnswersGood (finish (stepS8 s)) := by
  have hr : s.seq.rank = 11 := by rw [hq]; rfl
  have hl : s.busLock = true := by rw [h.busLock, hq]; rfl
  obtain ⟨c, f, i, p, hc, -⟩ := h.work.operands (by omega)
  obtain ⟨k, hw⟩ | hw := write_outcome s 1
  · rw [stepS8_ok hc hw]
    exact ⟨_, rfl, inv_of_busStepKeeps h .s9 ⟨rfl, rfl, rfl, rfl, write_wf _ (by decide) h.memory, rfl⟩ (by omega) rfl (by decide) hl
      nofun nofun⟩
  · rw [stepS8_fail hc hw]
    exact busStep_raised_good h ⟨rfl, rfl, rfl, rfl, h.memory, rfl⟩ rfl (by omega) (by omega)

/-! ### The commit -/

theorem inv_commit {s : State} (h : Inv s) {c : Channel} {f : Hz} (hc : s.w.ch = some c) (hf : InRange f)
    (hs : siblingAllows s.chan c f = true) : Inv (commit c f f s) := by
  refine inv_idle (h.records.commit hf hs) (fun d => ?_) h.memory h.att h.xtal rfl rfl rfl rfl
  rw [commit_chan, channels_get_set]
  split
  · exact nofun
  · next hd => exact h.not_configuring_other hc hd

theorem stepS9_good {s : State} (h : Inv s) (hq : s.seq = .s9) : AnswersGood (finish (stepS9 s)) := by
  have hr : s.seq.rank = 12 := by rw [hq]; rfl
  obtain ⟨c, -, -, -, hc, -⟩ := h.work.operands (by omega)
  obtain ⟨f, vco, n, r, hf, hv, hn, hr', hp⟩ := h.work.plan (by omega)
  obtain ⟨hn0, hreal⟩ := realized_planned hp
  rw [stepS9_eq hc hf hv hn hr', if_neg hn0, hreal, BitVec.ofNat_toNat, BitVec.setWidth_eq]
  exact ⟨_, rfl, inv_commit h hc (h.work.range (by omega) f hf) (h.work.sibling (by omega) c f hc hf)⟩

/-! ### Every step -/

theorem seqStep_good {s : State} (h : Inv s) (hne : s.seq ≠ .idle) : AnswersGood (finish (seqStep s)) := by
  rw [seqStep]
  cases hq : s.seq with
  | idle => exact absurd hq hne
  | s1 => exact stepS1_good h hq
  | s2 => exact stepS2_good h hq
  | s3 => exact stepS3_good h hq
  | s4 => exact stepS4_good h hq
  | s5a => exact stepS5a_good h hq
  | s5b => exact stepS5b_good h hq
  | s6 => exact stepS6_good h hq
  | s6v => exact stepS6v_good h hq
  | s7 => exact stepS7_good h hq
  | s7v => exact stepS7v_good h hq
  | s8 => exact stepS8_good h hq
  | s9 => exact stepS9_good h hq

/-- With no direct call pending a good state has a next state, and it is good: a reset, a step of the sequencer, or the command port. -/
theorem step_good {s : State} (h : Inv s) (hu : s.uop = none) : AnswersGood (step s) := by
  obtain ⟨-, hs⟩ | ⟨c, -, hc, -⟩ | ⟨-, hq, hs⟩ | ⟨-, hq, hs⟩ := step_cases s
  · exact ⟨_, hs, inv_applyReset h⟩
  · rw [hu] at hc; cases hc
  · rw [hs]; exact seqStep_good h hq
  · rw [hs]; exact portStep_good h hq

/-- Settles O53: a pending direct call ends as `UnitEnds` says, and every other step answers a good state. -/
theorem everyStepKeepsTheGoodStates : Obligations.EveryStepKeepsTheGoodStates := by
  intro s t h ht
  obtain ⟨-, hs⟩ | ⟨c, -, -, hs⟩ | ⟨hquiet, -⟩ | ⟨hquiet, -⟩ := step_cases s
  · cases hs.symm.trans ht
    exact inv_applyReset h
  · exact inv_of_uopStep h c (hs.symm.trans ht)
  all_goals
    obtain ⟨u, hu, hi⟩ := step_good h hquiet.2
    cases hu.symm.trans ht
    exact hi

/-- Settles O54: the next state is the one `step_good` names. -/
theorem withoutADirectCallTheMachineNeverStops : Obligations.WithoutADirectCallTheMachineNeverStops := by
  intro s h hu
  obtain ⟨t, ht, -⟩ := step_good h hu
  exact ⟨t, ht⟩

end Sys2Proof.Machine

/-! SUPPORT. What a step leaves of the state that outlives its command, and where SEQ goes, each said once; and the statements about the state
that rest on it. -/

namespace Sys2Proof.Machine

/-! ### What outlives a step -/

/-- The parameters, the pin RST and the committed frequencies of every channel are the same. -/
structure KeepsCommitted (s t : State) : Prop where
  cfg : t.cfg = s.cfg
  rst : t.rst = s.rst
  requested : ∀ d, (t.chan.get d).requestedHz = (s.chan.get d).requestedHz
  realized : ∀ d, (t.chan.get d).realizedHz = (s.chan.get d).realizedHz

theorem KeepsCommitted.refl (s : State) : KeepsCommitted s s := ⟨rfl, rfl, fun _ => rfl, fun _ => rfl⟩

theorem KeepsCommitted.trans {s t u : State} (h : KeepsCommitted s t) (k : KeepsCommitted t u) : KeepsCommitted s u :=
  ⟨k.cfg.trans h.cfg, k.rst.trans h.rst, fun d => (k.requested d).trans (h.requested d), fun d => (k.realized d).trans (h.realized d)⟩

theorem keepsCommitted_of_unitKeeps {s t : State} (k : UnitKeeps s t) : KeepsCommitted s t :=
  ⟨k.cfg, k.rst, fun _ => by rw [k.chan], fun _ => by rw [k.chan]⟩

theorem keepsCommitted_setPhase (c : Channel) (p : Phase) (s : State) : KeepsCommitted s (setPhase c p s) :=
  ⟨rfl, rfl, fun d => setPhase_requestedHz c d p s.chan, fun d => setPhase_realizedHz c d p s.chan⟩

/-- An error that is taken is returned to a direct caller, rejects the command or aborts it (spec/60_exceptions.md R231, log 6). -/
theorem takeError_next {e : ErrorKind} {s t : State} (h : takeError e s = .next t) :
    ((s.seq = .idle ∨ s.seq = .s9) ∧ t = { s with ret := .raised e }) ∨ ∃ c, t = reject e c s ∨ t = abort e c s := by
  by_cases ho : s.seq = .idle ∨ s.seq = .s9
  · rw [takeError_outside e ho] at h
    cases h
    exact .inl ⟨ho, rfl⟩
  · right
    have hne : s.seq ≠ .idle := fun hq => ho (.inl hq)
    rcases hc : s.w.ch with _ | c
    · rw [takeError, hc] at h
      revert h ho
      cases s.seq <;> simp
    · refine ⟨c, ?_⟩
      by_cases h2 : s.seq.rank ≤ 2
      · rw [takeError_reject e hc (one_le_rank hne) h2] at h
        cases h
        exact .inl rfl
      · have h11 : s.seq.rank ≤ 11 := by
          revert ho
          cases s.seq <;> decide
        rw [takeError_abort e hc (by omega) h11] at h
        cases h
        exact .inr rfl

/-- Taking an error changes no frequency. -/
theorem takeError_keepsCommitted {e : ErrorKind} {s t : State} (h : takeError e s = .next t) : KeepsCommitted s t := by
  obtain ⟨-, rfl⟩ | ⟨c, rfl | rfl⟩ := takeError_next h
  · exact { KeepsCommitted.refl s with }
  · exact { KeepsCommitted.refl s with }
  · exact { keepsCommitted_setPhase c (.failed e) s with }

/-- A directly called micro-operation changes no frequency. -/
theorem uopStep_keepsCommitted {c : BitVec 4} {s t : State} (h : uopStep c s = .next t) : KeepsCommitted s t := by
  rw [uopStep] at h
  split at h
  · next i hi =>
    have keeps : KeepsCommitted { s with uop := none } t := by
      cases uop_ends hi { s with uop := none } with
      | next u hu k =>
        cases hu.symm.trans h
        exact keepsCommitted_of_unitKeeps k
      | error e u hu k => exact (keepsCommitted_of_unitKeeps k).trans (takeError_keepsCommitted (hu.symm.trans h))
      | fault reg hu => cases hu.symm.trans h
      | refused hu => cases hu.symm.trans h
    exact { keeps with }
  · cases h

/-! ### The command port -/

/-- While BUSY = 1 no word is accepted (spec/20_memory.md R61, U16). -/
theorem portStep_busy {s : State} {w : BitVec 64} {rest : List (BitVec 64)} (hb : s.busy = true) (hc : s.cmd = w :: rest) :
    portStep s = .fault .commandWhileBusy := by
  rw [portStep, hc]
  dsimp only
  rcases decodeCmd_cases w with ⟨r, hd⟩ | ⟨-, ⟨inv, ph, hz, hd⟩ | hd | hd⟩ <;>
    simp only [hd, hb, exec, execSetf, execGetr, execGetq, if_true]

/-- Whenever the port answers a next state it waited, answered the word, or accepted it; it is accepted exactly when it is a SETF. -/
theorem portStep_next {s t : State} (h : portStep s = .next t) :
    (s.cmd = [] ∧ t = s) ∨
    ∃ w rest, s.cmd = w :: rest ∧
      (((∀ ch inv ph hz, decodeCmd w ≠ .ok (.setf ch inv ph hz)) ∧ ∃ st hz, t = respond st (fieldCh w) false hz { s with cmd := rest }) ∨
       ∃ c inv ph hz, decodeCmd w = .ok (.setf (fieldCh w) inv ph hz) ∧ t = acceptSetf c inv ph hz { s with cmd := rest }) := by
  rcases hc : s.cmd with _ | ⟨w, rest⟩
  · rw [portStep, hc] at h
    cases h
    exact .inl ⟨rfl, rfl⟩
  refine .inr ⟨w, rest, rfl, ?_⟩
  rcases hb : s.busy with _ | _
  · rw [portStep, hc] at h
    rcases decodeCmd_cases w with ⟨r, hd⟩ | ⟨h3, hd⟩
    · simp only [hd, hb] at h
      cases h
      exact .inl ⟨fun _ _ _ _ e => (by rw [hd] at e; cases e), _, _, rfl⟩
    obtain ⟨c, hcc⟩ : ∃ c, chOfBits (fieldCh w) = some c := Option.ne_none_iff_exists'.mp fun e => h3 (chOfBits_eq_none.mp e)
    rcases hd with ⟨inv, ph, hz, hd⟩ | hd | hd
    · simp only [hd, exec, execSetf, hb, hcc] at h
      cases h
      exact .inr ⟨c, inv, ph, hz, hd, rfl⟩
    · simp only [hd, exec, execGetr, hb, hcc] at h
      cases h
      exact .inl ⟨fun _ _ _ _ e => (by rw [hd] at e; cases e), _, _, rfl⟩
    · simp only [hd, exec, execGetq, hb, hcc] at h
      cases h
      exact .inl ⟨fun _ _ _ _ e => (by rw [hd] at e; cases e), _, _, rfl⟩
  · rw [portStep_busy hb hc] at h
    cases h

theorem portStep_keepsCommitted {s t : State} (h : portStep s = .next t) : KeepsCommitted s t := by
  obtain ⟨-, rfl⟩ | ⟨w, rest, -, ⟨-, st, hz, rfl⟩ | ⟨c, inv, ph, hz, -, rfl⟩⟩ := portStep_next h
  · exact .refl _
  · exact { KeepsCommitted.refl s with }
  · exact { KeepsCommitted.refl s with }

/-! ### How the pieces of a step end -/

/-- Where a piece of an operation ends well `Q` holds of its value, where it raises `E` holds of the error and the state; it may also stop. -/
inductive Result.Ends {α : Type} (Q : α → Prop) (E : ErrorKind → State → Prop) : Result α → Prop where
  | ok {a : α} (h : Q a) : Ends Q E (.ok a)
  | raised {e : ErrorKind} {s : State} (h : E e s) : Ends Q E (.raised e s)
  | fault (q : Fault) : Ends Q E (.fault q)
  | refused (q : Refusal) : Ends Q E (.refused q)

/-- One piece after another. -/
theorem Result.Ends.bind {α β : Type} {Q : α → Prop} {R : β → Prop} {E : ErrorKind → State → Prop} {x : Result α} {f : α → Result β}
    (hx : x.Ends Q E) (hf : ∀ a, Q a → (f a).Ends R E) : (x.bind f).Ends R E := by
  cases hx with
  | ok h => exact hf _ h
  | raised h => exact .raised h
  | fault q => exact .fault q
  | refused q => exact .refused q

theorem need_ends {α : Type} {E : ErrorKind → State → Prop} (reg : WReg) (v : Option α) : (need reg v).Ends (v = some ·) E := by
  cases v with
  | none => exact .fault _
  | some a => exact .ok rfl

/-- What every piece of a step keeps, with at most `n` transactions: what outlives the step, SEQ, and the responses delivered. -/
structure StepKeeps (n : Nat) (s t : State) : Prop extends KeepsCommitted s t where
  seq : t.seq = s.seq
  uop : t.uop = s.uop
  rsp : t.rsp = s.rsp
  trace : ∃ tr, t.trace = s.trace ++ tr ∧ tr.length ≤ n

/-- A piece that issues no transaction, before one that may. -/
theorem StepKeeps.trans {n : Nat} {s t u : State} (h : StepKeeps 0 s t) (k : StepKeeps n t u) : StepKeeps n s u := by
  obtain ⟨tr, ht, hl⟩ := h.trace
  obtain rfl := List.length_eq_zero_iff.mp (Nat.le_zero.mp hl)
  obtain ⟨tr, hu, hn⟩ := k.trace
  exact { h.toKeepsCommitted.trans k.toKeepsCommitted with
    seq := k.seq.trans h.seq, uop := k.uop.trans h.uop, rsp := k.rsp.trans h.rsp
    trace := ⟨tr, by rw [hu, ht, List.append_nil], hn⟩ }

/-- Working registers, BUSLOCK and the latched operands may be written. -/
theorem stepKeeps_work (n : Nat) (s : State) (w : Work) (l : Bool) (o : UnitOperand) : StepKeeps n s { s with w := w, busLock := l, opnd := o } :=
  { KeepsCommitted.refl s with seq := rfl, uop := rfl, rsp := rfl, trace := ⟨[], (List.append_nil _).symm, Nat.zero_le n⟩ }

theorem stepKeeps_refl (n : Nat) (s : State) : StepKeeps n s s := stepKeeps_work n s s.w s.busLock s.opnd

theorem stepKeeps_setPhase (c : Channel) (p : Phase) (s : State) : StepKeeps 0 s (setPhase c p s) :=
  { keepsCommitted_setPhase c p s with seq := rfl, uop := rfl, rsp := rfl, trace := ⟨[], (List.append_nil _).symm, Nat.le_refl 0⟩ }

/-- A register operation records what it issues. -/
theorem stepKeeps_bus {n : Nat} (s : State) (xs : List Answer) (k : Nat) (tr : List Txn) (vm : Bool) (m : Memory) (h : tr.length ≤ n) :
    StepKeeps n s { s with xport := xs, draws := k, att := 0, trace := s.trace ++ tr, vm := vm, chip := m } :=
  { KeepsCommitted.refl s with seq := rfl, uop := rfl, rsp := rfl, trace := ⟨tr, rfl, h⟩ }

theorem writeTxns_length (s : State) (reg : RegAddr) (data : List Byte) (k : Nat) : (writeTxns s reg data k).length = k := by
  simp [writeTxns]

theorem readTxns_length (s : State) (reg : RegAddr) (k : Nat) : (readTxns s reg k).length = k := by
  simp [readTxns]

section Pieces

variable {E : ErrorKind → State → Prop} (s : State)

theorem cpllOp_keeps : (cpllOp s).Ends (StepKeeps 0 s) E := by
  refine .bind (need_ends _ _) fun vco _ => ?_
  split
  · exact .refused _
  · exact .ok (stepKeeps_work 0 s _ _ _)

theorem cmsOp_keeps : (cmsOp s).Ends (StepKeeps 0 s) E := by
  refine .bind (need_ends _ _) fun f _ => .bind (need_ends _ _) fun r _ => ?_
  dsimp only
  split
  · exact .ok (stepKeeps_work 0 s _ _ _)
  · refine .bind (need_ends _ _) fun vco _ => ?_
    split
    · exact .refused _
    · exact .ok (stepKeeps_work 0 s _ _ _)

theorem copyR_keeps : (copyR s).Ends (StepKeeps 0 s) E :=
  .bind (need_ends _ _) fun _ _ => .ok (stepKeeps_work 0 s _ _ _)

theorem aphoOp_keeps : (aphoOp s).Ends (StepKeeps 0 s) E :=
  .bind (need_ends _ _) fun _ _ => .bind (need_ends _ _) fun _ _ => .bind (need_ends _ _) fun _ _ => .ok (stepKeeps_work 0 s _ _ _)

theorem encpOp_keeps : (encpOp s).Ends (StepKeeps 0 s) E :=
  .bind (need_ends _ _) fun _ _ => .bind (need_ends _ _) fun _ _ => .bind (need_ends _ _) fun _ _ => .ok (stepKeeps_work 0 s _ _ _)

theorem encmOp_keeps : (encmOp s).Ends (StepKeeps 0 s) E := by
  refine .bind (need_ends _ _) fun d _ => ?_
  split
  · exact .ok (stepKeeps_work 0 s _ _ _)
  · exact .bind (need_ends _ _) fun _ _ => .bind (need_ends _ _) fun _ _ => .bind (need_ends _ _) fun _ _ =>
      .bind (need_ends _ _) fun _ _ => .ok (stepKeeps_work 0 s _ _ _)

theorem svcoOp_keeps (hE : E .noValidDivider s) : (svcoOp s).Ends (StepKeeps 0 s) E := by
  refine .bind (need_ends _ _) fun f _ => ?_
  split
  · exact .raised hE
  · exact .ok (stepKeeps_work 0 s _ _ _)

theorem wrbOp_keeps (hE : ∀ t, StepKeeps 3 s t → E .transportError t) : (wrbOp s).Ends (StepKeeps 3 s) E := by
  rcases hb : s.w.blk with _ | b
  · rw [wrbOp, getBlk, hb]; exact .fault _
  rcases write_outcome s 8 with ⟨k, h⟩ | h
  · rw [wrbOp_ok hb h]
    exact .ok (stepKeeps_bus s _ _ _ s.vm _ (by rw [writeTxns_length]; exact h.1))
  · rw [wrbOp_fail hb h]
    exact .raised (hE _ (stepKeeps_bus s _ _ _ s.vm s.chip (writeTxns_length ..).le))

theorem wr1Op_keeps (hE : ∀ t, StepKeeps 3 s t → E .transportError t) : (wr1Op s).Ends (StepKeeps 3 s) E := by
  rcases write_outcome s 1 with ⟨k, h⟩ | h
  · rw [wr1Op_ok h]
    exact .ok (stepKeeps_bus s _ _ _ s.vm _ (by rw [writeTxns_length]; exact h.1))
  · rw [wr1Op_fail h]
    exact .raised (hE _ (stepKeeps_bus s _ _ _ s.vm s.chip (writeTxns_length ..).le))

theorem vfyOp_keeps (hE : ∀ t, StepKeeps 3 s t → E .transportError t) : (vfyOp s).Ends (StepKeeps 3 s) E := by
  rcases read_outcome s s.opnd.addr with ⟨k, b, h⟩ | h
  · rw [vfyOp_ok h]
    exact .ok (stepKeeps_bus s _ _ _ _ s.chip (by rw [readTxns_length]; exact h.1))
  · rw [vfyOp_fail h]
    exact .raised (hE _ (stepKeeps_bus s _ _ _ s.vm s.chip (readTxns_length ..).le))

end Pieces

/-! ### How a step of the sequencer ends -/

/-- The value of SEQ after a step that succeeds (spec/42_coordinator.md R197). -/
def Seq.successor (verify : Bool) : Seq → Seq
  | .idle => .idle
  | .s1 => .s2
  | .s2 => .s3
  | .s3 => .s4
  | .s4 => .s5a
  | .s5a => .s5b
  | .s5b => .s6
  | .s6 => if verify then .s6v else .s7
  | .s6v => .s7
  | .s7 => if verify then .s7v else .s8
  | .s7v => .s8
  | .s8 => .s9
  | .s9 => .idle

/-- The most transactions a step issues: three attempts in each of S5A to S8, else none. -/
def maxTxns (q : Seq) : Nat := if 5 ≤ q.rank ∧ q.rank ≤ 11 then 3 else 0

/-- `t` is what step 9 leaves: the commit of the channel in `W.ch` with the request in `W.fout`. -/
def Commits (s t : State) : Prop := s.seq = .s9 ∧ ∃ c f real, s.w.ch = some c ∧ s.w.fout = some f ∧ t = commit c f real s

/-- `t` is what a step that succeeds leaves: SEQ at the next step, or after step 9 the commit. -/
def Succeeds (s t : State) : Prop :=
  (s.seq ≠ .s9 ∧ ∃ u, StepKeeps (maxTxns s.seq) s u ∧ t = { u with seq := s.seq.successor s.cfg.verifyEnable }) ∨ Commits s t

/-- `t` is a state in which a step can raise: S4 and S9 cannot. -/
def CanRaise (s : State) (_ : ErrorKind) (t : State) : Prop := s.seq ≠ .s4 ∧ s.seq ≠ .s9 ∧ StepKeeps (maxTxns s.seq) s t

/-- A step ends by advancing SEQ. -/
theorem Result.Ends.advance {s : State} {x : Result State} {q : State → Seq} (h9 : s.seq ≠ .s9)
    (hx : x.Ends (StepKeeps (maxTxns s.seq) s) (CanRaise s)) (hq : ∀ t, t.cfg = s.cfg → q t = s.seq.successor s.cfg.verifyEnable) :
    (x.bind fun t => .ok { t with seq := q t }).Ends (Succeeds s) (CanRaise s) :=
  hx.bind fun t k => .ok (.inl ⟨h9, t, k, by rw [hq t k.cfg]⟩)


/-- The same for a step that ends with its register operation, begun in a state `u` in which no transaction was issued. -/
theorem advance_bus {s u : State} {x : Result State} {q : State → Seq} (hm : maxTxns s.seq = 3) (h : StepKeeps 0 s u)
    (hx : x.Ends (StepKeeps 3 u) fun _ => StepKeeps 3 u) (hq : ∀ t, t.cfg = s.cfg → q t = s.seq.successor s.cfg.verifyEnable) :
    (x.bind fun t => .ok { t with seq := q t }).Ends (Succeeds s) (CanRaise s) := by
  have h9 : s.seq ≠ .s9 := fun e => by rw [e] at hm; cases hm
  have h4 : s.seq ≠ .s4 := fun e => by rw [e] at hm; cases hm
  have keeps {t : State} (k : StepKeeps 3 u t) : StepKeeps (maxTxns s.seq) s t := by rw [hm]; exact h.trans k
  refine .advance h9 ?_ hq
  cases hx with
  | ok k => exact .ok (keeps k)
  | raised k => exact .raised ⟨h4, h9, keeps k⟩
  | fault q => exact .fault q
  | refused q => exact .refused q

section Steps

variable {s : State}

theorem stepS1_ends (hs : s.seq = .s1) : (stepS1 s).Ends (Succeeds s) (CanRaise s) := by
  refine .bind (need_ends _ _) fun f _ => ?_
  split
  · exact .raised ⟨by rw [hs]; decide, by rw [hs]; decide, stepKeeps_refl _ s⟩
  · exact .ok (.inl ⟨by rw [hs]; decide, s, stepKeeps_refl _ s, by rw [hs]; rfl⟩)

theorem stepS2_ends (hs : s.seq = .s2) : (stepS2 s).Ends (Succeeds s) (CanRaise s) := by
  refine .bind (need_ends _ _) fun c _ => .bind (need_ends _ _) fun f _ => ?_
  split
  · exact .ok (.inl ⟨by rw [hs]; decide, s, stepKeeps_refl _ s, by rw [hs]; rfl⟩)
  · exact .raised ⟨by rw [hs]; decide, by rw [hs]; decide, stepKeeps_refl _ s⟩

theorem stepS3_ends (hs : s.seq = .s3) : (stepS3 s).Ends (Succeeds s) (CanRaise s) := by
  have h9 : s.seq ≠ .s9 := by rw [hs]; decide
  have hm : maxTxns s.seq = 0 := by rw [hs]; rfl
  refine .bind (need_ends _ _) fun c _ => .bind (need_ends _ _) fun f _ => ?_
  have hp := stepKeeps_setPhase c .configuring s
  dsimp only
  split
  · have k := stepKeeps_work 0 (setPhase c .configuring s) { s.w with vco := some (narrow32 (4 * f.toNat)), n := some 4, r := some 0 }
      s.busLock s.opnd
    exact .ok (.inl ⟨h9, _, hm ▸ hp.trans k, by rw [hs]; rfl⟩)
  · refine .bind (svcoOp_keeps _ ⟨by rw [hs]; decide, h9, hm ▸ hp⟩) fun t k => ?_
    exact .ok (.inl ⟨h9, t, hm ▸ hp.trans k, by rw [hs]; rfl⟩)

theorem stepS4_ends (hs : s.seq = .s4) : (stepS4 s).Ends (Succeeds s) (CanRaise s) := by
  have hm : maxTxns s.seq = 0 := by rw [hs]; rfl
  refine .bind (cpllOp_keeps s) fun s1 k1 => .bind (cmsOp_keeps s1) fun s2 k2 => .bind (copyR_keeps s2) fun s3 k3 =>
    .bind (aphoOp_keeps s3) fun s4 k4 => ?_
  exact .ok (.inl ⟨by rw [hs]; decide, s4, hm ▸ ((k1.trans k2).trans k3).trans k4, by rw [hs]; rfl⟩)

theorem stepS5a_ends (hs : s.seq = .s5a) : (stepS5a s).Ends (Succeeds s) (CanRaise s) := by
  refine .bind (need_ends _ _) fun c _ => .bind (encpOp_keeps _) fun s1 k => ?_
  have k' : StepKeeps 0 s s1 := (stepKeeps_work 0 s _ _ _).trans k
  exact advance_bus (by rw [hs]; rfl) (k'.trans (stepKeeps_work 0 s1 _ _ _)) (wrbOp_keeps _ fun _ => id) fun _ _ => by rw [hs]; rfl

theorem stepS5b_ends (hs : s.seq = .s5b) : (stepS5b s).Ends (Succeeds s) (CanRaise s) := by
  refine .bind (need_ends _ _) fun c _ => .bind (encmOp_keeps _) fun s1 k => ?_
  exact advance_bus (by rw [hs]; rfl) (k.trans (stepKeeps_work 0 s1 _ _ _)) (wrbOp_keeps _ fun _ => id) fun _ _ => by rw [hs]; rfl

theorem stepS6_ends (hs : s.seq = .s6) : (stepS6 s).Ends (Succeeds s) (CanRaise s) := by
  refine .bind (need_ends _ _) fun c _ => .bind (need_ends _ _) fun i _ => .bind (need_ends _ _) fun d _ => .bind (need_ends _ _) fun v _ => ?_
  exact advance_bus (by rw [hs]; rfl) (stepKeeps_work 0 s _ _ _) (wr1Op_keeps _ fun _ => id) fun _ ht => by rw [hs, ht]; rfl

theorem stepS6v_ends (hs : s.seq = .s6v) : (stepS6v s).Ends (Succeeds s) (CanRaise s) := by
  refine .bind (need_ends _ _) fun c _ => .bind (need_ends _ _) fun b _ => ?_
  exact advance_bus (by rw [hs]; rfl) (stepKeeps_work 0 s _ _ _) (vfyOp_keeps _ fun _ => id) fun _ _ => by rw [hs]; rfl

theorem stepS7_ends (hs : s.seq = .s7) : (stepS7 s).Ends (Succeeds s) (CanRaise s) := by
  refine .bind (need_ends _ _) fun c _ => ?_
  exact advance_bus (by rw [hs]; rfl) (stepKeeps_work 0 s _ _ _) (wr1Op_keeps _ fun _ => id) fun _ ht => by rw [hs, ht]; rfl

theorem stepS7v_ends (hs : s.seq = .s7v) : (stepS7v s).Ends (Succeeds s) (CanRaise s) := by
  refine .bind (need_ends _ _) fun b _ => ?_
  exact advance_bus (by rw [hs]; rfl) (stepKeeps_work 0 s _ _ _) (vfyOp_keeps _ fun _ => id) fun _ _ => by rw [hs]; rfl

theorem stepS8_ends (hs : s.seq = .s8) : (stepS8 s).Ends (Succeeds s) (CanRaise s) := by
  refine .bind (need_ends _ _) fun c _ => ?_
  exact advance_bus (by rw [hs]; rfl) (stepKeeps_work 0 s _ _ _) (wr1Op_keeps _ fun _ => id) fun _ _ => by rw [hs]; rfl

theorem stepS9_ends (hs : s.seq = .s9) : (stepS9 s).Ends (Succeeds s) (CanRaise s) := by
  refine .bind (need_ends _ _) fun c hc => .bind (need_ends _ _) fun f hf => .bind (need_ends _ _) fun vco _ =>
    .bind (need_ends _ _) fun n _ => .bind (need_ends _ _) fun r _ => ?_
  split
  · exact .refused _
  · exact .ok (.inr ⟨hs, c, f, _, hc, hf, rfl⟩)

end Steps

theorem seqStep_ends {s : State} (hne : s.seq ≠ .idle) : (seqStep s).Ends (Succeeds s) (CanRaise s) := by
  rw [seqStep]
  cases hs : s.seq with
  | idle => exact absurd hs hne
  | s1 => exact stepS1_ends hs
  | s2 => exact stepS2_ends hs
  | s3 => exact stepS3_ends hs
  | s4 => exact stepS4_ends hs
  | s5a => exact stepS5a_ends hs
  | s5b => exact stepS5b_ends hs
  | s6 => exact stepS6_ends hs
  | s6v => exact stepS6v_ends hs
  | s7 => exact stepS7_ends hs
  | s7v => exact stepS7v_ends hs
  | s8 => exact stepS8_ends hs
  | s9 => exact stepS9_ends hs

/-- Everything a step of the sequencer can do: it goes on to the next step; it takes an error, which ends the command with one response; or it
commits. -/
theorem seqStep_next {s t : State} (hne : s.seq ≠ .idle) (h : finish (seqStep s) = .next t) :
    (s.seq ≠ .s9 ∧ ∃ u, StepKeeps (maxTxns s.seq) s u ∧ t = { u with seq := s.seq.successor s.cfg.verifyEnable }) ∨
    (s.seq ≠ .s4 ∧ s.seq ≠ .s9 ∧ ∃ u e c, StepKeeps (maxTxns s.seq) s u ∧ (t = reject e c u ∨ t = abort e c u)) ∨
    Commits s t := by
  have hx := seqStep_ends hne
  generalize seqStep s = x at h hx
  cases hx with
  | ok hs =>
    cases h
    exact hs.imp_right .inr
  | raised hr =>
    obtain ⟨h4, h9, k⟩ := hr
    obtain ⟨hq | hq, -⟩ | ⟨c, ht⟩ := takeError_next h
    · exact absurd (k.seq.symm.trans hq) hne
    · exact absurd (k.seq.symm.trans hq) h9
    · exact .inr (.inl ⟨h4, h9, _, _, c, k, ht⟩)
  | fault q => cases h
  | refused q => cases h

/-- Without a reset a step keeps what outlives it, but for the commit of step 9. -/
theorem step_keepsCommitted {s t : State} (hr : s.rst = .low) (h : step s = .next t) : KeepsCommitted s t ∨ (Quiet s ∧ Commits s t) := by
  obtain ⟨hr', -⟩ | ⟨c, -, -, hs⟩ | ⟨hq, hne, hs⟩ | ⟨-, -, hs⟩ := step_cases s
  · exact absurd hr hr'
  · exact .inl (uopStep_keepsCommitted (hs.symm.trans h))
  · obtain ⟨-, u, k, rfl⟩ | ⟨-, -, u, e, c, k, rfl | rfl⟩ | hc := seqStep_next hne (hs.symm.trans h)
    · exact .inl { k.toKeepsCommitted with }
    · exact .inl { k.toKeepsCommitted with }
    · exact .inl { k.toKeepsCommitted.trans (keepsCommitted_setPhase c (.failed e) u) with }
    · exact .inr ⟨hq, hc⟩
  · exact .inl (portStep_keepsCommitted (hs.symm.trans h))

/-! ### The statements -/

/-- A commit of a good state keeps a frequency that channels 1 and 2 share: step 2 let no other pass (spec/42_coordinator.md R184). -/
theorem commit_keeps_shared {s t : State} {f : Hz} (h : Inv s) (hf : f ≠ 0) (h1 : s.chan.c1.requestedHz = f) (h2 : s.chan.c2.requestedHz = f)
    (hc : Commits s t) : t.chan.c1.requestedHz = f ∧ t.chan.c2.requestedHz = f := by
  obtain ⟨hs, c, g, real, hch, hg, rfl⟩ := hc
  have allowed : siblingAllows s.chan c g = true := h.work.sibling (by rw [hs]; decide) c g hch hg
  cases c with
  | ch0 => exact ⟨h1, h2⟩
  | ch1 =>
    obtain hz | rfl := (siblingAllows_iff (c := .ch1) (o := .ch2) rfl).mp allowed
    · exact absurd (h2.symm.trans hz) hf
    · exact ⟨h2, h2⟩
  | ch2 =>
    obtain hz | rfl := (siblingAllows_iff (c := .ch2) (o := .ch1) rfl).mp allowed
    · exact absurd (h1.symm.trans hz) hf
    · exact ⟨h1, h1⟩

/-- Settles O60: the good states in which channels 1 and 2 both hold `f`, with the pin RST low, are kept by every step. -/
theorem channelsOneAndTwoAreLockedIn : Obligations.ChannelsOneAndTwoAreLockedIn := by
  intro s f hi hr hf h1 h2 k t ht
  have locked := run_keeps (P := fun u => Inv u ∧ u.rst = .low ∧ u.chan.c1.requestedHz = f ∧ u.chan.c2.requestedHz = f) ?_ k
    ⟨hi, hr, h1, h2⟩ ht
  · exact locked.2.2
  · rintro a b ⟨ha, hlow, e1, e2⟩ hb
    refine ⟨everyStepKeepsTheGoodStates a b ha hb, ?_⟩
    obtain keeps | ⟨-, hc⟩ := step_keepsCommitted hlow hb
    · exact ⟨keeps.rst.trans hlow, (keeps.requested .ch1).trans e1, (keeps.requested .ch2).trans e2⟩
    · refine ⟨?_, commit_keeps_shared ha hf e1 e2 hc⟩
      obtain ⟨-, c, g, real, -, -, rfl⟩ := hc
      exact hlow

/-- Settles O58: only the commit of step 9 writes a frequency, and only its own channel's. -/
theorem committedFrequenciesChangeOnlyAtCommit : Obligations.CommittedFrequenciesChangeOnlyAtCommit := by
  intro s t h
  by_cases hr : s.rst = .low
  · obtain keeps | ⟨hq, hs, c, f, real, hc, -, rfl⟩ := step_keepsCommitted hr h
    · exact ⟨keeps.cfg, fun _ d _ => ⟨keeps.requested d, keeps.realized d⟩⟩
    · refine ⟨rfl, fun _ d hd => ?_⟩
      have hne : d ≠ c := by
        rintro rfl
        exact hd.elim (absurd hs) (Or.elim · (absurd hq.2) (absurd hc))
      rw [commit_chan, channels_get_set_other _ _ _ _ hne]
      exact ⟨rfl, rfl⟩
  · rw [step, if_pos hr] at h
    cases h
    exact ⟨rfl, fun h => absurd h hr⟩

/-- Settles O51: in IDLE the port decides; from S1 on a step goes on, or its error or commit ends the command. -/
theorem successorsOfTheStepRegister : Obligations.SuccessorsOfTheStepRegister := by
  intro s t hq h
  by_cases hs : s.seq = .idle
  · refine ⟨fun _ => ?_, ?_⟩
    · rw [step_of_idle hq hs] at h
      obtain ⟨hc, rfl⟩ | ⟨w, rest, hc, ⟨hd, st, hz, rfl⟩ | ⟨c, inv, ph, hz, hd, rfl⟩⟩ := portStep_next h
      · exact .inr ⟨hs, fun w rest _ _ _ _ e => by rw [hc] at e; cases e⟩
      · refine .inr ⟨hs, fun w' rest' ch inv ph hz e => ?_⟩
        cases hc.symm.trans e
        exact hd ch inv ph hz
      · exact .inl ⟨rfl, w, rest, _, inv, ph, hz, hc, hd⟩
    · rw [hs]
      exact ⟨nofun, nofun, nofun, nofun, nofun, nofun, nofun, nofun, nofun, nofun, nofun, nofun⟩
  · have next : (s.seq ≠ .s9 ∧ t.seq = s.seq.successor s.cfg.verifyEnable) ∨ (s.seq ≠ .s4 ∧ t.seq = .idle) := by
      rw [step_of_quiet hq hs] at h
      obtain ⟨h9, u, -, rfl⟩ | ⟨h4, -, u, e, c, -, rfl | rfl⟩ | ⟨h9, c, f, real, -, -, rfl⟩ := seqStep_next hs h
      · exact .inl ⟨h9, rfl⟩
      · exact .inr ⟨h4, rfl⟩
      · exact .inr ⟨h4, rfl⟩
      · exact .inr ⟨by rw [h9]; decide, rfl⟩
    refine ⟨fun e => absurd e hs, ?_⟩
    revert next
    cases s.seq <;> simp [Seq.successor]

end Sys2Proof.Machine

/-! SUPPORT. Waiting, reset, and what a micro-operation needs of the working registers. -/

namespace Sys2Proof.Machine

/-! ### Waiting and reset -/

/-- Settles O8: the port of an idle block is empty. -/
theorem idleBlockWaits : Obligations.IdleBlockWaits := by
  intro s hq hs hc
  rw [step_of_idle hq hs, portStep, hc]

/-- Settles O7: `withFetchWord` puts the word where a quiet idle block, or the direct-call latch, is read next. -/
theorem placedWordRunsNext : Obligations.PlacedWordRunsNext := by
  intro s w i
  constructor
  · intro h
    have hd : decodeCmd (BitVec.ofNat 64 w) = .ok i := by
      revert h
      simp only [decodeTableWord, codeOfTableWord, Nat.lt_irrefl, if_false, decode]
      cases decodeCmd (BitVec.ofNat 64 w) <;> simp
    rw [step_of_idle ⟨rfl, rfl⟩ rfl]
    simp [portStep, State.withFetchWord, codeOfTableWord, hd]
  · intro h
    have hd : decodeUop (BitVec.ofNat 4 w) = .ok i := by
      revert h
      simp only [decodeTableWord, codeOfTableWord, if_pos (show 8 < 64 by decide), decode]
      cases decodeUop (BitVec.ofNat 4 w) <;> simp
    simp [step, uopStep, State.withFetchWord, codeOfTableWord, hd]

/-- Settles O9: the fields of the reset state, read off. -/
theorem resetStateIsTheSpecs : Obligations.ResetStateIsTheSpecs := by
  refine ⟨fun c => ?_, rfl, rfl, rfl, rfl, rfl, rfl, fun _ => rfl, rfl, rfl, rfl, rfl, rfl, rfl, rfl, rfl, rfl⟩
  cases c <;> exact ⟨rfl, rfl, rfl⟩

/-- Settles O52: in IDLE, with the records of reset and no working register written. -/
theorem resetStateIsGood : Obligations.ResetStateIsGood := by
  refine inv_idle recordsInv_reset (fun c => ?_) rfl rfl (by unfold XtalLegal; decide) rfl rfl rfl rfl
  cases c <;> exact nofun

/-- The registers an 8-bit pointer runs through. -/
theorem mem_addrsFrom {a n : Nat} {reg : RegAddr} : a ∈ addrsFrom reg n ↔ ∃ i, i < n ∧ a = (reg.toNat + i) % 256 := by
  simp [addrsFrom, eq_comm]

theorem mem_addrsFrom_one {a : Nat} {reg : RegAddr} : a ∈ addrsFrom reg 1 ↔ a = reg.toNat := by
  rw [mem_addrsFrom]
  constructor
  · rintro ⟨i, hi, rfl⟩
    omega
  · rintro rfl
    exact ⟨0, by decide, by omega⟩

theorem regClk_toNat (c : Channel) : (regClk c).toNat = 16 + chNum c := by cases c <;> rfl

theorem msBase_toNat (c : Channel) : (msBase c).toNat = 42 + 8 * chNum c := by cases c <;> rfl

theorem chNum_le (c : Channel) : chNum c ≤ 2 := by cases c <;> decide

theorem pllBase_pllSrc (p : Params) (c : Channel) : pllBase p (pllSrc c) = if c = .ch0 then p.pllbBase else 26 := by cases c <;> rfl

/-- The registers of a MultiSynth block lie inside the register space. -/
theorem mem_addrsFrom_msBase {a : Nat} {c : Channel} : a ∈ addrsFrom (msBase c) 8 ↔ 42 + 8 * chNum c ≤ a ∧ a < 50 + 8 * chNum c := by
  have := chNum_le c
  rw [mem_addrsFrom, msBase_toNat]
  constructor
  · rintro ⟨i, hi, rfl⟩
    omega
  · rintro ⟨h1, h2⟩
    exact ⟨a - (42 + 8 * chNum c), by omega, by omega⟩

/-- The registers the transaction of a SETF's step addresses (spec/70_reset_and_hazards.md R262, spec/42_coordinator.md R190 to R193). -/
theorem mem_addressed {s : State} {c : Channel} (hu : s.uop = none) (hc : s.w.ch = some c) (a : Nat) :
    a ∈ addressed s ↔
      (s.seq = .s5a ∧ ∃ i, i < 8 ∧ a = ((if c = .ch0 then s.cfg.pllbBase else 26).toNat + i) % 256) ∨
      (s.seq = .s5b ∧ 42 + 8 * chNum c ≤ a ∧ a < 50 + 8 * chNum c) ∨
      ((s.seq = .s6 ∨ s.seq = .s6v) ∧ a = 16 + chNum c) ∨ ((s.seq = .s7 ∨ s.seq = .s7v) ∧ a = 3) ∨ (s.seq = .s8 ∧ a = 177) := by
  rw [addressed, hu, hc, ← pllBase_pllSrc, ← mem_addrsFrom, ← mem_addrsFrom_msBase, ← regClk_toNat, ← mem_addrsFrom_one,
    ← show (regOe).toNat = 3 from rfl, ← mem_addrsFrom_one, ← show (regRst).toNat = 177 from rfl, ← mem_addrsFrom_one]
  cases s.seq <;> simp

/-- Settles O10: `applyReset` is the state of reset but for the ports, the parameters and the chip. -/
theorem resetAbandonsTheCommand : Obligations.ResetAbandonsTheCommand := by
  intro s hr hm
  refine ⟨applyReset s, by rw [step, if_pos hr], rfl, rfl, rfl, rfl, rfl, rfl, rfl, rfl, rfl, rfl, rfl, rfl, rfl, fun h => ?_,
    fun h hu c hc a => ?_⟩
  · simp [applyReset, h]
  · have hchip : (applyReset s).chip = s.chip.forgetAll (addressed s) := by simp [applyReset, h]
    rw [hchip, read_forgetAll _ _ hm, ← mem_addressed hu hc a]
    exact ⟨fun hit => if_pos hit, fun hit => if_neg hit⟩

/-! ### Unwritten working registers -/

/-- The piece faults on a read of an unwritten working register (spec/10_state.md R24). -/
def Result.Faults {α : Type} (x : Result α) : Prop := ∃ reg, x = .fault (.unwrittenRegister reg)

/-- A read faults, unless the register holds a value and what follows faults. -/
theorem Result.Faults.need {α β : Type} {reg : WReg} {v : Option α} {f : α → Result β} (h : ∀ a, v = some a → (f a).Faults) :
    ((need reg v).bind f).Faults := by
  cases v with
  | none => exact ⟨reg, rfl⟩
  | some a => exact h a rfl

theorem Result.Faults.bind {α β : Type} {x : Result α} {f : α → Result β} (h : x.Faults) : (x.bind f).Faults := by
  obtain ⟨reg, rfl⟩ := h
  exact ⟨reg, rfl⟩

theorem Result.Faults.finish {x : Result State} (h : x.Faults) : ∃ reg, finish x = .fault (.unwrittenRegister reg) := by
  obtain ⟨reg, rfl⟩ := h
  exact ⟨reg, rfl⟩

theorem Result.Faults.finishUnit {x : Result State} (h : x.Faults) : ∃ reg, finishUnit x = .fault (.unwrittenRegister reg) :=
  h.bind.finish

/-- Settles O30: each operation reads the registers in turn, and what follows an unwritten one is not run. -/
theorem unwrittenRegisterFaults : Obligations.UnwrittenRegisterFaults := by
  rintro s i (⟨rfl, h⟩ | ⟨rfl, h⟩ | ⟨rfl, h⟩ | ⟨rfl, h⟩ | ⟨rfl, h⟩ | ⟨rfl, h⟩ | ⟨rfl, h⟩ | ⟨rfl | rfl, h⟩)
  · exact Result.Faults.finishUnit (.need fun vco hv => by simp [h] at hv)
  · refine Result.Faults.finishUnit (.need fun f hf => .need fun r hr => ?_)
    obtain h | h | ⟨f', r', hf', hr', hle, hv⟩ := h
    · simp [h] at hf
    · simp [h] at hr
    cases hf.symm.trans hf'
    cases hr.symm.trans hr'
    have hd : ¬ isDivBy4 (f.toNat * 2 ^ r.toNat) = true := by simp [isDivBy4]; omega
    dsimp only
    rw [if_neg hd]
    exact .need fun vco hv' => by simp [hv] at hv'
  · exact Result.Faults.finish (.bind (.need fun vco hv => .need fun f hf => by simp [hv, hf] at h))
  · exact Result.Faults.finishUnit (.need fun f hf => by simp [h] at hf)
  · exact Result.Faults.finishUnit (.need fun p1 h1 => .need fun ph h2 => .need fun d h3 => by simp [h1, h2, h3] at h)
  · exact Result.Faults.finishUnit (.need fun p1 h1 => .need fun p2 h2 => .need fun p3 h3 => by simp [h1, h2, h3] at h)
  · refine Result.Faults.finishUnit (.need fun d hd => ?_)
    obtain h | ⟨h0, h⟩ := h
    · simp [h] at hd
    cases hd.symm.trans h0
    rw [if_neg (by decide)]
    exact .need fun p1 h1 => .need fun p2 h2 => .need fun p3 h3 => .need fun r h4 => by simp [h1, h2, h3, h4] at h
  · exact Result.Faults.finish (.need fun b hb => by simp [h] at hb)
  · exact Result.Faults.finishUnit (.need fun b hb => by simp [h] at hb)

/-! ### Integer mode -/

/-- Where an operation that cannot raise answers a next state, what holds of its result holds there, but for the model's own `ret`. -/
theorem finishUnit_next {Q : State → Prop} {x : Result State} {t : State} (hx : x.Ends Q fun _ _ => False) (h : finishUnit x = .next t) :
    ∃ u, Q u ∧ t = { u with ret := .done } := by
  cases hx with
  | ok hu =>
    cases h
    exact ⟨_, hu, rfl⟩
  | raised hf => exact hf.elim
  | fault q => cases h
  | refused q => cases h

/-- FRAC's `integerMode` as its registers show it (spec/10_state.md R29): in fractional mode `P3` is 2^20. -/
theorem frac_int {num den : Nat} {p : FracParams} (h : frac num den = some p) :
    p.int = (BitVec.ofNat 20 p.p2 == 0 && BitVec.ofNat 21 p.p3 == 1) := by
  rw [frac_eq] at h
  split at h
  · cases h
  split at h
  · obtain rfl := Option.some.inj h
    rfl
  · obtain rfl := Option.some.inj h
    simp

theorem cpllOp_int {E : ErrorKind → State → Prop} (s : State) : (cpllOp s).Ends
    (fun t => ∃ p2 p3, t.w.pllP2 = some p2 ∧ t.w.pllP3 = some p3 ∧ t.w.pllInt = some (p2 == 0 && p3 == 1)) E := by
  refine .bind (need_ends _ _) fun vco _ => ?_
  split
  · exact .refused _
  · next p hp => exact .ok ⟨_, _, rfl, rfl, congrArg some (frac_int hp)⟩

theorem cmsOp_int {E : ErrorKind → State → Prop} (s : State) : (cmsOp s).Ends
    (fun t => ∃ p2 p3, t.w.msP2 = some p2 ∧ t.w.msP3 = some p3 ∧ t.w.msInt = some (p2 == 0 && p3 == 1)) E := by
  refine .bind (need_ends _ _) fun f _ => .bind (need_ends _ _) fun r _ => ?_
  dsimp only
  split
  · exact .ok ⟨0, 1, rfl, rfl, rfl⟩
  · refine .bind (need_ends _ _) fun vco _ => ?_
    split
    · exact .refused _
    · next p hp => exact .ok ⟨_, _, rfl, rfl, congrArg some (frac_int hp)⟩

theorem aphoOp_int {E : ErrorKind → State → Prop} (s : State) : (aphoOp s).Ends
    (fun t => t.w.msP2 = s.w.msP2 ∧ t.w.msP3 = s.w.msP3 ∧ t.w.msInt = s.w.msInt) E :=
  .bind (need_ends _ _) fun _ _ => .bind (need_ends _ _) fun _ _ => .bind (need_ends _ _) fun _ _ => .ok ⟨rfl, rfl, rfl⟩

/-- Settles O28: CPLL and CMS write what FRAC returns or the fixed divide-by-4 encoding; APHO writes `P1` alone. -/
theorem integerModeMeansP2ZeroP3One : Obligations.IntegerModeMeansP2ZeroP3One := by
  refine ⟨fun s t h => ?_, fun s t h => ?_, fun s t h => ?_⟩
  · obtain ⟨u, hu, rfl⟩ := finishUnit_next (cpllOp_int s) h
    exact hu
  · obtain ⟨u, hu, rfl⟩ := finishUnit_next (cmsOp_int s) h
    exact hu
  · obtain ⟨u, hu, rfl⟩ := finishUnit_next (aphoOp_int s) h
    exact hu

/-! ### The end of a SETF -/

/-- A response word on a channel, by the arithmetic of spec/30_encoding.md R86. -/
theorem rspWord_channel (st : BitVec 4) (c : Channel) (vm : Bool) (hz : Hz) :
    rspWord st (chBits c) vm hz = respWord st.toNat (chNum c) vm hz.toNat := by
  rw [rspWord_eq, respWord]
  cases c <;> rfl

/-- Settles O49: on what step 3 leaves, the realized frequency is the request by `realized_planned`. -/
theorem stepNineCommits : Obligations.StepNineCommits := by
  intro s c f vco n r hq hs hc hf hv hn hr hn0
  refine ⟨?_, fun hp => (realized_planned hp).2⟩
  have hreal : (BitVec.ofNat 32 (realized vco.toNat n.toNat r.toNat)).toNat = realized vco.toNat n.toNat r.toNat := by
    have h1 := Nat.div_le_self (vco.toNat / n.toNat) (2 ^ r.toNat)
    have h2 := Nat.div_le_self vco.toNat n.toNat
    exact (BitVec.toNat_ofNat ..).trans (Nat.mod_eq_of_lt (lt_of_le_of_lt (h1.trans h2) vco.isLt))
  rw [step_of_quiet hq (by rw [hs]; decide), seqStep, hs]
  dsimp only
  rw [stepS9_eq hc hf hv hn hr, if_neg hn0]
  simp only [finish, commit, release, respond, rspWord_channel, hreal]
  rfl

/-- The most transactions a SETF at a value of SEQ still issues. -/
def txnBudget (q : Seq) : Nat := 3 * (12 - max 5 q.rank)

theorem rank_le (q : Seq) : q.rank ≤ 12 := by cases q <;> decide

theorem maxTxns_le_budget {q : Seq} : maxTxns q ≤ txnBudget q := by cases q <;> decide

/-- What a step spends is taken from what is left. -/
theorem budget_successor {q : Seq} (v : Bool) (h : q ≠ .idle) (h9 : q ≠ .s9) : maxTxns q + txnBudget (q.successor v) ≤ txnBudget q := by
  revert h h9
  cases q <;> cases v <;> decide

theorem rank_lt_successor {q : Seq} (v : Bool) (h : q ≠ .idle) (h9 : q ≠ .s9) : q.rank < (q.successor v).rank := by
  revert h h9
  cases q <;> cases v <;> decide

/-- One step of a SETF in a good state: it goes on without a response, or ends with one. -/
theorem step_of_setf {s : State} (hi : Inv s) (hq : Quiet s) (hne : s.seq ≠ .idle) :
    ∃ t tr, step s = .next t ∧ Inv t ∧ t.trace = s.trace ++ tr ∧
      ((Quiet t ∧ s.seq.rank < t.seq.rank ∧ t.rsp = s.rsp ∧ tr.length + txnBudget t.seq ≤ txnBudget s.seq) ∨
       (t.seq = .idle ∧ (∃ r, t.rsp = s.rsp ++ [r]) ∧ tr.length ≤ txnBudget s.seq)) := by
  obtain ⟨t, ht, hit⟩ := step_good hi hq.2
  have ended {u : State} (k : StepKeeps (maxTxns s.seq) s u) : ∃ tr, u.trace = s.trace ++ tr ∧ tr.length ≤ txnBudget s.seq :=
    k.trace.imp fun _ h => ⟨h.1, h.2.trans maxTxns_le_budget⟩
  obtain ⟨h9, u, k, rfl⟩ | ⟨-, -, u, e, c, k, rfl | rfl⟩ | ⟨-, c, f, real, -, -, rfl⟩ :=
    seqStep_next hne ((step_of_quiet hq hne).symm.trans ht)
  · obtain ⟨tr, htr, hl⟩ := k.trace
    have hb := budget_successor s.cfg.verifyEnable hne h9
    exact ⟨_, tr, ht, hit, htr, .inl ⟨⟨k.rst.trans hq.1, k.uop.trans hq.2⟩, rank_lt_successor _ hne h9, k.rsp, by dsimp only; omega⟩⟩
  · obtain ⟨tr, htr, hl⟩ := ended k
    exact ⟨_, tr, ht, hit, htr, .inr ⟨rfl, ⟨_, by rw [reject_rsp, k.rsp]⟩, hl⟩⟩
  · obtain ⟨tr, htr, hl⟩ := ended k
    exact ⟨_, tr, ht, hit, htr, .inr ⟨rfl, ⟨_, by rw [abort_rsp, k.rsp]⟩, hl⟩⟩
  · exact ⟨_, [], ht, hit, (List.append_nil _).symm, .inr ⟨rfl, ⟨_, commit_rsp ..⟩, Nat.zero_le _⟩⟩

/-- A SETF ends within the steps left to it, by induction on their number. -/
theorem setf_ends (m : Nat) {s : State} (hi : Inv s) (hq : Quiet s) (hne : s.seq ≠ .idle) (hm : 13 ≤ s.seq.rank + m) :
    ∃ k t r tr, k ≤ m ∧ run k s = .next t ∧ Inv t ∧ t.seq = .idle ∧ t.rsp = s.rsp ++ [r] ∧ t.trace = s.trace ++ tr ∧
      tr.length ≤ txnBudget s.seq := by
  induction m generalizing s with
  | zero => exact absurd (rank_le s.seq) (by omega)
  | succ m ih =>
    obtain ⟨t, tr, ht, hit, htr, ⟨hqt, hlt, hrsp, hl⟩ | ⟨hidle, ⟨r, hr⟩, hl⟩⟩ := step_of_setf hi hq hne
    · have hnt : t.seq ≠ .idle := fun e => by rw [e] at hlt; exact absurd hlt (Nat.not_lt_zero _)
      obtain ⟨k, u, r, tr', hk, hu, hiu, hidle, hr, htr', hl'⟩ := ih hit hqt hnt (by omega)
      exact ⟨k + 1, u, r, tr ++ tr', by omega, (run_succ_next k ht).trans hu, hiu, hidle, by rw [hr, hrsp],
        by rw [htr', htr, List.append_assoc], by rw [List.length_append]; omega⟩
    · exact ⟨1, t, r, tr, by omega, run_succ_next 0 ht, hit, hidle, hr, htr, hl⟩

/-- Settles O55: at S1 twelve steps and 21 transactions are left, later fewer; in IDLE a good state has nothing locked and nothing written. -/
theorem everySetfEnds : Obligations.EverySetfEnds := by
  intro s hi hq hne
  obtain ⟨k, t, r, tr, hk, ht, hit, hidle, hr, htr, hl⟩ := setf_ends 12 hi hq hne (by have := one_le_rank hne; omega)
  exact ⟨k, t, r, hk, ht, hidle, hit.work.ended hidle, by rw [hit.busy, hidle]; rfl, by rw [hit.busLock, hidle]; rfl, hr, tr, htr,
    hl.trans (by rw [txnBudget]; omega)⟩

end Sys2Proof.Machine

/-! SUPPORT. The two ways through S5A to S8: a step all of whose attempts fail, and a whole SETF answered `ok` at once. -/

namespace Sys2Proof.Machine

/-! ### Three failed attempts -/

/-- The record of three failed attempts at one transaction (spec/41_register_protocol.md R160). -/
def FailedAttempts (tr : List Txn) : Prop :=
  ∃ x y z, tr = [x, y, z] ∧ x.ok = false ∧ y.ok = false ∧ z.ok = false ∧ x.frame = y.frame ∧ y.frame = z.frame

theorem writeTxn_not_ok {s : State} {reg : RegAddr} {data : List Byte} {j : Nat} (h : ¬ WriteOk s data.length j) :
    Txn.ok ⟨s.cfg.chipAddr, reg, .write data, writeAnswer (answerToWrite (oracle s j) (data.length + 1))⟩ = false := by
  rw [WriteOk] at h
  cases hw : answerToWrite (oracle s j) (data.length + 1) with
  | none => rfl
  | some n =>
    rw [hw] at h
    simpa [Txn.ok, writeAnswer] using h

theorem writeTxns_failed {s : State} (reg : RegAddr) (data : List Byte) (h : WritesFail s data.length) :
    FailedAttempts (writeTxns s reg data 3) :=
  ⟨_, _, _, rfl, writeTxn_not_ok (h 0 (by decide)), writeTxn_not_ok (h 1 (by decide)), writeTxn_not_ok (h 2 (by decide)), rfl, rfl⟩

theorem readTxn_not_ok {s : State} {reg : RegAddr} {j : Nat} (h : readOracle s reg j = none) :
    Txn.ok ⟨s.cfg.chipAddr, reg, .read 1, readAnswer (readOracle s reg j)⟩ = false := by
  rw [h]
  rfl

theorem readTxns_failed {s : State} (reg : RegAddr) (h : ReadsFail s reg) : FailedAttempts (readTxns s reg 3) :=
  ⟨_, _, _, rfl, readTxn_not_ok (h 0 (by decide)), readTxn_not_ok (h 1 (by decide)), readTxn_not_ok (h 2 (by decide)), rfl, rfl⟩

/-- A read answered Error at every attempt fails, whichever register it is of. -/
theorem readsFail_of_error {s : State} (reg : RegAddr) (h : ∀ j, j < 3 → ∃ x, oracle s j = .reply x none) : ReadsFail s reg := by
  intro j hj
  obtain ⟨x, hx⟩ := h j hj
  rw [readOracle, hx]

/-- The step in progress raises TransportError: its three failed attempts are recorded, and `W.ch` still holds `c`. -/
def RaisesAfterFailures (c : Channel) (s : State) (x : Result State) : Prop :=
  ∃ l xs k o w tr,
    x = .raised .transportError { s with busLock := l, att := 0, xport := xs, draws := k, opnd := o, w := w, trace := s.trace ++ tr } ∧
    w.ch = some c ∧ FailedAttempts tr

/-- A step of a good state from S5A to S8 with all attempts failing: its operands are written, so it gets as far as the Transport. -/
theorem seqStep_fails {s : State} {c : Channel} (hi : Inv s) (hc : s.w.ch = some c)
    (h : (s.seq = .s5a ∨ s.seq = .s5b) ∧ WritesFail s 8 ∨ (s.seq = .s6 ∨ s.seq = .s7 ∨ s.seq = .s8) ∧ WritesFail s 1 ∨
      (s.seq = .s6v ∨ s.seq = .s7v) ∧ ∀ j, j < 3 → ∃ x, oracle s j = .reply x none) :
    5 ≤ s.seq.rank ∧ s.seq.rank ≤ 11 ∧ RaisesAfterFailures c s (seqStep s) := by
  rw [seqStep]
  obtain ⟨hs | hs, hw⟩ | ⟨hs | hs | hs, hw⟩ | ⟨hs | hs, ho⟩ := h
  · obtain ⟨p1, p2, p3, h1, h2, h3⟩ := hi.work.pll (by rw [hs]; decide)
    rw [hs]
    exact ⟨by decide, by decide, _, _, _, _, _, _, stepS5a_fail hc h1 h2 h3 hw, hc, writeTxns_failed _ _ hw⟩
  · obtain ⟨p1, p2, p3, i, d, r, h1, h2, h3, -, h4, h5⟩ := hi.work.ms (by rw [hs]; decide)
    rw [hs]
    exact ⟨by decide, by decide, _, _, _, _, _, _, stepS5b_fail hc (encmOp_ok h1 h2 h3 h4 h5) hw, hc, writeTxns_failed _ _ hw⟩
  · obtain ⟨-, -, inv, -, -, -, hinv, -⟩ := hi.work.operands (by rw [hs]; decide)
    obtain ⟨-, -, -, int, d, -, -, -, -, hint, hd, -⟩ := hi.work.ms (by rw [hs]; decide)
    rw [hs]
    exact ⟨by decide, by decide, _, _, _, _, _, _, stepS6_fail hc hint hd hinv hw, hc, writeTxns_failed _ _ hw⟩
  · rw [hs]
    exact ⟨by decide, by decide, _, _, _, _, _, _, stepS7_fail hc hw, hc, writeTxns_failed _ _ hw⟩
  · rw [hs]
    exact ⟨by decide, by decide, _, _, _, _, _, _, stepS8_fail hc hw, hc, writeTxns_failed _ _ hw⟩
  · obtain ⟨b, hb⟩ := hi.work.control hs
    have hr := readsFail_of_error (regClk c) ho
    rw [hs]
    exact ⟨by decide, by decide, _, _, _, _, _, _, stepS6v_fail hc hb hr, hc, readTxns_failed _ hr⟩
  · obtain ⟨b, hb⟩ := hi.work.enable hs
    have hr := readsFail_of_error 3 ho
    rw [hs]
    exact ⟨by decide, by decide, _, _, _, _, _, _, stepS7v_fail hb hr, hc, readTxns_failed _ hr⟩

/-- Settles O50: what `seqStep_fails` raises is aborted. -/
theorem transportFailureAborts : Obligations.TransportFailureAborts := by
  intro s c hi hq hc h
  obtain ⟨h5, h11, l, xs, k, o, w, tr, hstep, hw, x, y, z, rfl, hx, hy, hz, hxy, hyz⟩ := seqStep_fails hi hc h
  have hne : s.seq ≠ .idle := fun e => by rw [e] at h5; exact absurd h5 (by decide)
  refine ⟨_, x, y, z, (step_of_quiet hq hne).trans ((congrArg finish hstep).trans
    (takeError_abort (c := c) _ hw (Nat.le_trans (by decide) h5) h11)), rfl, rfl, rfl, rfl, rfl, rfl, rfl, rfl, rfl, rfl,
    hx, hy, hz, hxy, hyz, ?_, rfl⟩
  rw [abort_rsp, rspWord_channel]
  rfl

end Sys2Proof.Machine

/-! SUPPORT. A whole SETF whose transactions are all answered `ok` at once. -/

namespace Sys2Proof.Machine

/-! ### Acceptance and planning: the steps before S5A -/

theorem chOfBits_chNum (c : Channel) : chOfBits (BitVec.ofNat 2 (chNum c)) = some c := by cases c <;> rfl

/-- A SETF presented to a ready block is accepted (spec/42_coordinator.md R182). -/
theorem step_accepts {s : State} {c : Channel} {inv : Bool} {ph : BitVec 16} {f : Hz} {rest : List (BitVec 64)} (hr : Ready s)
    (hcmd : s.cmd = packCmd 1 (BitVec.ofNat 2 (chNum c)) inv ph f :: rest) :
    step s = .next (acceptSetf c inv ph f { s with cmd := rest }) := by
  obtain ⟨hq, hs, hb⟩ := hr
  have hl : channelLegal (BitVec.ofNat 2 (chNum c)) = true := by cases c <;> rfl
  have hd : decodeCmd (packCmd 1 (BitVec.ofNat 2 (chNum c)) inv ph f) = .ok (.setf (BitVec.ofNat 2 (chNum c)) inv ph f) := by
    rw [packCmd_eq, decodeCmd_cmdWord, if_pos ⟨rfl, rfl⟩, if_pos hl]
    cases inv <;> rfl
  rw [step_of_idle hq hs, portStep, hcmd]
  simp only [hd, exec, execSetf, hb, chOfBits_chNum]
  rfl

/-- What step 3 does with a frequency step 1 passed: the plan it writes is the search's up to 150 MHz (spec/42_coordinator.md R187). -/
theorem stepS3_searches {s : State} {c : Channel} {f : Hz} (hc : s.w.ch = some c) (hf : s.w.fout = some f) (hin : InRange f) :
    ∃ vco n r, Planned f vco n r ∧ (f.toNat ≤ 150000000 → searchVco f.toNat = some (vco.toNat, n.toNat, r.toNat)) ∧
      stepS3 s = .ok { s with
        seq := .s4, chan := s.chan.set c { s.chan.get c with phase := .configuring }
        w := { s.w with vco := some vco, n := some n, r := some r } } := by
  obtain ⟨hlo, hhi⟩ := hin
  by_cases hd : f.toNat ≤ 150000000
  · obtain ⟨v, n, r, hs⟩ := searchVco_isSome hlo hd
    obtain ⟨rfl, ⟨-, h2, h3, -, h5⟩, -, -⟩ := searchVco_some hs
    refine ⟨_, _, _, planned_search hd hs, fun _ => ?_, stepS3_search hc hf hd hs⟩
    rw [hs, BitVec.toNat_ofNat, BitVec.toNat_ofNat, BitVec.toNat_ofNat, Nat.mod_eq_of_lt (by omega), Nat.mod_eq_of_lt (by omega),
      Nat.mod_eq_of_lt (by omega)]
  · exact ⟨_, _, _, planned_div4 (by omega) hhi, fun h => absurd h hd, stepS3_div4 hc hf (by omega) hhi⟩

/-- The working registers after step 4, from those after acceptance (spec/42_coordinator.md R187 to R189). -/
def plannedWork (w : Work) (ph : BitVec 16) (f vco : Hz) (n : BitVec 11) (r : BitVec 3) (p : FracParams) : Work :=
  { w with
    vco := some vco, n := some n, r := some r
    pllP1 := some (narrow32 p.p1), pllP2 := some (BitVec.ofNat 20 p.p2), pllP3 := some (BitVec.ofNat 21 p.p3), pllInt := some p.int
    msP1 := some (BitVec.ofNat 32 (if decide (150000000 < f.toNat) then 128 * min ph.toNat 1
      else 128 * n.toNat - 512 + 128 * min ph.toNat 127))
    msP2 := some 0, msP3 := some 1, msInt := some true, msDiv4 := some (decide (150000000 < f.toNat)), msR := some r }

/-- From S1 a legal SETF is at S5A after four steps, its channel Configuring and its parameters planned. -/
theorem run_plans {s : State} {c : Channel} {ph : BitVec 16} {f : Hz} (hx : XtalLegal s.cfg) (hq : Quiet s) (hs : s.seq = .s1)
    (hc : s.w.ch = some c) (hf : s.w.fout = some f) (hph : s.w.ph = some ph) (hin : InRange f) (hsib : siblingAllows s.chan c f = true) :
    ∃ vco n r p t, Planned f vco n r ∧ (f.toNat ≤ 150000000 → searchVco f.toNat = some (vco.toNat, n.toNat, r.toNat)) ∧
      frac vco.toNat s.cfg.xtalHz.toNat = some p ∧ (∀ k, run (k + 4) s = run k t) ∧
      t = { s with
        seq := .s5a, chan := s.chan.set c { s.chan.get c with phase := .configuring }, w := plannedWork s.w ph f vco n r p } := by
  obtain ⟨vco, n, r, hp, hsearch, h3⟩ := stepS3_searches (s := { s with seq := .s3 }) hc hf hin
  obtain ⟨p, hfrac⟩ := planned_frac hx hp
  refine ⟨vco, n, r, p, _, hp, hsearch, hfrac, fun k => ?_, rfl⟩
  have validated : step s = .next { s with seq := .s2 } := by
    have hok : ¬ (f.toNat < 8000 ∨ 160000000 < f.toNat) := by obtain ⟨h1, h2⟩ := hin; omega
    rw [step_of_quiet hq (by rw [hs]; decide), seqStep, hs]
    exact congrArg finish ((stepS1_eq hf).trans (if_neg hok))
  have checked : step { s with seq := .s2 } = .next { s with seq := .s3 } :=
    (step_of_quiet (s := { s with seq := .s2 }) hq nofun).trans
      (congrArg finish ((stepS2_eq (s := { s with seq := .s2 }) hc hf).trans (if_pos hsib)))
  have searched := (step_of_quiet (s := { s with seq := .s3 }) hq nofun).trans (congrArg finish h3)
  have computed := (step_of_quiet (s := { s with
      seq := .s4, chan := s.chan.set c { s.chan.get c with phase := .configuring }
      w := { s.w with vco := some vco, n := some n, r := some r } }) hq nofun).trans
    (congrArg finish (stepS4_ok hin hf rfl rfl hph hp hfrac))
  exact (run_succ_next (k + 3) validated).trans ((run_succ_next (k + 2) checked).trans
    ((run_succ_next (k + 1) searched).trans (run_succ_next k computed)))

/-! ### The five writes -/

/-- `t` is `s` after frames that were all answered `ok` at once: of the working registers only the bytes sent have changed. -/
structure Issues (frames : List (List Byte)) (s t : State) : Prop where
  chan : t.chan = s.chan
  cfg : t.cfg = s.cfg
  cmd : t.cmd = s.cmd
  vm : t.vm = s.vm
  rsp : t.rsp = s.rsp
  quiet : Quiet s → Quiet t
  work : t.w = { s.w with blk := t.w.blk, ctl := t.w.ctl, oe := t.w.oe, rst := t.w.rst }
  drawn : Drawn frames.length s t
  trace : t.trace.map Txn.frame = s.trace.map Txn.frame ++ frames

/-- One frame more. -/
theorem Issues.snoc {frames : List (List Byte)} {frame : List Byte} {s t u : State} (h : Issues frames s t) (k : Issues [frame] t u) :
    Issues (frames ++ [frame]) s u where
  chan := k.chan.trans h.chan
  cfg := k.cfg.trans h.cfg
  cmd := k.cmd.trans h.cmd
  vm := k.vm.trans h.vm
  rsp := k.rsp.trans h.rsp
  quiet := k.quiet ∘ h.quiet
  work := by rw [k.work, h.work]
  drawn := by rw [List.length_append]; exact drawn_succ h.drawn k.drawn.1 k.drawn.2
  trace := by rw [k.trace, h.trace, List.append_assoc]

/-- The one transaction of a write answered at once, as the bytes it sends. -/
theorem frames_writeTxns_one (s : State) (tr : List Txn) (reg : RegAddr) (data : List Byte) :
    (tr ++ writeTxns s reg data (0 + 1)).map Txn.frame = tr.map Txn.frame ++ [reg :: data] := by
  rw [List.map_append]
  rfl

/-- A write answered `ok` at once, as every step from S5A to S8 makes it. -/
theorem issues_write (s : State) (reg : RegAddr) (data : List Byte) (q : Seq) (l : Bool) (o : UnitOperand) (m : Memory) (w : Work)
    (hw : w = { s.w with blk := w.blk, ctl := w.ctl, oe := w.oe, rst := w.rst }) :
    Issues [reg :: data] s { s with
      seq := q, busLock := l, att := 0, xport := s.xport.drop (0 + 1), draws := drawsAfter (0 + 1) s, opnd := o, w := w
      trace := s.trace ++ writeTxns s reg data (0 + 1), chip := m } :=
  ⟨rfl, rfl, rfl, rfl, rfl, id, hw, ⟨rfl, rfl⟩, frames_writeTxns_one s s.trace reg data⟩

section Writes

variable {s : State} {c : Channel} (hq : Quiet s) (hc : s.w.ch = some c)

include hq hc

theorem stepS5a_issues {p1 : BitVec 32} {p2 : BitVec 20} {p3 : BitVec 21} (hs : s.seq = .s5a) (h1 : s.w.pllP1 = some p1)
    (h2 : s.w.pllP2 = some p2) (h3 : s.w.pllP3 = some p3) (h : FirstWriteOk s 8 0) :
    ∃ t, step s = .next t ∧ t.seq = .s5b ∧ Issues [pllBase s.cfg (pllSrc c) :: (encodePll p1 p2 p3).toList] s t := by
  rw [step_of_quiet hq (by rw [hs]; decide), seqStep, hs]
  exact ⟨_, congrArg finish (stepS5a_ok hc h1 h2 h3 h), rfl, issues_write s _ _ _ _ _ _ _ rfl⟩

theorem stepS5b_issues {p1 : BitVec 32} {p2 : BitVec 20} {p3 : BitVec 21} {d : Bool} {r : BitVec 3} (hs : s.seq = .s5b)
    (h1 : s.w.msP1 = some p1) (h2 : s.w.msP2 = some p2) (h3 : s.w.msP3 = some p3) (h4 : s.w.msDiv4 = some d) (h5 : s.w.msR = some r)
    (h : FirstWriteOk s 8 0) :
    ∃ t, step s = .next t ∧ t.seq = .s6 ∧
      Issues [msBase c :: (if d then s.cfg.divBy4Block else encodeMs p1 p2 p3 r).toList] s t := by
  rw [step_of_quiet hq (by rw [hs]; decide), seqStep, hs]
  exact ⟨_, congrArg finish (stepS5b_ok hc (encmOp_ok h1 h2 h3 h4 h5) h), rfl, issues_write s _ _ _ _ _ _ _ rfl⟩

theorem stepS6_issues {int d inv : Bool} (hs : s.seq = .s6) (hv : s.cfg.verifyEnable = false) (h1 : s.w.msInt = some int)
    (h2 : s.w.msDiv4 = some d) (h3 : s.w.inv = some inv) (h : FirstWriteOk s 1 0) :
    ∃ t, step s = .next t ∧ t.seq = .s7 ∧
      Issues [[regClk c, ctlByte (controlIntBit int d) (pllSrc c == .B) inv s.cfg.idrv]] s t := by
  rw [step_of_quiet hq (by rw [hs]; decide), seqStep, hs]
  exact ⟨_, congrArg finish (stepS6_ok hc h1 h2 h3 h), if_neg (by rw [hv]; decide), issues_write s _ _ _ _ _ _ _ rfl⟩

theorem stepS7_issues (hs : s.seq = .s7) (hv : s.cfg.verifyEnable = false) (h : FirstWriteOk s 1 0) :
    ∃ t, step s = .next t ∧ t.seq = .s8 ∧ Issues [[3, oeByte s.chan c]] s t := by
  rw [step_of_quiet hq (by rw [hs]; decide), seqStep, hs]
  exact ⟨_, congrArg finish (stepS7_ok hc h), if_neg (by rw [hv]; decide), issues_write s _ _ _ _ _ _ _ rfl⟩

theorem stepS8_issues (hs : s.seq = .s8) (h : FirstWriteOk s 1 0) :
    ∃ t, step s = .next t ∧ t.seq = .s9 ∧ Issues [[177, rstByte s.cfg (pllSrc c)]] s t := by
  rw [step_of_quiet hq (by rw [hs]; decide), seqStep, hs]
  exact ⟨_, congrArg finish (stepS8_ok hc h), rfl, issues_write s _ _ _ _ _ _ _ rfl⟩

end Writes

/-- The five frames of a SETF, in the model's own terms (spec/42_coordinator.md R186). -/
def plannedFrames (cfg : Params) (cs : Channels) (c : Channel) (inv : Bool) (ph : BitVec 16) (f : Hz) (n : BitVec 11) (r : BitVec 3)
    (p : FracParams) : List (List Byte) :=
  let div4 := decide (150000000 < f.toNat)
  [pllBase cfg (pllSrc c) :: (encodePll (narrow32 p.p1) (BitVec.ofNat 20 p.p2) (BitVec.ofNat 21 p.p3)).toList,
    msBase c :: (if div4 then cfg.divBy4Block
      else encodeMs (BitVec.ofNat 32 (if div4 then 128 * min ph.toNat 1 else 128 * n.toNat - 512 + 128 * min ph.toNat 127)) 0 1 r).toList,
    [regClk c, ctlByte (controlIntBit true div4) (pllSrc c == .B) inv cfg.idrv],
    [3, oeByte cs c],
    [177, rstByte cfg (pllSrc c)]]

/-- From S5A on what step 4 leaves, with five writes answered `ok`, a SETF is at S9 after five steps. -/
theorem run_issues {s : State} {c : Channel} {inv : Bool} {ph : BitVec 16} {f vco : Hz} {n : BitVec 11} {r : BitVec 3} {p : FracParams}
    {w : Work} (hq : Quiet s) (hs : s.seq = .s5a) (hw : s.w = plannedWork w ph f vco n r p) (hc : w.ch = some c) (hinv : w.inv = some inv)
    (hv : s.cfg.verifyEnable = false) (h8 : ∀ j, j < 2 → WriteOk s 8 j) (h1 : ∀ j, 2 ≤ j → j < 5 → WriteOk s 1 j) :
    ∃ t, (∀ k, run (k + 5) s = run k t) ∧ t.seq = .s9 ∧ Issues (plannedFrames s.cfg s.chan c inv ph f n r p) s t := by
  have hcs : s.w.ch = some c := by rw [hw]; exact hc
  obtain ⟨t1, r1, q1, i1⟩ := stepS5a_issues hq hcs hs (by rw [hw]; rfl) (by rw [hw]; rfl) (by rw [hw]; rfl)
    (firstWriteOk_drawn (drawn_zero s) (h8 0 (by decide)))
  obtain ⟨t2, r2, q2, i2⟩ := stepS5b_issues (i1.quiet hq) (by rw [i1.work]; exact hcs) q1 (by rw [i1.work, hw]; rfl) (by rw [i1.work, hw]; rfl)
    (by rw [i1.work, hw]; rfl) (by rw [i1.work, hw]; rfl) (by rw [i1.work, hw]; rfl) (firstWriteOk_drawn i1.drawn (h8 1 (by decide)))
  have i2 := i1.snoc i2
  obtain ⟨t3, r3, q3, i3⟩ := stepS6_issues (i2.quiet hq) (by rw [i2.work]; exact hcs) q2 (by rw [i2.cfg]; exact hv) (by rw [i2.work, hw]; rfl)
    (by rw [i2.work, hw]; rfl) (by rw [i2.work, hw]; exact hinv) (firstWriteOk_drawn i2.drawn (h1 2 (by decide) (by decide)))
  have i3 := i2.snoc i3
  obtain ⟨t4, r4, q4, i4⟩ := stepS7_issues (i3.quiet hq) (by rw [i3.work]; exact hcs) q3 (by rw [i3.cfg]; exact hv)
    (firstWriteOk_drawn i3.drawn (h1 3 (by decide) (by decide)))
  have i4 := i3.snoc i4
  obtain ⟨t5, r5, q5, i5⟩ := stepS8_issues (i4.quiet hq) (by rw [i4.work]; exact hcs) q4
    (firstWriteOk_drawn i4.drawn (h1 4 (by decide) (by decide)))
  have i5 := i4.snoc i5
  rw [i1.cfg, i2.cfg, i3.chan, i4.cfg] at i5
  refine ⟨t5, fun k => ?_, q5, i5⟩
  rw [run_succ_next _ r1, run_succ_next _ r2, run_succ_next _ r3, run_succ_next _ r4, run_succ_next _ r5]

/-! ### The frames as spec/42_coordinator.md R186 writes them -/

/-- The output-enable byte as a difference (spec/42_coordinator.md R192). -/
theorem oeByte_eq (cs : Channels) (cur : Channel) :
    oeByte cs cur = BitVec.ofNat 8 (255 - ((if (cs.get .ch0).requestedHz ≠ 0 ∨ .ch0 = cur then 1 else 0) +
      (if (cs.get .ch1).requestedHz ≠ 0 ∨ .ch1 = cur then 2 else 0) + (if (cs.get .ch2).requestedHz ≠ 0 ∨ .ch2 = cur then 4 else 0))) := by
  have used (d : Channel) : inUse cs cur d = decide ((cs.get d).requestedHz ≠ 0 ∨ d = cur) := by
    rw [Bool.eq_iff_iff]
    simp [inUse]
  simp only [oeByte, oeBit, used]
  by_cases h0 : (cs.get .ch0).requestedHz ≠ 0 ∨ .ch0 = cur <;> by_cases h1 : (cs.get .ch1).requestedHz ≠ 0 ∨ .ch1 = cur <;>
    by_cases h2 : (cs.get .ch2).requestedHz ≠ 0 ∨ .ch2 = cur <;> simp only [h0, h1, h2, decide_true, decide_false] <;> decide

theorem plannedFrames_eq (cfg : Params) (cs : Channels) (c : Channel) (inv : Bool) (ph : BitVec 16) (f : Hz) (n : BitVec 11) (r : BitVec 3)
    (p : FracParams) :
    plannedFrames cfg cs c inv ph f n r p =
      [(if c = .ch0 then cfg.pllbBase else 26) ::
          (encodePll (if p.p1 < 2 ^ 32 then BitVec.ofNat 32 p.p1 else Config.outOfRange32 p.p1) (BitVec.ofNat 20 p.p2)
            (BitVec.ofNat 21 p.p3)).toList,
        BitVec.ofNat 8 (42 + 8 * chNum c) ::
          (if 150000000 < f.toNat then cfg.divBy4Block
            else encodeMs (BitVec.ofNat 32 (128 * n.toNat - 512 + 128 * min ph.toNat 127)) 0 1 r).toList,
        [BitVec.ofNat 8 (16 + chNum c),
          BitVec.ofNat 8 ((if 150000000 < f.toNat then 0 else 64) + (if c = .ch0 then 32 else 0) + (if inv then 16 else 0) + 12 +
            cfg.idrv.toNat)],
        [3, BitVec.ofNat 8 (255 - ((if (cs.get .ch0).requestedHz ≠ 0 ∨ .ch0 = c then 1 else 0) +
          (if (cs.get .ch1).requestedHz ≠ 0 ∨ .ch1 = c then 2 else 0) + (if (cs.get .ch2).requestedHz ≠ 0 ∨ .ch2 = c then 4 else 0)))],
        [177, if c = .ch0 then cfg.rstB else cfg.rstA]] := by
  have hms : msBase c = BitVec.ofNat 8 (42 + 8 * chNum c) := by cases c <;> rfl
  have hclk : regClk c = BitVec.ofNat 8 (16 + chNum c) := by cases c <;> rfl
  have hrst : rstByte cfg (pllSrc c) = if c = .ch0 then cfg.rstB else cfg.rstA := by cases c <;> rfl
  have hsrc : (pllSrc c == .B) = decide (c = .ch0) := by cases c <;> rfl
  rw [plannedFrames, pllBase_pllSrc, oeByte_eq, hms, hclk, hrst, ctlByte_eq, hsrc]
  by_cases h : 150000000 < f.toNat <;> simp [h, controlIntBit, narrow32]

theorem channels_set_set (cs : Channels) (c : Channel) (v w : ChannelRecord) : (cs.set c v).set c w = cs.set c w := by cases c <;> rfl

/-- Settles O56: accepted, planned in four steps (`run_plans`), written in five (`run_issues`) and committed with the frequency asked for. -/
theorem setfIssuesItsFiveWrites : Obligations.SetfIssuesItsFiveWrites := by
  intro s c inv ph f rest hi hr hcmd hin hsib hv h8 h1
  have accepted := step_accepts hr hcmd
  obtain ⟨vco, n, r, p, u, hp, hsearch, hfrac, planned, hu⟩ := run_plans (s := acceptSetf c inv ph f { s with cmd := rest }) hi.xtal hr.1 rfl
    rfl rfl rfl hin hsib
  have hq : Quiet u := by rw [hu]; exact hr.1
  have hw : u.w = plannedWork (acceptSetf c inv ph f s).w ph f vco n r p := by rw [hu]; rfl
  have hchan : u.chan = s.chan.set c { s.chan.get c with phase := .configuring } := by rw [hu]; rfl
  have hcfg : u.cfg = s.cfg := by rw [hu]; rfl
  obtain ⟨t, written, ht9, i⟩ := run_issues (c := c) (inv := inv) hq (by rw [hu]) hw rfl rfl (by rw [hcfg]; exact hv) (by rw [hu]; exact h8)
    (by rw [hu]; exact h1)
  obtain ⟨committed, hreal⟩ := stepNineCommits t c f vco n r (i.quiet hq) ht9 (by rw [i.work, hw]; rfl) (by rw [i.work, hw]; rfl)
    (by rw [i.work, hw]; rfl) (by rw [i.work, hw]; rfl) (by rw [i.work, hw]; rfl) (realized_planned hp).1
  rw [hreal hp, BitVec.ofNat_toNat, BitVec.setWidth_eq] at committed
  refine ⟨_, vco, n, r, p, (run_succ_next 10 accepted).trans ((planned 6).trans ((written 1).trans (run_succ_next 0 committed))), hp,
    hsearch, hfrac, ?_, ?_, ?_, rfl, rfl, rfl, rfl, ?_, ?_, i.cfg.trans hcfg⟩
  · have frames : plannedFrames u.cfg u.chan c inv ph f n r p = plannedFrames s.cfg s.chan c inv ph f n r p := by
      simp only [plannedFrames, hcfg, hchan, setPhase_oeByte]
    refine i.trace.trans ?_
    rw [frames, plannedFrames_eq, hu]
    rfl
  · show t.chan.set c _ = _
    rw [i.chan, hchan, channels_set_set]
  · show t.rsp ++ _ = _
    rw [i.rsp, i.vm, hu]
    rfl
  · exact i.vm.trans (by rw [hu]; rfl)
  · exact i.cmd.trans (by rw [hu]; rfl)

end Sys2Proof.Machine

/-! SUPPORT. The register operations called through `exec`: three attempts at one transaction, and what they leave of the chip. -/

namespace Sys2Proof.Machine

/-! ### The command port of an idle block -/

/-- Settles O5: the port decodes the word and runs its instruction. -/
theorem presentedCommandRuns : Obligations.PresentedCommandRuns := by
  intro s w rest i hq hs hc hd
  have hd' : decodeCmd w = .ok i := hd
  rw [step_of_idle hq hs, portStep, hc]
  simp only [hd']

/-! ### A register operation answered within its three attempts -/

/-- WRB whose `k`-th attempt is the first answered `ok`. -/
theorem exec_wrb_ok {s : State} {b : Block} {k : Nat} (hb : s.w.blk = some b) (h : FirstWriteOk s 8 k) :
    exec .wrb s = .next { s with
      ret := .done, att := 0, xport := s.xport.drop (k + 1), draws := drawsAfter (k + 1) s
      trace := s.trace ++ writeTxns s s.opnd.addr b.toList (k + 1), chip := s.chip.store s.opnd.addr.toNat b.toList } :=
  congrArg finishUnit (wrbOp_ok hb h)

/-- WR1 whose `k`-th attempt is the first answered `ok`. -/
theorem exec_wr1_ok {s : State} {k : Nat} (h : FirstWriteOk s 1 k) :
    exec .wr1 s = .next { s with
      ret := .done, att := 0, xport := s.xport.drop (k + 1), draws := drawsAfter (k + 1) s
      trace := s.trace ++ writeTxns s s.opnd.addr [s.opnd.val] (k + 1), chip := s.chip.write s.opnd.addr.toNat s.opnd.val } :=
  congrArg finishUnit (wr1Op_ok h)

/-- Settles O36: the attempts of WRB are those of `wrbOp_ok`. -/
theorem wrbWritesWithinThreeAttempts : Obligations.WrbWritesWithinThreeAttempts :=
  fun _ _ _ hb h => exec_wrb_ok hb h

/-- Settles O37: the attempts of WR1 are those of `wr1Op_ok`. -/
theorem wrOneWritesWithinThreeAttempts : Obligations.WrOneWritesWithinThreeAttempts :=
  fun _ _ h => exec_wr1_ok h

/-- Settles O38: the reads of VFY are those of `vfyOp_ok`, and a mismatch is no error. -/
theorem vfyReportsAMismatchInVm : Obligations.VfyReportsAMismatchInVm :=
  fun _ _ _ h => congrArg finishUnit (vfyOp_ok h)

/-! ### Three failed attempts -/

/-- Taking an error is what `ErrorTaken` says, with the status code of R87: in no state does more than one of its clauses apply. -/
theorem errorTaken_takeError (e : ErrorKind) (s : State) : ErrorTaken e e.code.toNat s (takeError e s) := by
  refine ⟨takeError_outside e, fun c hc h1 h2 => ?_, fun c hc h3 h11 => ?_⟩
  · rw [takeError_reject e hc h1 h2, reject, respond, rspWord_channel]
    rfl
  · rw [takeError_abort e hc h3 h11, abort, respond, rspWord_channel]
    rfl

/-- A unit operation that raises ends with its error taken. -/
theorem errorTaken_of_raised {x : Result State} {e : ErrorKind} {t : State} (h : x = .raised e t) :
    ErrorTaken e e.code.toNat t (finishUnit x) := by
  rw [h]
  exact errorTaken_takeError e t

/-- Settles O39: each operation raises TransportError after its three transactions, and the error is taken. -/
theorem registerOperationsRaiseAfterThreeFailures : Obligations.RegisterOperationsRaiseAfterThreeFailures :=
  ⟨fun _ _ hb h => errorTaken_of_raised (wrbOp_fail hb h), fun _ h => errorTaken_of_raised (wr1Op_fail h),
    fun _ h => errorTaken_of_raised (vfyOp_fail h)⟩

/-! ### What the writes leave of the chip -/

/-- Settles O40: the next states of O36 and O37, and what reads of `store` and `write` return. -/
theorem registerWritesChangeOnlyTheirRegisters : Obligations.RegisterWritesChangeOnlyTheirRegisters := by
  refine ⟨fun s t b k hb h hm ht => ?_, fun s t k h hm ht => ?_⟩
  · cases (exec_wrb_ok hb h).symm.trans ht
    refine ⟨store_wf _ _ hm, fun a => ?_⟩
    have wraps : (s.opnd.addr.toNat ≤ a + 256 ∧ a + 256 < s.opnd.addr.toNat + b.toList.length) ↔ a + 256 < s.opnd.addr.toNat + 8 :=
      and_iff_right (by omega)
    rw [read_store _ _ b.toList (show 8 ≤ 256 by decide) hm, if_congr wraps rfl rfl]
    rfl
  · cases (exec_wr1_ok h).symm.trans ht
    exact ⟨write_wf _ s.opnd.addr.isLt hm, fun a => read_write _ _ a _⟩

end Sys2Proof.Machine

/-! SUPPORT. What a step sends: at most three attempts at one transaction of the address map, the words at the port left where they are. -/

namespace Sys2Proof.Machine

/-! ### The transactions of the address map (spec/20_memory.md R58, R63) -/

/-- The register addresses at which a one-byte read-back is made. -/
def IsReadBack (reg : RegAddr) : Prop := reg = 3 ∨ reg = 16 ∨ reg = 17 ∨ reg = 18

/-- The register addresses at which one byte is written. -/
def IsByteRegister (reg : RegAddr) : Prop := reg = 3 ∨ reg = 16 ∨ reg = 17 ∨ reg = 18 ∨ reg = 177

/-- The register addresses at which a block is written. -/
def IsBlockBase (cfg : Params) (reg : RegAddr) : Prop := reg = 26 ∨ reg = cfg.pllbBase ∨ reg = 42 ∨ reg = 50 ∨ reg = 58

/-- A transaction of that kind at that register is one of the address map's. -/
def InMap (cfg : Params) (reg : RegAddr) (kind : TxnKind) : Prop :=
  (∃ b, kind = .write [b] ∧ IsByteRegister reg) ∨ (∃ b : Block, kind = .write b.toList ∧ IsBlockBase cfg reg) ∨
    (kind = .read 1 ∧ IsReadBack reg)

theorem isReadBack_regClk (c : Channel) : IsReadBack (regClk c) := by cases c <;> simp [IsReadBack, regClk, chBits]

theorem IsReadBack.isByteRegister {reg : RegAddr} (h : IsReadBack reg) : IsByteRegister reg := by
  obtain h | h | h | h := h <;> simp [IsByteRegister, h]

theorem isBlockBase_pllBase (cfg : Params) (p : PllSource) : IsBlockBase cfg (pllBase cfg p) := by
  cases p
  · exact .inl rfl
  · exact .inr (.inl rfl)

theorem isBlockBase_msBase (cfg : Params) (c : Channel) : IsBlockBase cfg (msBase c) := by cases c <;> simp [IsBlockBase, msBase, chBits]

/-- At most three transactions of one frame, to the chip's address and in the address map (R51, spec/41_register_protocol.md R160). -/
def Attempts (cfg : Params) (tr : List Txn) : Prop :=
  tr.length ≤ 3 ∧ (∀ x ∈ tr, ∀ y ∈ tr, x.frame = y.frame) ∧ ∀ x ∈ tr, x.chip = cfg.chipAddr ∧ InMap cfg x.reg x.kind

theorem attempts_nil (cfg : Params) : Attempts cfg [] := ⟨Nat.zero_le 3, nofun, nofun⟩

/-- Transactions that differ in their answers only. -/
theorem attempts_of_same {cfg : Params} {tr : List Txn} {reg : RegAddr} {kind : TxnKind} (hl : tr.length ≤ 3) (hm : InMap cfg reg kind)
    (h : ∀ x ∈ tr, ∃ ans, x = ⟨cfg.chipAddr, reg, kind, ans⟩) : Attempts cfg tr := by
  refine ⟨hl, fun x hx y hy => ?_, fun x hx => ?_⟩
  · obtain ⟨_, rfl⟩ := h x hx
    obtain ⟨_, rfl⟩ := h y hy
    rfl
  · obtain ⟨_, rfl⟩ := h x hx
    exact ⟨rfl, hm⟩

theorem attempts_writeTxns {s : State} {reg : RegAddr} {data : List Byte} {k : Nat} (hk : k ≤ 3) (hm : InMap s.cfg reg (.write data)) :
    Attempts s.cfg (writeTxns s reg data k) := by
  refine attempts_of_same ((writeTxns_length ..).trans_le hk) hm fun x hx => ?_
  obtain ⟨j, -, rfl⟩ := List.mem_map.mp hx
  exact ⟨_, rfl⟩

theorem attempts_readTxns {s : State} {reg : RegAddr} {k : Nat} (hk : k ≤ 3) (hm : InMap s.cfg reg (.read 1)) :
    Attempts s.cfg (readTxns s reg k) := by
  refine attempts_of_same ((readTxns_length ..).trans_le hk) hm fun x hx => ?_
  obtain ⟨j, -, rfl⟩ := List.mem_map.mp hx
  exact ⟨_, rfl⟩

/-! ### What the pieces of a step send -/

/-- No transaction is issued, and the words at the port stay. -/
structure Silent (s t : State) : Prop where
  cfg : t.cfg = s.cfg
  cmd : t.cmd = s.cmd
  trace : t.trace = s.trace

theorem Silent.refl (s : State) : Silent s s := ⟨rfl, rfl, rfl⟩

theorem Silent.trans {s t u : State} (h : Silent s t) (k : Silent t u) : Silent s u :=
  ⟨k.cfg.trans h.cfg, k.cmd.trans h.cmd, k.trace.trans h.trace⟩

/-- Attempts at one transaction are issued, and the words at the port stay. -/
structure Traffic (s t : State) : Prop where
  cfg : t.cfg = s.cfg
  cmd : t.cmd = s.cmd
  trace : ∃ tr, t.trace = s.trace ++ tr ∧ Attempts s.cfg tr

theorem Silent.traffic {s t : State} (h : Silent s t) : Traffic s t :=
  ⟨h.cfg, h.cmd, [], h.trace.trans (List.append_nil _).symm, attempts_nil _⟩

/-- What a register operation, begun in a state `u` before which nothing was sent, leaves. -/
theorem Silent.sends {s u : State} (h : Silent s u) {tr : List Txn} (ht : Attempts u.cfg tr) (xs : List Answer) (k : Nat) (vm : Bool)
    (m : Memory) : Traffic s { u with xport := xs, draws := k, att := 0, trace := u.trace ++ tr, vm := vm, chip := m } :=
  ⟨h.cfg, h.cmd, tr, congrArg (· ++ tr) h.trace, h.cfg ▸ ht⟩

/-- How a piece of a step ends whose transactions are attempts at one, whether it raises or not. -/
abbrev SendsAttempts (s : State) (x : Result State) : Prop := x.Ends (Traffic s) fun _ => Traffic s

section Pieces

variable {E : ErrorKind → State → Prop} (s : State)

theorem cpllOp_silent : (cpllOp s).Ends (Silent s) E := by
  refine .bind (need_ends _ _) fun vco _ => ?_
  split
  · exact .refused _
  · exact .ok ⟨rfl, rfl, rfl⟩

theorem cmsOp_silent : (cmsOp s).Ends (Silent s) E := by
  refine .bind (need_ends _ _) fun f _ => .bind (need_ends _ _) fun r _ => ?_
  dsimp only
  split
  · exact .ok ⟨rfl, rfl, rfl⟩
  · refine .bind (need_ends _ _) fun vco _ => ?_
    split
    · exact .refused _
    · exact .ok ⟨rfl, rfl, rfl⟩

theorem copyR_silent : (copyR s).Ends (Silent s) E :=
  .bind (need_ends _ _) fun _ _ => .ok ⟨rfl, rfl, rfl⟩

theorem aphoOp_silent : (aphoOp s).Ends (Silent s) E :=
  .bind (need_ends _ _) fun _ _ => .bind (need_ends _ _) fun _ _ => .bind (need_ends _ _) fun _ _ => .ok ⟨rfl, rfl, rfl⟩

theorem encpOp_silent : (encpOp s).Ends (Silent s) E :=
  .bind (need_ends _ _) fun _ _ => .bind (need_ends _ _) fun _ _ => .bind (need_ends _ _) fun _ _ => .ok ⟨rfl, rfl, rfl⟩

theorem encmOp_silent : (encmOp s).Ends (Silent s) E := by
  refine .bind (need_ends _ _) fun d _ => ?_
  split
  · exact .ok ⟨rfl, rfl, rfl⟩
  · exact .bind (need_ends _ _) fun _ _ => .bind (need_ends _ _) fun _ _ => .bind (need_ends _ _) fun _ _ =>
      .bind (need_ends _ _) fun _ _ => .ok ⟨rfl, rfl, rfl⟩

theorem svcoOp_silent (hE : E .noValidDivider s) : (svcoOp s).Ends (Silent s) E := by
  refine .bind (need_ends _ _) fun f _ => ?_
  split
  · exact .raised hE
  · exact .ok ⟨rfl, rfl, rfl⟩

variable {s} {u : State} (hu : Silent s u)

include hu

theorem wrbOp_sends (hm : IsBlockBase u.cfg u.opnd.addr) : SendsAttempts s (wrbOp u) := by
  rcases hb : u.w.blk with _ | b
  · rw [wrbOp, getBlk, hb]; exact .fault _
  have inMap : InMap u.cfg u.opnd.addr (.write b.toList) := .inr (.inl ⟨b, rfl, hm⟩)
  rcases write_outcome u 8 with ⟨k, h⟩ | h
  · rw [wrbOp_ok hb h]
    exact .ok (hu.sends (attempts_writeTxns h.1 inMap) _ _ u.vm _)
  · rw [wrbOp_fail hb h]
    exact .raised (hu.sends (attempts_writeTxns le_rfl inMap) _ _ u.vm u.chip)

theorem wr1Op_sends (hm : IsByteRegister u.opnd.addr) : SendsAttempts s (wr1Op u) := by
  have inMap : InMap u.cfg u.opnd.addr (.write [u.opnd.val]) := .inl ⟨_, rfl, hm⟩
  rcases write_outcome u 1 with ⟨k, h⟩ | h
  · rw [wr1Op_ok h]
    exact .ok (hu.sends (attempts_writeTxns h.1 inMap) _ _ u.vm _)
  · rw [wr1Op_fail h]
    exact .raised (hu.sends (attempts_writeTxns le_rfl inMap) _ _ u.vm u.chip)

theorem vfyOp_sends (hm : IsReadBack u.opnd.addr) : SendsAttempts s (vfyOp u) := by
  have inMap : InMap u.cfg u.opnd.addr (.read 1) := .inr (.inr ⟨rfl, hm⟩)
  rcases read_outcome u u.opnd.addr with ⟨k, b, h⟩ | h
  · rw [vfyOp_ok h]
    exact .ok (hu.sends (attempts_readTxns h.1 inMap) _ _ _ u.chip)
  · rw [vfyOp_fail h]
    exact .raised (hu.sends (attempts_readTxns le_rfl inMap) _ _ u.vm u.chip)

end Pieces

/-! ### What the steps send -/

/-- A step ends by advancing SEQ. -/
theorem sendsAttempts_advance {s : State} {x : Result State} (q : State → Seq) (hx : SendsAttempts s x) :
    SendsAttempts s (x.bind fun t => .ok { t with seq := q t }) :=
  hx.bind fun _ h => .ok { h with }

section Steps

variable (s : State)

theorem stepS1_sends : SendsAttempts s (stepS1 s) := by
  refine .bind (need_ends _ _) fun f _ => ?_
  split
  · exact .raised (Silent.refl s).traffic
  · exact .ok { (Silent.refl s).traffic with }

theorem stepS2_sends : SendsAttempts s (stepS2 s) := by
  refine .bind (need_ends _ _) fun c _ => .bind (need_ends _ _) fun f _ => ?_
  split
  · exact .ok { (Silent.refl s).traffic with }
  · exact .raised (Silent.refl s).traffic

theorem stepS3_sends : SendsAttempts s (stepS3 s) := by
  refine .bind (need_ends _ _) fun c _ => .bind (need_ends _ _) fun f _ => ?_
  have configuring : Silent s (setPhase c .configuring s) := ⟨rfl, rfl, rfl⟩
  dsimp only
  split
  · exact .ok { configuring.traffic with }
  · exact .bind (svcoOp_silent _ configuring.traffic) fun t k => .ok { (configuring.trans k).traffic with }

theorem stepS4_sends : SendsAttempts s (stepS4 s) :=
  .bind (cpllOp_silent s) fun s1 k1 => .bind (cmsOp_silent s1) fun s2 k2 => .bind (copyR_silent s2) fun s3 k3 =>
    .bind (aphoOp_silent s3) fun _ k4 => .ok { (((k1.trans k2).trans k3).trans k4).traffic with }

theorem stepS5a_sends : SendsAttempts s (stepS5a s) :=
  .bind (need_ends _ _) fun _ _ => .bind (encpOp_silent _) fun _ k =>
    sendsAttempts_advance _ (wrbOp_sends ⟨k.cfg, k.cmd, k.trace⟩ (isBlockBase_pllBase _ _))

theorem stepS5b_sends : SendsAttempts s (stepS5b s) :=
  .bind (need_ends _ _) fun c _ => .bind (encmOp_silent s) fun _ k =>
    sendsAttempts_advance _ (wrbOp_sends ⟨k.cfg, k.cmd, k.trace⟩ (isBlockBase_msBase _ c))

theorem stepS6_sends : SendsAttempts s (stepS6 s) :=
  .bind (need_ends _ _) fun c _ => .bind (need_ends _ _) fun _ _ => .bind (need_ends _ _) fun _ _ => .bind (need_ends _ _) fun _ _ =>
    sendsAttempts_advance _ (wr1Op_sends ⟨rfl, rfl, rfl⟩ (isReadBack_regClk c).isByteRegister)

theorem stepS6v_sends : SendsAttempts s (stepS6v s) :=
  .bind (need_ends _ _) fun c _ => .bind (need_ends _ _) fun _ _ => sendsAttempts_advance _ (vfyOp_sends ⟨rfl, rfl, rfl⟩ (isReadBack_regClk c))

theorem stepS7_sends : SendsAttempts s (stepS7 s) :=
  .bind (need_ends _ _) fun _ _ => sendsAttempts_advance _ (wr1Op_sends ⟨rfl, rfl, rfl⟩ (.inl rfl))

theorem stepS7v_sends : SendsAttempts s (stepS7v s) :=
  .bind (need_ends _ _) fun _ _ => sendsAttempts_advance _ (vfyOp_sends ⟨rfl, rfl, rfl⟩ (.inl rfl))

theorem stepS8_sends : SendsAttempts s (stepS8 s) :=
  .bind (need_ends _ _) fun _ _ => sendsAttempts_advance _ (wr1Op_sends ⟨rfl, rfl, rfl⟩ (.inr (.inr (.inr (.inr rfl)))))

theorem stepS9_sends : SendsAttempts s (stepS9 s) := by
  refine .bind (need_ends _ _) fun c _ => .bind (need_ends _ _) fun f _ => .bind (need_ends _ _) fun vco _ =>
    .bind (need_ends _ _) fun n _ => .bind (need_ends _ _) fun r _ => ?_
  split
  · exact .refused _
  · exact .ok { (Silent.refl s).traffic with }

theorem seqStep_sends : SendsAttempts s (seqStep s) := by
  rw [seqStep]
  cases s.seq with
  | idle => exact .ok (Silent.refl s).traffic
  | s1 => exact stepS1_sends s
  | s2 => exact stepS2_sends s
  | s3 => exact stepS3_sends s
  | s4 => exact stepS4_sends s
  | s5a => exact stepS5a_sends s
  | s5b => exact stepS5b_sends s
  | s6 => exact stepS6_sends s
  | s6v => exact stepS6v_sends s
  | s7 => exact stepS7_sends s
  | s7v => exact stepS7v_sends s
  | s8 => exact stepS8_sends s
  | s9 => exact stepS9_sends s

end Steps

/-- Taking an error issues nothing (spec/60_exceptions.md R231). -/
theorem takeError_silent {e : ErrorKind} {s t : State} (h : takeError e s = .next t) : Silent s t := by
  obtain ⟨-, rfl⟩ | ⟨c, rfl | rfl⟩ := takeError_next h <;> exact ⟨rfl, rfl, rfl⟩

/-- What every step of the sequencer sends. -/
theorem seqStep_traffic {s t : State} (h : finish (seqStep s) = .next t) : Traffic s t := by
  have hx := seqStep_sends s
  generalize seqStep s = x at h hx
  cases hx with
  | ok k =>
    cases h
    exact k
  | raised k =>
    obtain ⟨hcfg, hcmd, htrace⟩ := takeError_silent h
    exact ⟨hcfg.trans k.cfg, hcmd.trans k.cmd, by rw [htrace]; exact k.trace⟩
  | fault q => cases h
  | refused q => cases h

/-- The command port issues no transaction (spec/42_coordinator.md R182, R199, R200). -/
theorem portStep_trace {s t : State} (h : portStep s = .next t) : t.trace = s.trace := by
  obtain ⟨-, rfl⟩ | ⟨w, rest, -, ⟨-, st, hz, rfl⟩ | ⟨c, inv, ph, hz, -, rfl⟩⟩ := portStep_next h <;> rfl

/-! ### The statements -/

/-- Settles O15: BUSY is the first thing a command looks at, and no step of the sequencer takes a word from the port. -/
theorem busyBlockAcceptsNoCommand : Obligations.BusyBlockAcceptsNoCommand := by
  refine ⟨fun s ch inv ph hz hb => ?_, fun s t hq hne h => ?_⟩
  · exact ⟨if_pos hb, if_pos hb, if_pos hb⟩
  · exact (seqStep_traffic ((step_of_quiet hq hne).symm.trans h)).cmd

/-- Settles O59: the port sends nothing, a step of the sequencer what `seqStep_traffic` says. -/
theorem transactionsStayInTheMap : Obligations.TransactionsStayInTheMap := by
  intro s t hq h
  have sent : ∃ tr, t.trace = s.trace ++ tr ∧ Attempts s.cfg tr := by
    by_cases hs : s.seq = .idle
    · exact ⟨[], by rw [portStep_trace ((step_of_idle hq hs).symm.trans h), List.append_nil], attempts_nil _⟩
    · exact (seqStep_traffic ((step_of_quiet hq hs).symm.trans h)).trace
  exact sent

end Sys2Proof.Machine

/-! SUPPORT. A whole SETF answered `ok` at once, with or without read-backs: the record it leaves depends on its operands and on the bytes its
read-backs are answered with, so the same SETF again leaves the same writes. -/

namespace Sys2Proof.Machine

/-! ### Runs and draws one after another -/

/-- A run after a run. -/
theorem run_add {k : Nat} {s t : State} (m : Nat) (h : run k s = .next t) : run (k + m) s = run m t := by
  induction k generalizing s with
  | zero =>
    cases h
    rw [Nat.zero_add]
  | succ k ih =>
    rw [Nat.succ_add]
    cases hs : step s with
    | next u =>
      rw [run_succ_next k hs] at h
      rw [run_succ_next _ hs, ih h]
    | fault q =>
      rw [run_succ_fault k hs] at h
      cases h
    | refused q =>
      rw [run_succ_refused k hs] at h
      cases h

theorem run_one {s t : State} (h : step s = .next t) : run 1 s = .next t := run_succ_next 0 h

theorem drawn_trans {s t u : State} {k m : Nat} (h : Drawn k s t) (h' : Drawn m t u) : Drawn (k + m) s u := by
  obtain ⟨hx, hd⟩ := h
  obtain ⟨hx', hd'⟩ := h'
  refine ⟨by rw [hx', hx, List.drop_drop], ?_⟩
  simp only [drawsAfter] at hd hd' ⊢
  rw [hd', hd, hx, List.length_drop]
  omega

theorem writeOk_drawn {s t : State} {k : Nat} (h : Drawn k s t) (len j : Nat) : WriteOk t len j ↔ WriteOk s len (k + j) := by
  rw [WriteOk, WriteOk, oracle_drawn h]

/-- Whether a read is answered depends on the Transport alone, not on what the register holds. -/
theorem readOracle_ne_none {s : State} {reg : RegAddr} {j : Nat} : readOracle s reg j ≠ none ↔ ∀ x, oracle s j ≠ .reply x none := by
  rw [readOracle]
  cases oracle s j <;> simp

theorem readOracle_ne_none_drawn {s t : State} {k : Nat} (h : Drawn k s t) (reg : RegAddr) (j : Nat) :
    readOracle t reg j ≠ none ↔ readOracle s reg (k + j) ≠ none := by
  rw [readOracle_ne_none, readOracle_ne_none, oracle_drawn h]

/-- What a later SETF meets is what the Transport answers after the draws made so far. -/
theorem setfAnswerOk_drawn {s t : State} {k : Nat} (h : Drawn k s t) (hc : t.cfg = s.cfg) (c : Channel) (j : Nat) :
    SetfAnswerOk t c 0 j ↔ SetfAnswerOk s c k j := by
  simp only [SetfAnswerOk, hc, writeOk_drawn h, readOracle_ne_none_drawn h, Nat.zero_add]

/-! ### The record of a SETF -/

/-- A write of a frame, all of it taken. -/
def okWrite (cfg : Params) (frame : List Byte) : Txn := ⟨cfg.chipAddr, frame.headD 0, .write frame.tail, .bytesWritten frame.length⟩

/-- The read-back of the register a frame writes, answered with a byte; none without `VERIFY_ENABLE`. -/
def readBack (cfg : Params) (frame : List Byte) (b : Byte) : List Txn :=
  if cfg.verifyEnable then [⟨cfg.chipAddr, frame.headD 0, .read 1, .bytes [b]⟩] else []

/-- The record of five frames written one after another, the third and the fourth read back (spec/42_coordinator.md R186, R191, R192). -/
def sentTxns (cfg : Params) (frames : List (List Byte)) (b b' : Byte) : List Txn :=
  match frames with
  | [pll, ms, ctl, oe, rst] =>
    [okWrite cfg pll] ++ [okWrite cfg ms] ++ ([okWrite cfg ctl] ++ readBack cfg ctl b) ++ ([okWrite cfg oe] ++ readBack cfg oe b') ++
      [okWrite cfg rst]
  | _ => []

/-- The number of read-backs after each of the two writes that have one. -/
def readBacks (cfg : Params) : Nat := if cfg.verifyEnable then 1 else 0

theorem readBack_length (cfg : Params) (frame : List Byte) (b : Byte) : (readBack cfg frame b).length = readBacks cfg := by
  rw [readBack, readBacks]
  split <;> rfl

/-- The number of transactions of a SETF answered at once. -/
theorem setf_txns (cfg : Params) : (if cfg.verifyEnable then 7 else 5) = 5 + 2 * readBacks cfg := by
  rw [readBacks]
  split <;> rfl

section Record

variable (cfg : Params) (pll ms ctl oe rst : List Byte) (a a' b b' : Byte)

theorem sentTxns_length : (sentTxns cfg [pll, ms, ctl, oe, rst] b b').length = 5 + 2 * readBacks cfg := by
  simp only [sentTxns, List.length_append, readBack_length, List.length_singleton]
  omega

/-- The read-backs' answers are in no frame. -/
theorem sentTxns_frames : (sentTxns cfg [pll, ms, ctl, oe, rst] a a').map Txn.frame = (sentTxns cfg [pll, ms, ctl, oe, rst] b b').map Txn.frame := by
  simp only [sentTxns, readBack]
  split <;> rfl

/-- The read-backs are no writes. -/
theorem sentTxns_writes :
    (sentTxns cfg [pll, ms, ctl, oe, rst] a a').filter Txn.isWrite = (sentTxns cfg [pll, ms, ctl, oe, rst] b b').filter Txn.isWrite := by
  simp only [sentTxns, readBack]
  split <;> rfl

variable {cfg} (hv : cfg.verifyEnable = false)

include hv

theorem sentTxns_unverified : sentTxns cfg [pll, ms, ctl, oe, rst] a a' = sentTxns cfg [pll, ms, ctl, oe, rst] b b' := by
  simp [sentTxns, readBack, hv]

theorem isWrite_of_sentTxns_unverified : ∀ x ∈ sentTxns cfg [pll, ms, ctl, oe, rst] b b', x.isWrite = true := by
  simp [sentTxns, readBack, hv, okWrite, Txn.isWrite]

end Record

/-! ### The steps S5A to S8, each transaction answered at once -/

/-- `t` is `s` after the transactions `tr`, all answered `ok`: of the working registers only the bytes sent have changed, and VM only by a
read-back. -/
structure Records (tr : List Txn) (s t : State) : Prop where
  chan : t.chan = s.chan
  cfg : t.cfg = s.cfg
  cmd : t.cmd = s.cmd
  rsp : t.rsp = s.rsp
  vm : (∀ x ∈ tr, x.isWrite = true) → t.vm = s.vm
  quiet : Quiet s → Quiet t
  work : t.w = { s.w with blk := t.w.blk, ctl := t.w.ctl, oe := t.w.oe, rst := t.w.rst }
  drawn : Drawn tr.length s t
  trace : t.trace = s.trace ++ tr

theorem Records.append {tr tr' : List Txn} {s t u : State} (h : Records tr s t) (k : Records tr' t u) : Records (tr ++ tr') s u where
  chan := k.chan.trans h.chan
  cfg := k.cfg.trans h.cfg
  cmd := k.cmd.trans h.cmd
  rsp := k.rsp.trans h.rsp
  vm hw := (k.vm fun x hx => hw x (List.mem_append_right _ hx)).trans (h.vm fun x hx => hw x (List.mem_append_left _ hx))
  quiet := k.quiet ∘ h.quiet
  work := by rw [k.work, h.work]
  drawn := by rw [List.length_append]; exact drawn_trans h.drawn k.drawn
  trace := by rw [k.trace, h.trace, List.append_assoc]

/-- A write answered `ok` at once is recorded with all its bytes taken. -/
theorem writeTxns_one_ok {s : State} {reg : RegAddr} {data : List Byte} (h : FirstWriteOk s data.length 0) :
    writeTxns s reg data (0 + 1) = [okWrite s.cfg (reg :: data)] := by
  obtain ⟨-, -, hok⟩ := h
  rw [WriteOk] at hok
  rw [writeTxns_one (drawn_zero s) rfl, hok]
  rfl

/-- A write as the steps from S5A to S8 make it. -/
theorem records_write {s : State} (reg : RegAddr) {data : List Byte} (h : FirstWriteOk s data.length 0) (q : Seq) (l : Bool) (o : UnitOperand)
    (m : Memory) (w : Work) (hw : w = { s.w with blk := w.blk, ctl := w.ctl, oe := w.oe, rst := w.rst }) :
    Records [okWrite s.cfg (reg :: data)] s { s with
      seq := q, busLock := l, att := 0, xport := s.xport.drop (0 + 1), draws := drawsAfter (0 + 1) s, opnd := o, w := w
      trace := s.trace ++ writeTxns s reg data (0 + 1), chip := m } :=
  ⟨rfl, rfl, rfl, rfl, fun _ => rfl, id, hw, ⟨rfl, rfl⟩, congrArg _ (writeTxns_one_ok h)⟩

/-- A read-back of a register whose content is known uses up one draw (spec/20_memory.md R57). -/
theorem records_read {s : State} {reg : RegAddr} {b v : Byte} (h : FirstReadOk s reg 0 b) (hk : s.chip.read reg.toNat = some v) (q : Seq)
    (o : UnitOperand) (vm : Bool) :
    Records [⟨s.cfg.chipAddr, reg, .read 1, .bytes [b]⟩] s { s with
      seq := q, att := 0, xport := s.xport.drop (0 + 1), draws := drawsAfterReads reg 0 s, opnd := o, vm := vm
      trace := s.trace ++ readTxns s reg (0 + 1) } := by
  obtain ⟨-, -, hb⟩ := h
  have known : drawsAfterReads reg 0 s = drawsAfter (0 + 1) s := if_neg (by rw [hk]; simp)
  refine ⟨rfl, rfl, rfl, rfl, fun hw => ?_, id, rfl, ⟨rfl, known⟩, ?_⟩
  · exact absurd (hw _ (List.mem_singleton_self _)) Bool.false_ne_true
  · show _ ++ readTxns s reg (0 + 1) = _
    rw [readTxns_succ, hb]
    rfl

/-- The state after a byte write answered `ok` at once. -/
def byteWritten (s : State) (reg : RegAddr) (v : Byte) (q : Seq) (w : Work) : State :=
  { s with
    seq := q, att := 0, xport := s.xport.drop (0 + 1), draws := drawsAfter (0 + 1) s, opnd := ⟨reg, v⟩, w := w
    trace := s.trace ++ writeTxns s reg [v] (0 + 1), chip := s.chip.write reg.toNat v }

/-- The state after a read-back answered `b` at once. -/
def byteVerified (s : State) (reg : RegAddr) (v b : Byte) (q : Seq) : State :=
  { s with
    seq := q, att := 0, xport := s.xport.drop (0 + 1), draws := drawsAfterReads reg 0 s, opnd := ⟨reg, v⟩, vm := if b = v then s.vm else true
    trace := s.trace ++ readTxns s reg (0 + 1) }

/-- A byte write and the read-back that follows it with `VERIFY_ENABLE`: the shape S6, S6V and S7, S7V share (spec/42_coordinator.md R191, R192).
The read-back is of a register just written, so its content is known. -/
theorem run_verified {s : State} {reg : RegAddr} {v : Byte} {qv q : Seq} {w : Work}
    (hw : w = { s.w with blk := w.blk, ctl := w.ctl, oe := w.oe, rst := w.rst }) (h : FirstWriteOk s 1 0)
    (hr : s.cfg.verifyEnable = true → readOracle s reg 1 ≠ none)
    (hwrite : step s = .next (byteWritten s reg v (if s.cfg.verifyEnable then qv else q) w))
    (hread : ∀ b, FirstReadOk (byteWritten s reg v qv w) reg 0 b →
      step (byteWritten s reg v qv w) = .next (byteVerified (byteWritten s reg v qv w) reg v b q)) :
    ∃ b t, run (1 + readBacks s.cfg) s = .next t ∧ t.seq = q ∧ Records ([okWrite s.cfg [reg, v]] ++ readBack s.cfg [reg, v] b) s t := by
  have written (q' : Seq) : Records [okWrite s.cfg [reg, v]] s (byteWritten s reg v q' w) := records_write reg h _ s.busLock _ _ w hw
  simp only [readBacks, readBack]
  cases hv : s.cfg.verifyEnable with
  | false =>
    rw [hv] at hwrite
    exact ⟨0, _, run_one hwrite, rfl, written q⟩
  | true =>
    rw [hv] at hwrite
    obtain ⟨b, hb⟩ := Option.ne_none_iff_exists'.mp ((readOracle_ne_none_drawn (written qv).drawn reg 0).mpr (hr hv))
    have first : FirstReadOk (byteWritten s reg v qv w) reg 0 b := ⟨by decide, nofun, hb⟩
    have known : (byteWritten s reg v qv w).chip.read reg.toNat = some v := (read_write ..).trans (if_pos rfl)
    exact ⟨b, _, (run_add 1 (run_one hwrite)).trans (run_one (hread b first)), rfl,
      (written qv).append (records_read first known q _ _)⟩

section Steps

variable {s : State} {c : Channel} (hq : Quiet s) (hc : s.w.ch = some c)

include hq

theorem step_of_seqStep {t : State} (hne : s.seq ≠ .idle) (h : seqStep s = .ok t) : step s = .next t :=
  (step_of_quiet hq hne).trans (congrArg finish h)

include hc

theorem stepS5a_records {p1 : BitVec 32} {p2 : BitVec 20} {p3 : BitVec 21} (hs : s.seq = .s5a) (h1 : s.w.pllP1 = some p1)
    (h2 : s.w.pllP2 = some p2) (h3 : s.w.pllP3 = some p3) (h : FirstWriteOk s 8 0) :
    ∃ t, run 1 s = .next t ∧ t.seq = .s5b ∧ Records [okWrite s.cfg (pllBase s.cfg (pllSrc c) :: (encodePll p1 p2 p3).toList)] s t :=
  ⟨_, run_one (step_of_seqStep hq (by rw [hs]; decide) (by rw [seqStep, hs]; exact stepS5a_ok hc h1 h2 h3 h)), rfl,
    records_write _ (data := Block.toList _) h _ _ _ _ _ rfl⟩

theorem stepS5b_records {p1 : BitVec 32} {p2 : BitVec 20} {p3 : BitVec 21} {d : Bool} {r : BitVec 3} (hs : s.seq = .s5b)
    (h1 : s.w.msP1 = some p1) (h2 : s.w.msP2 = some p2) (h3 : s.w.msP3 = some p3) (h4 : s.w.msDiv4 = some d) (h5 : s.w.msR = some r)
    (h : FirstWriteOk s 8 0) :
    ∃ t, run 1 s = .next t ∧ t.seq = .s6 ∧
      Records [okWrite s.cfg (msBase c :: (if d then s.cfg.divBy4Block else encodeMs p1 p2 p3 r).toList)] s t :=
  ⟨_, run_one (step_of_seqStep hq (by rw [hs]; decide) (by rw [seqStep, hs]; exact stepS5b_ok hc (encmOp_ok h1 h2 h3 h4 h5) h)), rfl,
    records_write _ (data := Block.toList _) h _ s.busLock _ _ _ rfl⟩

theorem stepS6_records {int d inv : Bool} (hs : s.seq = .s6) (h1 : s.w.msInt = some int) (h2 : s.w.msDiv4 = some d) (h3 : s.w.inv = some inv)
    (h : FirstWriteOk s 1 0) (hr : s.cfg.verifyEnable = true → readOracle s (regClk c) 1 ≠ none) :
    let frame := [regClk c, ctlByte (controlIntBit int d) (pllSrc c == .B) inv s.cfg.idrv]
    ∃ b t, run (1 + readBacks s.cfg) s = .next t ∧ t.seq = .s7 ∧ Records ([okWrite s.cfg frame] ++ readBack s.cfg frame b) s t :=
  run_verified (qv := .s6v) (w := { s.w with ctl := some _ }) rfl h hr
    (step_of_seqStep hq (by rw [hs]; decide) (by rw [seqStep, hs]; exact stepS6_ok hc h1 h2 h3 h))
    fun _ hb => step_of_seqStep (s := byteWritten s ..) hq nofun (stepS6v_ok hc rfl hb)

theorem stepS7_records (hs : s.seq = .s7) (h : FirstWriteOk s 1 0) (hr : s.cfg.verifyEnable = true → readOracle s regOe 1 ≠ none) :
    ∃ b t, run (1 + readBacks s.cfg) s = .next t ∧ t.seq = .s8 ∧
      Records ([okWrite s.cfg [3, oeByte s.chan c]] ++ readBack s.cfg [3, oeByte s.chan c] b) s t :=
  run_verified (qv := .s7v) (w := { s.w with oe := some _ }) rfl h hr
    (step_of_seqStep hq (by rw [hs]; decide) (by rw [seqStep, hs]; exact stepS7_ok hc h))
    fun _ hb => step_of_seqStep (s := byteWritten s ..) hq nofun (stepS7v_ok rfl hb)

theorem stepS8_records (hs : s.seq = .s8) (h : FirstWriteOk s 1 0) :
    ∃ t, run 1 s = .next t ∧ t.seq = .s9 ∧ Records [okWrite s.cfg [177, rstByte s.cfg (pllSrc c)]] s t :=
  ⟨_, run_one (step_of_seqStep hq (by rw [hs]; decide) (by rw [seqStep, hs]; exact stepS8_ok hc h)), rfl,
    records_write _ (data := [_]) h _ s.busLock _ _ _ rfl⟩

end Steps

/-- The answers a SETF needs, as the transactions of its writes and read-backs. -/
theorem answers_of_setfAnswerOk {s : State} {c : Channel} (h : ∀ j, j < 5 + 2 * readBacks s.cfg → SetfAnswerOk s c 0 j) :
    WriteOk s 8 0 ∧ WriteOk s 8 1 ∧ WriteOk s 1 2 ∧ (s.cfg.verifyEnable = true → readOracle s (regClk c) 3 ≠ none) ∧
      WriteOk s 1 (3 + readBacks s.cfg) ∧ (s.cfg.verifyEnable = true → readOracle s regOe 5 ≠ none) ∧
      WriteOk s 1 (4 + 2 * readBacks s.cfg) := by
  simp only [SetfAnswerOk, Nat.zero_add] at h
  rw [readBacks] at h ⊢
  cases hv : s.cfg.verifyEnable with
  | false =>
    simp only [hv] at h
    exact ⟨h 0 (by decide), h 1 (by decide), h 2 (by decide), nofun, h 3 (by decide), nofun, h 4 (by decide)⟩
  | true =>
    simp only [hv] at h
    exact ⟨h 0 (by decide), h 1 (by decide), h 2 (by decide), fun _ => h 3 (by decide), h 4 (by decide), fun _ => h 5 (by decide),
      h 6 (by decide)⟩

/-- From S5A on what step 4 leaves, with every transaction answered `ok`, a SETF reaches S9. -/
theorem run_records {s : State} {c : Channel} {inv : Bool} {ph : BitVec 16} {f vco : Hz} {n : BitVec 11} {r : BitVec 3} {p : FracParams}
    {w : Work} (hq : Quiet s) (hs : s.seq = .s5a) (hw : s.w = plannedWork w ph f vco n r p) (hc : w.ch = some c) (hinv : w.inv = some inv)
    (h : ∀ j, j < 5 + 2 * readBacks s.cfg → SetfAnswerOk s c 0 j) :
    ∃ b b' t, run (5 + 2 * readBacks s.cfg) s = .next t ∧ t.seq = .s9 ∧
      Records (sentTxns s.cfg (plannedFrames s.cfg s.chan c inv ph f n r p) b b') s t := by
  obtain ⟨w0, w1, w2, hctl, w3, hoe, w4⟩ := answers_of_setfAnswerOk h
  have hcs : s.w.ch = some c := by rw [hw]; exact hc
  obtain ⟨t1, r1, q1, i1⟩ := stepS5a_records hq hcs hs (by rw [hw]; rfl) (by rw [hw]; rfl) (by rw [hw]; rfl)
    (firstWriteOk_drawn (drawn_zero s) w0)
  obtain ⟨t2, r2, q2, i2⟩ := stepS5b_records (i1.quiet hq) (by rw [i1.work]; exact hcs) q1 (by rw [i1.work, hw]; rfl) (by rw [i1.work, hw]; rfl)
    (by rw [i1.work, hw]; rfl) (by rw [i1.work, hw]; rfl) (by rw [i1.work, hw]; rfl) (firstWriteOk_drawn i1.drawn w1)
  have i2 := i1.append i2
  obtain ⟨b, t3, r3, q3, i3⟩ := stepS6_records (i2.quiet hq) (by rw [i2.work]; exact hcs) q2 (by rw [i2.work, hw]; rfl)
    (by rw [i2.work, hw]; rfl) (by rw [i2.work, hw]; exact hinv) (firstWriteOk_drawn i2.drawn w2)
    fun hv => (readOracle_ne_none_drawn i2.drawn _ 1).mpr (hctl (by rw [← i2.cfg]; exact hv))
  have i3 := i2.append i3
  have d3 : Drawn (3 + readBacks s.cfg) s t3 := by
    have := i3.drawn
    simp only [List.length_append, List.length_singleton, readBack_length, i2.cfg] at this
    rwa [← Nat.add_assoc] at this
  obtain ⟨b', t4, r4, q4, i4⟩ := stepS7_records (i3.quiet hq) (by rw [i3.work]; exact hcs) q3 (firstWriteOk_drawn d3 w3)
    fun hv => by
      rw [i3.cfg] at hv
      rw [readBacks, if_pos hv] at d3
      exact (readOracle_ne_none_drawn d3 _ 1).mpr (hoe hv)
  have i4 := i3.append i4
  have d4 : Drawn (4 + 2 * readBacks s.cfg) s t4 := by
    have := i4.drawn
    simp only [List.length_append, List.length_singleton, readBack_length, i2.cfg, i3.cfg] at this
    convert this using 1
    omega
  obtain ⟨t5, r5, q5, i5⟩ := stepS8_records (i4.quiet hq) (by rw [i4.work]; exact hcs) q4 (firstWriteOk_drawn d4 w4)
  have i5 := i4.append i5
  have steps : run (1 + (1 + (1 + readBacks s.cfg + (1 + readBacks s.cfg + 1)))) s = .next t5 := by
    rw [i2.cfg] at r3
    rw [i3.cfg] at r4
    rw [run_add _ r1, run_add _ r2, run_add _ r3, run_add _ r4, r5]
  rw [i1.cfg, i2.cfg, i3.chan, i3.cfg, i4.cfg] at i5
  refine ⟨b, b', t5, ?_, q5, i5⟩
  rw [← steps]
  congr 1
  omega

/-! ### A whole SETF -/

/-- What steps 3 and 4 compute for a frequency (spec/40_planner.md R122, R132, spec/42_coordinator.md R187, R188). -/
structure PlanFor (cfg : Params) (f vco : Hz) (n : BitVec 11) (r : BitVec 3) (p : FracParams) : Prop where
  planned : Planned f vco n r
  searched : f.toNat ≤ 150000000 → searchVco f.toNat = some (vco.toNat, n.toNat, r.toNat)
  pll : frac vco.toNat cfg.xtalHz.toNat = some p

/-- A frequency has one plan. -/
theorem PlanFor.unique {cfg : Params} {f vco vco' : Hz} {n n' : BitVec 11} {r r' : BitVec 3} {p p' : FracParams} (h : PlanFor cfg f vco n r p)
    (h' : PlanFor cfg f vco' n' r' p') : n = n' ∧ r = r' ∧ p = p' := by
  have same : vco.toNat = vco'.toNat ∧ n = n' ∧ r = r' := by
    by_cases hf : f.toNat ≤ 150000000
    · have e := (h.searched hf).symm.trans (h'.searched hf)
      simp only [Option.some.injEq, Prod.mk.injEq] at e
      exact ⟨e.1, BitVec.eq_of_toNat_eq e.2.1, BitVec.eq_of_toNat_eq e.2.2⟩
    · obtain ⟨hv, ⟨-, rfl, rfl⟩ | ⟨hle, -⟩⟩ := h.planned
      · obtain ⟨hv', ⟨-, rfl, rfl⟩ | ⟨hle, -⟩⟩ := h'.planned
        · exact ⟨hv.trans hv'.symm, rfl, rfl⟩
        · exact absurd hle hf
      · exact absurd hle hf
  obtain ⟨hv, hn, hr⟩ := same
  exact ⟨hn, hr, Option.some.inj (h.pll.symm.trans (hv ▸ h'.pll))⟩

/-- `t` is `s` after a SETF of `f` on channel `c` that sent the frames, all of them answered `ok`, and committed. -/
structure Completes (c : Channel) (f : Hz) (frames : List (List Byte)) (s t : State) : Prop where
  ready : Ready t
  cfg : t.cfg = s.cfg
  cmd : t.cmd = s.cmd.tail
  chan : t.chan = s.chan.set c ⟨f, f, .active⟩
  drawn : Drawn (5 + 2 * readBacks s.cfg) s t
  sends : ∃ b b', t.trace = s.trace ++ sentTxns s.cfg frames b b'
  responds : ∃ vm, t.rsp = s.rsp ++ [respWord 0 (chNum c) vm f.toNat] ∧ (s.cfg.verifyEnable = false → vm = false)

/-- A legal SETF whose transactions are all answered `ok` completes: accepted, planned in four steps, written, committed. -/
theorem run_setf {s : State} {c : Channel} {inv : Bool} {ph : BitVec 16} {f : Hz} {rest : List (BitVec 64)} (hx : XtalLegal s.cfg) (hr : Ready s)
    (hcmd : s.cmd = packCmd 1 (BitVec.ofNat 2 (chNum c)) inv ph f :: rest) (hin : InRange f) (hsib : siblingAllows s.chan c f = true)
    (h : ∀ j, j < 5 + 2 * readBacks s.cfg → SetfAnswerOk s c 0 j) :
    ∃ vco n r p t, PlanFor s.cfg f vco n r p ∧ run (5 + 2 * readBacks s.cfg + 6) s = .next t ∧
      Completes c f (plannedFrames s.cfg s.chan c inv ph f n r p) s t := by
  have accepted := run_one (step_accepts hr hcmd)
  obtain ⟨vco, n, r, p, u, hp, hsearch, hfrac, planned, hu⟩ := run_plans (s := acceptSetf c inv ph f { s with cmd := rest }) hx hr.1 rfl
    rfl rfl rfl hin hsib
  have hq : Quiet u := by rw [hu]; exact hr.1
  have hw : u.w = plannedWork (acceptSetf c inv ph f s).w ph f vco n r p := by rw [hu]; rfl
  have hchan : u.chan = s.chan.set c { s.chan.get c with phase := .configuring } := by rw [hu]; rfl
  have hcfg : u.cfg = s.cfg := by rw [hu]; rfl
  have hdrawn : Drawn 0 s u := by rw [hu]; exact drawn_zero s
  obtain ⟨b, b', t, written, ht9, i⟩ := run_records (c := c) (inv := inv) hq (by rw [hu]) hw rfl rfl fun j hj =>
    (setfAnswerOk_drawn hdrawn hcfg c j).mpr (h j (by rwa [hcfg] at hj))
  have frames : plannedFrames u.cfg u.chan c inv ph f n r p = plannedFrames s.cfg s.chan c inv ph f n r p := by
    simp only [plannedFrames, hcfg, hchan, setPhase_oeByte]
  rw [frames, hcfg] at i
  rw [hcfg] at written
  obtain ⟨committed, hreal⟩ := stepNineCommits t c f vco n r (i.quiet hq) ht9 (by rw [i.work, hw]; rfl) (by rw [i.work, hw]; rfl)
    (by rw [i.work, hw]; rfl) (by rw [i.work, hw]; rfl) (by rw [i.work, hw]; rfl) (realized_planned hp).1
  rw [hreal hp, BitVec.ofNat_toNat, BitVec.setWidth_eq] at committed
  have steps : run (1 + (5 + 2 * readBacks s.cfg + 1 + 4)) s = _ :=
    (run_add _ accepted).trans ((planned _).trans ((run_add 1 written).trans (run_one committed)))
  refine ⟨vco, n, r, p, _, ⟨hp, hsearch, hfrac⟩, (congrArg (run · s) (by omega)).trans steps,
    ⟨⟨i.quiet hq, rfl, rfl⟩, i.cfg.trans hcfg, ?_, ?_, ?_, ⟨b, b', ?_⟩, ⟨t.vm, ?_, fun hv => ?_⟩⟩⟩
  · exact i.cmd.trans (by rw [hu, hcmd]; rfl)
  · show t.chan.set c _ = _
    rw [i.chan, hchan, channels_set_set]
  · have all := drawn_trans hdrawn i.drawn
    rw [plannedFrames, sentTxns_length, Nat.zero_add] at all
    exact all
  · exact i.trace.trans (by rw [hu]; rfl)
  · show t.rsp ++ _ = _
    rw [i.rsp, hu]
    rfl
  · exact (i.vm (isWrite_of_sentTxns_unverified _ _ _ _ _ _ _ hv)).trans (by rw [hu]; rfl)

/-! ### The same SETF again -/

/-- The sibling of a channel is another one: a commit leaves the shared-PLL test for the same channel. -/
theorem set_siblingAllows (cs : Channels) (c : Channel) (v : ChannelRecord) (f : Hz) : siblingAllows (cs.set c v) c f = siblingAllows cs c f := by
  cases c <;> rfl

/-- The channel being configured counts as in use whatever its record holds (spec/42_coordinator.md R192). -/
theorem set_oeByte (cs : Channels) (c : Channel) (v : ChannelRecord) : oeByte (cs.set c v) c = oeByte cs c := by
  have used (d : Channel) : inUse (cs.set c v) c d = inUse cs c d := by
    by_cases hd : d = c
    · simp [inUse, hd]
    · rw [inUse, inUse, channels_get_set_other _ _ _ _ hd]
  simp only [oeByte, oeBit, used]

/-- Settles O57: both calls complete (`run_setf`) with the same plan, and so with the same frames. -/
theorem repeatedSetfIsIdempotent : Obligations.RepeatedSetfIsIdempotent := by
  intro s c inv ph f rest hi hr hcmd hin hsib
  rw [setf_txns]
  intro txns h
  obtain ⟨vco, n, r, p, t, hplan, first, done⟩ := run_setf hi.xtal hr hcmd hin hsib fun j hj => (h j hj).1
  obtain ⟨vco', n', r', p', u, hplan', second, done'⟩ := run_setf (s := t) (c := c) (f := f) (by rw [done.cfg]; exact hi.xtal) done.ready
    (by rw [done.cmd, hcmd]; rfl) hin (by rw [done.chan, set_siblingAllows]; exact hsib)
    (by rw [done.cfg]; exact fun j hj => (setfAnswerOk_drawn done.drawn done.cfg c j).mpr (h j hj).2)
  rw [done.cfg] at hplan' second
  obtain ⟨rfl, rfl, rfl⟩ := hplan.unique hplan'
  obtain ⟨b, b', sends⟩ := done.sends
  obtain ⟨a, a', sends'⟩ := done'.sends
  obtain ⟨v, responds, hv⟩ := done.responds
  obtain ⟨w, responds', hw⟩ := done'.responds
  have frames : plannedFrames t.cfg t.chan c inv ph f n r p = plannedFrames s.cfg s.chan c inv ph f n r p := by
    simp only [plannedFrames, done.cfg, done.chan, set_oeByte]
  rw [frames, done.cfg] at sends'
  rw [done.cfg] at hw
  exact ⟨t, u, _, _, v, w, first, second, sends, sends', sentTxns_length .., sentTxns_length .., sentTxns_frames .., sentTxns_writes .., responds,
    responds', by rw [done.chan, channels_get_set_same], by rw [done'.chan, channels_get_set_same], by rw [done'.cmd, done.cmd, hcmd]; rfl,
    fun h0 => ⟨sentTxns_unverified _ _ _ _ _ _ _ _ _ h0, hv h0, hw h0⟩⟩

end Sys2Proof.Machine

/-! SUPPORT. The two formats of an encoded operation: what decodes and to what, how an illegal word is answered, and the expansion of SETQ. -/

namespace Sys2Proof

/-! ### Command words -/

/-- Every word is a word of six fields. -/
theorem exists_cmdWord (w : BitVec 64) : ∃ op ch inv rsv ph hz, w = cmdWord op ch inv rsv ph hz :=
  ⟨_, _, _, _, _, _, (cmdWord_fields w).symm⟩

theorem fieldCh_toNat (w : BitVec 64) : (fieldCh w).toNat = w.toNat / 2 ^ 58 % 4 := by
  rw [fieldCh, BitVec.extractLsb'_toNat, Nat.shiftRight_eq_div_pow]

theorem ofBool_beq_one (b : BitVec 1) : BitVec.ofBool (b == 1#1) = b := by revert b; decide

theorem beq_one_ofBool (b : Bool) : (BitVec.ofBool b == 1#1) = b := by cases b <;> rfl

/-- SETF's word decodes to its four operands (spec/30_encoding.md R84, R104). -/
theorem decodeCmd_setf {ch : BitVec 2} (inv : Bool) (ph : BitVec 16) (hz : Hz) (h : channelLegal ch = true) :
    decodeCmd (packCmd 1 ch inv ph hz) = .ok (.setf ch inv ph hz) := by
  rw [packCmd_eq, decodeCmd_cmdWord, if_pos ⟨rfl, rfl⟩, if_pos h, beq_one_ofBool]

/-- GETR's word decodes to its channel. -/
theorem decodeCmd_getr {ch : BitVec 2} (h : channelLegal ch = true) : decodeCmd (packCmd 2 ch false 0 0) = .ok (.getr ch) := by
  rw [packCmd_eq, decodeCmd_cmdWord, if_neg (by simp), if_pos ⟨rfl, rfl, rfl, rfl, rfl⟩, if_pos h]

/-- GETQ's word decodes to its channel. -/
theorem decodeCmd_getq {ch : BitVec 2} (h : channelLegal ch = true) : decodeCmd (packCmd 3 ch false 0 0) = .ok (.getq ch) := by
  rw [packCmd_eq, decodeCmd_cmdWord, if_neg (by simp), if_neg (by simp), if_pos ⟨rfl, rfl, rfl, rfl, rfl⟩, if_pos h]

/-- A word that decodes is the encoding of what it decodes to, which names a channel: the row's must-be-zero fields leave no other word
(spec/30_encoding.md R84, R85). -/
theorem encode_of_decodeCmd {w : BitVec 64} {i : Instr} (h : decodeCmd w = .ok i) : i.wellFormed = true ∧ encode i = .cmd w := by
  obtain ⟨op, ch, inv, rsv, ph, hz, rfl⟩ := exists_cmdWord w
  rw [decodeCmd_cmdWord] at h
  split at h
  · next hrow =>
    obtain ⟨rfl, rfl⟩ := hrow
    split at h <;> cases h
    exact ⟨‹_›, by rw [encode, packCmd_eq, ofBool_beq_one]⟩
  · split at h
    · next hrow =>
      obtain ⟨rfl, rfl, rfl, rfl, rfl⟩ := hrow
      split at h <;> cases h
      exact ⟨‹_›, rfl⟩
    · split at h
      · next hrow =>
        obtain ⟨rfl, rfl, rfl, rfl, rfl⟩ := hrow
        split at h <;> cases h
        exact ⟨‹_›, rfl⟩
      · split at h <;> cases h

/-! ### Select codes -/

/-- A select code that decodes is the encoding of what it decodes to (spec/30_encoding.md R90). -/
theorem encode_of_decodeUop {c : BitVec 4} {i : Instr} (h : decodeUop c = .ok i) : i.wellFormed = true ∧ encode i = .uop c := by
  rw [decodeUop] at h
  split at h <;> cases h
  all_goals exact ⟨rfl, congrArg Code.uop (BitVec.eq_of_toNat_eq (Eq.symm ‹_›))⟩

/-- The codes 11 to 15 name no micro-operation (spec/30_encoding.md R90). -/
theorem decodeUop_unused {c : BitVec 4} (h : 11 ≤ c.toNat) : decodeUop c = .error .unusedSelectCode := by
  revert c; decide

/-! ### Both formats -/

/-- The decoder accepts exactly the encodings of well-formed instructions, each as the instruction it encodes. -/
theorem decode_eq_ok_iff {c : Code} {i : Instr} : decode c = .ok i ↔ i.wellFormed = true ∧ encode i = c := by
  constructor
  · cases c with
    | cmd w => exact encode_of_decodeCmd
    | uop c => exact encode_of_decodeUop
  · rintro ⟨h, rfl⟩
    cases i with
    | setf ch inv ph hz => exact decodeCmd_setf inv ph hz h
    | getr ch => exact decodeCmd_getr h
    | getq ch => exact decodeCmd_getq h
    | _ => rfl

/-- Settles O1: the decoder accepts the encodings of well-formed instructions (`decode_eq_ok_iff`). -/
theorem decodeOfEncodeIsTheInstruction : Obligations.DecodeOfEncodeIsTheInstruction :=
  fun _ h => decode_eq_ok_iff.mpr ⟨h, rfl⟩

/-- Settles O2: the decoder accepts nothing else (`decode_eq_ok_iff`). -/
theorem encodeOfDecodedCodeIsTheCode : Obligations.EncodeOfDecodedCodeIsTheCode :=
  fun _ _ h => (decode_eq_ok_iff.mp h).2

/-- Settles O3: each of the six is the encoding of the instruction the spec gives for it. -/
theorem specWordsDecode : Obligations.SpecWordsDecode := by
  refine ⟨?_, ?_, ?_, ?_, ?_, ?_⟩ <;> exact decode_eq_ok_iff.mpr ⟨rfl, rfl⟩

/-- The fields of a packed word, read off by division (spec/30_encoding.md R82). -/
theorem packCmd_fields (op : BitVec 4) (ch : BitVec 2) (inv : Bool) (ph : BitVec 16) (hz : Hz) :
    (packCmd op ch inv ph hz).toNat / 2 ^ 60 = op.toNat ∧ (packCmd op ch inv ph hz).toNat / 2 ^ 58 % 4 = ch.toNat ∧
    (packCmd op ch inv ph hz).toNat / 2 ^ 57 % 2 = inv.toNat ∧ (packCmd op ch inv ph hz).toNat / 2 ^ 48 % 2 ^ 9 = 0 ∧
    (packCmd op ch inv ph hz).toNat % 2 ^ 48 = ph.toNat * 2 ^ 32 + hz.toNat := by
  have hrsv : (0 : BitVec 9).toNat = 0 := rfl
  have hinv : inv.toNat ≤ 1 := inv.toNat_le
  rw [packCmd_eq, cmdWord_toNat, hrsv, BitVec.toNat_ofBool]
  omega

/-- What R88 asks of a legal word, by the arithmetic of its fields. -/
theorem legal_of_decodeCmd {w : BitVec 64} {i : Instr} (h : decodeCmd w = .ok i) :
    w.toNat / 2 ^ 58 % 4 ≠ 3 ∧ w.toNat / 2 ^ 48 % 2 ^ 9 = 0 ∧
    (w.toNat / 2 ^ 60 = 1 ∨
      ((w.toNat / 2 ^ 60 = 2 ∨ w.toNat / 2 ^ 60 = 3) ∧ w.toNat / 2 ^ 57 % 2 = 0 ∧ w.toNat % 2 ^ 48 = 0)) := by
  obtain ⟨hwf, henc⟩ := encode_of_decodeCmd h
  have channel : ∀ {ch : BitVec 2}, channelLegal ch = true → ch.toNat ≠ 3 :=
    fun hl h3 => (channelLegal_iff _).mp hl (BitVec.eq_of_toNat_eq h3)
  cases i with
  | setf ch inv ph hz =>
    cases henc
    obtain ⟨hop, hch, -, hrsv, -⟩ := packCmd_fields 1 ch inv ph hz
    exact ⟨hch ▸ channel hwf, hrsv, .inl hop⟩
  | getr ch =>
    cases henc
    obtain ⟨hop, hch, hinv, hrsv, hlow⟩ := packCmd_fields 2 ch false 0 0
    exact ⟨hch ▸ channel hwf, hrsv, .inr ⟨.inl hop, hinv, hlow⟩⟩
  | getq ch =>
    cases henc
    obtain ⟨hop, hch, hinv, hrsv, hlow⟩ := packCmd_fields 3 ch false 0 0
    exact ⟨hch ▸ channel hwf, hrsv, .inr ⟨.inr hop, hinv, hlow⟩⟩
  | _ => cases henc

namespace Machine

/-! ### The answer to an illegal command -/

/-- The answer of R88, by the arithmetic of R86. -/
theorem respondIllegal_eq (ch : BitVec 2) (s : State) : respondIllegal ch s = { s with rsp := s.rsp ++ [respWord 15 ch.toNat false 0] } := by
  rw [respondIllegal, respond, rspWord_eq]
  rfl

/-- The port of a block with BUSY = 0 takes a word that decodes to nothing and answers it. -/
theorem portStep_illegal {s : State} {w : BitVec 64} {rest : List (BitVec 64)} (hb : s.busy = false) (hc : s.cmd = w :: rest)
    (hd : ∀ i, decodeCmd w ≠ .ok i) : portStep s = .next (respondIllegal (fieldCh w) { s with cmd := rest }) := by
  rw [portStep, hc]
  rcases h : decodeCmd w with r | i
  · simp [h, hb]
  · exact absurd h (hd i)

/-- Settles O4: a word that is illegal by R88 does not decode (`legal_of_decodeCmd`), and the port answers it. -/
theorem illegalCommandIsAnsweredAndChangesNothing : Obligations.IllegalCommandIsAnsweredAndChangesNothing := by
  intro s w rest ⟨hq, hs, hb⟩ hc op ch rsv low inv hbad
  have hd : ∀ i, decodeCmd w ≠ .ok i := by
    intro i h
    obtain ⟨hch, hrsv, hrow⟩ := legal_of_decodeCmd h
    omega
  rw [step_of_idle hq hs, portStep_illegal hb hc hd, respondIllegal_eq, fieldCh_toNat]

/-- A command on channel 3, which names none, is answered like the word it encodes to (log 20). -/
theorem exec_channel_three {s : State} {i : Instr} (hb : s.busy = false)
    (hi : (∃ inv ph hz, i = .setf 3 inv ph hz) ∨ i = .getr 3 ∨ i = .getq 3) : exec i s = .next (respondIllegal 3 s) := by
  have no_channel : chOfBits 3 = none := chOfBits_eq_none.mpr rfl
  obtain ⟨inv, ph, hz, rfl⟩ | rfl | rfl := hi
  · rw [exec, execSetf, hb, no_channel]; rfl
  · rw [exec, execGetr, hb, no_channel]; rfl
  · rw [exec, execGetq, hb, no_channel]; rfl

/-- Settles O14: the answer is that to an illegal word. -/
theorem channelThreeIsIllegal : Obligations.ChannelThreeIsIllegal :=
  fun s _ hb hi => (exec_channel_three hb hi).trans (congrArg _ (respondIllegal_eq 3 s))

/-! ### A direct call -/

/-- With a direct call latched and no reset, a step is the call's (log 5). -/
theorem step_of_uop {s : State} {c : BitVec 4} (hr : s.rst = .low) (hu : s.uop = some c) : step s = uopStep c s := by
  rw [step, if_neg (by simp [hr]), hu]

/-- Settles O6: the step is `uopStep`, which runs what the select code decodes to. -/
theorem calledMicroOperationRuns : Obligations.CalledMicroOperationRuns := by
  intro s c hr hu
  rw [step_of_uop hr hu, uopStep]
  constructor
  · intro i (hd : decodeUop c = .ok i)
    rw [hd]
  · intro h
    rw [decodeUop_unused h]

/-! ### SETQ -/

/-- No candidate exists above 150 MHz: the least divider is 6 and the VCO ends at 900 MHz (spec/40_planner.md R130). -/
theorem IsCandidate.fout_le {f n r : Nat} (h : IsCandidate f n r) : f ≤ 150000000 := by
  obtain ⟨h6, -, -, -, hhi⟩ := h
  have : f * 1 * 6 ≤ f * 2 ^ r * n := Nat.mul_le_mul (Nat.mul_le_mul_left f Nat.one_le_two_pow) h6
  omega

/-- The clamp of R135 leaves a phase as it is exactly up to 127, outside divide-by-4. -/
theorem appliedPhase_eq_self_iff {u : Nat} : appliedPhase u false = u ↔ u ≤ 127 := min_eq_left_iff

/-- Settles O26: where the search has a result, the frequency is not above 150 MHz. -/
theorem setqExpandsToAQuarterOfTheDivider : Obligations.SetqExpandsToAQuarterOfTheDivider := by
  intro ch hz inv
  refine ⟨fun h => if_pos h, fun v n r hs => ⟨?_, ?_⟩, fun h hs => ?_⟩
  · have hle : hz.toNat ≤ 150000000 := (searchVco_some hs).2.1.fout_le
    rw [expandSetq, if_neg (Nat.not_lt.mpr hle), hs]
  · rw [appliedPhase_eq_self_iff]
    omega
  · rw [expandSetq, if_neg (Nat.not_lt.mpr h), hs]

end Machine

end Sys2Proof

/-! SUPPORT. The planner called through `exec`: FRAC in the registers of CPLL and CMS and its inverse, CHR's exponent, the search of SVCO and its
closed form, and the phase. -/

namespace Sys2Proof.Machine

/-! ### CPLL, CMS and APHO -/

/-- `b` of R122, the fraction of the ratio in units of `2^-20`, rounded down; 0 in integer mode. -/
def fracB (num den : Nat) : Nat := num % den * 2 ^ 20 / den

/-- What FRAC returns inside its precondition, field by field (spec/40_planner.md R122). -/
def fracParams (num den : Nat) : FracParams where
  p1 := if num % den = 0 then 128 * (num / den) - 512 else 128 * (num / den) + 128 * fracB num den / 2 ^ 20 - 512
  p2 := if num % den = 0 then 0 else 128 * fracB num den - 2 ^ 20 * (128 * fracB num den / 2 ^ 20)
  p3 := if num % den = 0 then 1 else 2 ^ 20
  int := num % den == 0

/-- FRAC inside its precondition (spec/40_planner.md R122, R124). -/
theorem frac_eq_some {num den : Nat} (hd : 0 < den) (ha : 4 ≤ num / den) : frac num den = some (fracParams num den) := by
  rw [frac_eq, if_neg (by omega)]
  by_cases h : num % den = 0
  · simp [fracParams, h]
  · simp [fracParams, fracB, h]

/-- FRAC outside its precondition (spec/40_planner.md R124). -/
theorem frac_eq_none {num den : Nat} (h : den = 0 ∨ num / den < 4) : frac num den = none := by
  rw [frac_eq, if_pos h]

theorem cpllOp_refused {s : State} {vco : Hz} (hv : s.w.vco = some vco) (h : frac vco.toNat s.cfg.xtalHz.toNat = none) :
    cpllOp s = .refused .fracPrecondition := by
  rw [cpllOp, getVco, hv, need_some, bind_ok, h]

theorem cmsOp_refused {s : State} {f vco : Hz} {r : BitVec 3} (hf : s.w.fout = some f) (hr : s.w.r = some r) (hv : s.w.vco = some vco)
    (hle : f.toNat * 2 ^ r.toNat ≤ 150000000) (h : frac vco.toNat (f.toNat * 2 ^ r.toNat) = none) :
    cmsOp s = .refused .fracPrecondition := by
  have hd : ¬ isDivBy4 (f.toNat * 2 ^ r.toNat) = true := by simpa [isDivBy4] using hle
  rw [cmsOp, getFout, getR, hf, hr, need_some, bind_ok, need_some, bind_ok]
  dsimp only
  rw [if_neg hd, getVco, hv, need_some, bind_ok, h]

/-- Settles O16: FRAC inside its precondition (`frac_eq_some`), narrowed into `W.pll`. -/
theorem cpllWritesPllParameters : Obligations.CpllWritesPllParameters := by
  intro s vco hv hx ha x a rem b floorTerm p1
  rw [exec, execCpll, cpllOp_ok hv (frac_eq_some hx ha), fracParams, apply_ite (BitVec.ofNat 20), apply_ite (BitVec.ofNat 21)]
  rfl

/-- Settles O17: the fixed encoding does not depend on FRAC. -/
theorem cmsTakesDivideByFourAbove150MHz : Obligations.CmsTakesDivideByFourAbove150MHz := by
  intro s f r hf hr h
  rw [exec, execCms, cmsOp_div4 hf hr h, writeMs, narrow32_of_lt (by decide)]
  rfl

/-- Settles O18: FRAC inside its precondition (`frac_eq_some`), narrowed into `W.ms`. -/
theorem cmsWritesFractionalParameters : Obligations.CmsWritesFractionalParameters := by
  intro s f vco r hf hr hv hle h0 ha x a rem b floorTerm p1
  have hx : 0 < f.toNat * 2 ^ r.toNat := Nat.mul_pos h0 (Nat.two_pow_pos _)
  rw [exec, execCms, cmsOp_frac hf hr hv hle (frac_eq_some hx ha), writeMs, fracParams, apply_ite (BitVec.ofNat 20),
    apply_ite (BitVec.ofNat 21)]
  rfl

/-- Settles O19: FRAC has no result there (`frac_eq_none`), and both operations are refused. -/
theorem fracPreconditionIsChecked : Obligations.FracPreconditionIsChecked := by
  refine ⟨fun s vco hv h => ?_, fun s f vco r hf hr hv hle h => ?_⟩
  · rw [exec, execCpll, cpllOp_refused hv (frac_eq_none h)]
    rfl
  · have hx : f.toNat * 2 ^ r.toNat = 0 ∨ vco.toNat / (f.toNat * 2 ^ r.toNat) < 4 := h.imp_left fun h0 => by rw [h0, Nat.zero_mul]
    rw [exec, execCms, cmsOp_refused hf hr hv hle (frac_eq_none hx)]
    rfl

/-- Settles O27: the clamp of `appliedPhase` and the sum, narrowed into `W.ms.P1`. -/
theorem aphoAddsClampedPhase : Obligations.AphoAddsClampedPhase := by
  intro s p1 ph d h1 h2 h3 u
  rw [exec, execApho, aphoOp_ok h1 h2 h3]
  rfl

/-! ### CHR -/

theorem chrOp_ok {s : State} {vco f : Hz} {r : Nat} (hv : s.w.vco = some vco) (hf : s.w.fout = some f) (h0 : f ≠ 0)
    (h : chooseR vco.toNat f.toNat = some r) : chrOp s = .ok (BitVec.ofNat 3 r) := by
  rw [chrOp, getVco, getFout, hv, hf, need_some, bind_ok, need_some, bind_ok, if_neg h0, h]

theorem chrOp_raised {s : State} {vco f : Hz} (hv : s.w.vco = some vco) (hf : s.w.fout = some f) (h0 : f ≠ 0)
    (h : chooseR vco.toNat f.toNat = none) : chrOp s = .raised .noValidDivider s := by
  rw [chrOp, getVco, getFout, hv, hf, need_some, bind_ok, need_some, bind_ok, if_neg h0, h]

/-- Outside its domain CHR returns some exponent or raises (spec/40_planner.md R127, log 8). -/
theorem chrOp_zero {s : State} {vco : Hz} (hv : s.w.vco = some vco) (hf : s.w.fout = some 0) :
    (∃ r, chrOp s = .ok r) ∨ chrOp s = .raised .noValidDivider s := by
  rw [chrOp, getVco, getFout, hv, hf, need_some, bind_ok, need_some, bind_ok, if_pos rfl]
  cases Config.chrOutsideDomain vco.toNat with
  | some r => exact .inl ⟨r, rfl⟩
  | none => exact .inr rfl

theorem exec_chr_ok {s : State} {r : BitVec 3} (h : chrOp s = .ok r) : exec .chr s = .next { s with ret := .rDivExp r } := by
  rw [exec, execChr, h]
  rfl

theorem exec_chr_raised {s : State} (h : chrOp s = .raised .noValidDivider s) : ErrorTaken .noValidDivider 2 s (exec .chr s) := by
  rw [exec, execChr, h]
  exact errorTaken_takeError .noValidDivider s

theorem chrFits_eq_false {vco f r : Nat} : chrFits vco f r = false ↔ ¬ (8 * (f * 2 ^ r) ≤ vco ∧ vco ≤ 2048 * (f * 2 ^ r)) := by
  rw [← chrFits_iff, Bool.not_eq_true]

theorem hz_ne_zero {f : Hz} (h : 0 < f.toNat) : f ≠ 0 := by
  rintro rfl
  exact absurd h (by decide)

/-- Settles O20: the least exponent that fits is the one chosen (`chooseR_eq_some`). -/
theorem chrReturnsLeastFittingExponent : Obligations.ChrReturnsLeastFittingExponent := by
  intro s vco f r hv hf h0 hr hlo hhi hmin
  exact exec_chr_ok (chrOp_ok hv hf (hz_ne_zero h0)
    (chooseR_eq_some hr ((chrFits_iff _ _ _).mpr ⟨hlo, hhi⟩) fun q hq => chrFits_eq_false.mpr (hmin q hq)))

/-- Settles O21: no exponent is chosen (`chooseR_eq_none`), or the free outcome of `chrOp_zero`. -/
theorem chrRaisesWhereNoExponentFits : Obligations.ChrRaisesWhereNoExponentFits := by
  refine fun s vco f hv hf => ⟨fun h0 hno => ?_, ?_⟩
  · exact exec_chr_raised (chrOp_raised hv hf (hz_ne_zero h0) (chooseR_eq_none.mpr fun r hr => chrFits_eq_false.mpr (hno r hr)))
  · rintro rfl
    obtain ⟨r, h⟩ | h := chrOp_zero hv hf
    · exact .inl ⟨r, exec_chr_ok h⟩
    · exact .inr (exec_chr_raised h)

/-! ### SVCO and its search -/

/-- The first candidate, by `r` and then by `n`, is what the search returns (spec/40_planner.md R132). -/
theorem searchVco_eq_some {f n r : Nat} (hc : IsCandidate f n r) (hfirst : ∀ m q, IsCandidate f m q → r < q ∨ (r = q ∧ n ≤ m)) :
    searchVco f = some (f * 2 ^ r * n, n, r) := by
  cases hs : searchVco f with
  | none => exact absurd hc (searchVco_none hs n r)
  | some x =>
    obtain ⟨v, m, q⟩ := x
    obtain ⟨rfl, hc', hn, hr⟩ := searchVco_some hs
    have hqr : q ≤ r := hr n r hc
    obtain hlt | ⟨rfl, hnm⟩ := hfirst m q hc'
    · omega
    · rw [Nat.le_antisymm hnm (hn n hc)]

/-- Without a candidate the search returns nothing (spec/40_planner.md R134). -/
theorem searchVco_eq_none {f : Nat} (h : ∀ n r, ¬ IsCandidate f n r) : searchVco f = none := by
  cases hs : searchVco f with
  | none => rfl
  | some x =>
    obtain ⟨v, n, r⟩ := x
    obtain ⟨-, hc, -⟩ := searchVco_some hs
    exact absurd hc (h n r)

theorem svcoOp_raised {s : State} {f : Hz} (hf : s.w.fout = some f) (h : searchVco f.toNat = none) :
    svcoOp s = .raised .noValidDivider s := by
  rw [svcoOp, getFout, hf, need_some, bind_ok, h]

/-- Settles O22: the search returns the first candidate (`searchVco_eq_some`). -/
theorem svcoReturnsFirstCandidate : Obligations.SvcoReturnsFirstCandidate :=
  fun _ _ _ _ hf hc hfirst => congrArg finishUnit (svcoOp_ok hf (searchVco_eq_some hc hfirst))

/-- Settles O23: the search returns nothing (`searchVco_eq_none`), and the error is taken. -/
theorem svcoRaisesWithoutCandidate : Obligations.SvcoRaisesWithoutCandidate :=
  fun _ _ hf h => errorTaken_of_raised (svcoOp_raised hf (searchVco_eq_none h))

/-- The frequencies `g = fout * 2^r` at which exponent `r` has a candidate lie in [333334, 150000000] (spec/40_planner.md R133): `n` is at most
1800 and at least 6. -/
theorem IsCandidate.range {f n r : Nat} (h : IsCandidate f n r) : 333334 ≤ f * 2 ^ r ∧ f * 2 ^ r ≤ 150000000 := by
  obtain ⟨h6, hn, -, hlo, hhi⟩ := h
  have hle : f * 2 ^ r * n ≤ f * 2 ^ r * 1800 := Nat.mul_le_mul_left _ hn
  have hge : f * 2 ^ r * 6 ≤ f * 2 ^ r * n := Nat.mul_le_mul_left _ h6
  omega

/-- Up to 150 MHz the least divider does not pass the upper end of the VCO range. -/
theorem mul_leastN_le_vcoMax {g : Nat} (hg : g ≤ 150000000) : g * leastN g ≤ vcoMax := by
  have hceil : g * ((600000000 + g - 1) / g) ≤ 600000000 + g - 1 := Nat.mul_div_le _ _
  show g * max 6 ((600000000 + g - 1) / g) ≤ 900000000
  obtain h | h := Nat.le_total 6 ((600000000 + g - 1) / g)
  · have h6 : g * 6 ≤ g * ((600000000 + g - 1) / g) := Nat.mul_le_mul_left g h
    rw [Nat.max_eq_right h]
    omega
  · rw [Nat.max_eq_left h]
    omega

/-- From 333334 to 150000000 exponent `r` has a candidate, the one with the least `n` (spec/40_planner.md R133). -/
theorem isCandidate_leastN {f r : Nat} (hr : r ≤ 7) (hlo : 333334 ≤ f * 2 ^ r) (hhi : f * 2 ^ r ≤ 150000000) :
    IsCandidate f (leastN (f * 2 ^ r)) r :=
  have hg : 0 < f * 2 ^ r := by omega
  ⟨leastN_ge _, leastN_le hg (by decide) (show 600000000 ≤ _ by omega), hr, vcoMin_le_mul_leastN hg, mul_leastN_le_vcoMax hhi⟩

/-- The closed form of the search (spec/40_planner.md R133): no smaller exponent reaches 333334, so the first candidate is `isCandidate_leastN`. -/
theorem searchVco_closed_form {f r : Nat} (hr : r ≤ 7) (hlo : 333334 ≤ f * 2 ^ r) (hhi : f * 2 ^ r ≤ 150000000)
    (hmin : ∀ q, q < r → f * 2 ^ q < 333334) : searchVco f = some (f * 2 ^ r * leastN (f * 2 ^ r), leastN (f * 2 ^ r), r) := by
  refine searchVco_eq_some (isCandidate_leastN hr hlo hhi) fun m q hc => ?_
  have hq : 333334 ≤ f * 2 ^ q := hc.range.1
  obtain hlt | rfl | hgt := Nat.lt_trichotomy r q
  · exact .inl hlt
  · obtain ⟨h6, -, -, hvco, -⟩ := hc
    exact .inr ⟨rfl, leastN_le (by omega) h6 hvco⟩
  · have := hmin q hgt
    omega

/-- From 2605 Hz to 150 MHz some exponent is the least that reaches 333334, and it does not pass 150 MHz (spec/40_planner.md R134). -/
theorem exists_least_exponent {f : Nat} (h1 : 2605 ≤ f) (h2 : f ≤ 150000000) :
    ∃ r, r ≤ 7 ∧ 333334 ≤ f * 2 ^ r ∧ f * 2 ^ r ≤ 150000000 ∧ ∀ q, q < r → f * 2 ^ q < 333334 := by
  have h7 : 333334 ≤ f * 2 ^ 7 := by omega
  have hex : ∃ r, 333334 ≤ f * 2 ^ r := ⟨7, h7⟩
  have hmin : ∀ q, q < Nat.find hex → f * 2 ^ q < 333334 := fun q hq => Nat.not_le.mp (Nat.find_min hex hq)
  refine ⟨Nat.find hex, Nat.find_min' hex h7, Nat.find_spec hex, ?_, hmin⟩
  cases hr : Nat.find hex with
  | zero => omega
  | succ q =>
    have := hmin q (by omega)
    rw [Nat.pow_succ, ← Nat.mul_assoc]
    omega

/-- The lowest frequency with a candidate: 2604 stays below 600 MHz at `r = 7` and `n = 1800` (spec/40_planner.md R134). -/
theorem IsCandidate.le_fout {f n r : Nat} (h : IsCandidate f n r) : 2605 ≤ f := by
  have hg : 333334 ≤ f * 2 ^ r := h.range.1
  obtain ⟨-, -, hr, -⟩ := h
  have hpow : f * 2 ^ r ≤ f * 2 ^ 7 := Nat.mul_le_mul_left f (Nat.pow_le_pow_right (by decide) hr)
  omega

/-- A candidate's VCO frequency, divided by `n` and by `2^r`, is the target (spec/40_planner.md R131). -/
theorem IsCandidate.div_eq {f n r : Nat} (h : IsCandidate f n r) : f * 2 ^ r * n / n / 2 ^ r = f := by
  have hn : 0 < n := Nat.lt_of_lt_of_le (by decide) h.1
  rw [Nat.mul_div_cancel _ hn, Nat.mul_div_cancel _ (Nat.two_pow_pos r)]

/-- Settles O24: a result is a candidate (`searchVco_some`), and a candidate's divisions are exact. -/
theorem searchResultsAreExact : Obligations.SearchResultsAreExact := by
  refine ⟨fun f v n r h => ?_, fun f v n r _ m q hc => ⟨hc.div_eq, Nat.mul_mod_right _ _⟩⟩
  obtain ⟨rfl, hc, -⟩ := searchVco_some h
  have hdiv := hc.div_eq
  have hg := hc.range.2
  obtain ⟨h6, hn, hr, hlo, hhi⟩ := hc
  exact ⟨hlo, hhi, rfl, hdiv, h6, hn, hr, hg⟩

/-- Settles O25: a result is a candidate (`searchVco_some`), and where the least exponent exists the closed form is the result. -/
theorem searchHasTheClosedForm : Obligations.SearchHasTheClosedForm := by
  refine ⟨fun f => ⟨?_, ?_⟩, fun _ _ => searchVco_closed_form⟩
  · rintro ⟨⟨v, n, r⟩, h⟩
    obtain ⟨-, hc, -⟩ := searchVco_some h
    exact ⟨hc.le_fout, hc.fout_le⟩
  · rintro ⟨h1, h2⟩
    obtain ⟨r, hr, hlo, hhi, hmin⟩ := exists_least_exponent h1 h2
    exact ⟨_, searchVco_closed_form hr hlo hhi hmin⟩

/-! ### The inverse of FRAC (spec/40_planner.md R137, R138) -/

theorem fracB_of_exact {num den : Nat} (h : num % den = 0) : fracB num den = 0 := by
  rw [fracB, h, Nat.zero_mul, Nat.zero_div]

theorem fracB_lt {num den : Nat} (hd : 0 < den) : fracB num den < 2 ^ 20 := by
  rw [fracB, Nat.div_lt_iff_lt_mul hd, Nat.mul_comm (2 ^ 20)]
  exact Nat.mul_lt_mul_of_pos_right (Nat.mod_lt _ hd) (by decide)

/-- FRAC has a result only inside its precondition (spec/40_planner.md R124). -/
theorem frac_domain {num den : Nat} {p : FracParams} (h : frac num den = some p) : 0 < den ∧ 4 ≤ num / den := by
  by_contra hc
  rw [frac_eq_none (by omega)] at h
  cases h

theorem eq_fracParams {num den : Nat} {p : FracParams} (h : frac num den = some p) : p = fracParams num den :=
  Option.some.inj (h.symm.trans (frac_eq_some (frac_domain h).1 (frac_domain h).2))

section
variable {num den : Nat} {p : FracParams} (h : frac num den = some p)
include h

theorem frac_int_iff : p.int = true ↔ num % den = 0 := by
  rw [eq_fracParams h]
  exact beq_iff_eq

theorem frac_p3 : p.p3 = if num % den = 0 then 1 else 2 ^ 20 := by
  rw [eq_fracParams h]
  rfl

/-- In both modes `P1` carries `a` and `floor_term`. -/
theorem frac_p1 : p.p1 + 512 = 128 * (num / den) + 128 * fracB num den / 2 ^ 20 := by
  have ha := (frac_domain h).2
  rw [eq_fracParams h]
  by_cases hr : num % den = 0
  · simp only [fracParams, if_pos hr, fracB_of_exact hr]
    omega
  · simp only [fracParams, if_neg hr]
    omega

/-- In both modes `P2` carries what `floor_term` leaves of `128 * b`. -/
theorem frac_p2 : p.p2 + p.p3 * (128 * fracB num den / 2 ^ 20) = 128 * fracB num den := by
  rw [eq_fracParams h]
  by_cases hr : num % den = 0
  · simp only [fracParams, if_pos hr, fracB_of_exact hr, Nat.mul_zero, Nat.zero_div]
  · simp only [fracParams, if_neg hr]
    exact Nat.sub_add_cancel (Nat.mul_div_le _ _)

/-- `floor_term` is the remainder of `P1 + 512` by 128, since `b < 2^20`. -/
theorem frac_inverseFloorTerm : inverseFloorTerm p = 128 * fracB num den / 2 ^ 20 := by
  have hb := fracB_lt (num := num) (frac_domain h).1
  rw [inverseFloorTerm, frac_p1 h]
  omega

theorem frac_inverseA : inverseA p = num / den := by
  have hb := fracB_lt (num := num) (frac_domain h).1
  rw [inverseA, frac_p1 h]
  omega

theorem frac_inverseB : inverseB p = fracB num den := by
  rw [inverseB, frac_inverseFloorTerm h, frac_p2 h, frac_p3 h]
  by_cases hr : num % den = 0
  · rw [if_pos hr, if_pos rfl, fracB_of_exact hr]
  · rw [if_neg hr, if_neg (by decide), Nat.mul_div_cancel_left _ (by decide)]

/-- The ratio the parameters stand for, in either mode. -/
theorem frac_inverseRatio : inverseRatio p = (num / den : ℕ) + (fracB num den : ℚ) / 2 ^ 20 := by
  rw [inverseRatio, frac_inverseA h, frac_inverseB h, frac_p3 h]
  by_cases hr : num % den = 0
  · rw [fracB_of_exact hr, Nat.cast_zero, zero_div, zero_div]
  · rw [if_neg hr, Nat.cast_pow, Nat.cast_ofNat]

/-- `a + b/P3` is the ratio that `P1`, `P2` and `P3` encode (spec/40_planner.md R137). -/
theorem frac_registers : 128 * inverseRatio p = (p.p1 : ℚ) + 512 + (p.p2 : ℚ) / p.p3 := by
  have h1 : (p.p1 : ℚ) + 512 = 128 * (num / den : ℕ) + (128 * fracB num den / 2 ^ 20 : ℕ) := mod_cast frac_p1 h
  have h2 : (p.p2 : ℚ) + p.p3 * (128 * fracB num den / 2 ^ 20 : ℕ) = 128 * fracB num den := mod_cast frac_p2 h
  have h3 : (p.p3 : ℚ) ≠ 0 := by
    rw [frac_p3 h]
    split <;> norm_num
  rw [inverseRatio, frac_inverseA h, frac_inverseB h, h1]
  field_simp
  linarith

theorem four_le_inverseRatio : 4 ≤ inverseRatio p := by
  have ha : (4 : ℚ) ≤ (num / den : ℕ) := mod_cast (frac_domain h).2
  rw [frac_inverseRatio h]
  exact le_add_of_le_of_nonneg ha (by positivity)

/-- In integer mode the ratio is exact. -/
theorem inverseRatio_exact (hint : p.int = true) : (den : ℚ) * inverseRatio p = num := by
  have hr := (frac_int_iff h).mp hint
  rw [frac_inverseRatio h, fracB_of_exact hr, Nat.cast_zero, zero_div, add_zero]
  exact mod_cast Nat.mul_div_cancel' (Nat.dvd_of_mod_eq_zero hr)

/-- The ratio is the quotient rounded down to a multiple of `2^-20` (spec/40_planner.md R138). -/
theorem inverseRatio_bounds : (den : ℚ) * inverseRatio p ≤ num ∧ (num : ℚ) < den * inverseRatio p + (den : ℚ) / 2 ^ 20 := by
  have hd : 0 < den := (frac_domain h).1
  have hlo : (den : ℚ) * fracB num den ≤ (num % den : ℕ) * 2 ^ 20 := mod_cast Nat.mul_div_le (num % den * 2 ^ 20) den
  have hhi : ((num % den : ℕ) : ℚ) * 2 ^ 20 < den * (fracB num den + 1) := mod_cast Nat.lt_mul_div_succ (num % den * 2 ^ 20) hd
  have hnum : (den : ℚ) * (num / den : ℕ) + (num % den : ℕ) = num := mod_cast Nat.div_add_mod num den
  rw [frac_inverseRatio h]
  constructor <;> linarith

end

/-- Settles O29: the fields by `frac_inverseA` to `frac_registers`; the two frequencies by the bounds of the ratio. -/
theorem inverseFormulaRecoversTheRatio : Obligations.InverseFormulaRecoversTheRatio := by
  intro num den p h
  have hb : inverseB p = if num % den = 0 then 0 else num % den * 2 ^ 20 / den := by
    rw [frac_inverseB h]
    split
    · next hr => exact fracB_of_exact hr
    · rfl
  have hft : inverseFloorTerm p = 128 * inverseB p / 2 ^ 20 := by rw [frac_inverseFloorTerm h, frac_inverseB h]
  have hd : (0 : ℚ) < den := mod_cast (frac_domain h).1
  have hratio : 0 < inverseRatio p := lt_of_lt_of_le (by norm_num) (four_le_inverseRatio h)
  obtain ⟨hlo, hhi⟩ := inverseRatio_bounds h
  have hnum : (num : ℚ) ≠ 0 := (lt_of_lt_of_le (mul_pos hd hratio) hlo).ne'
  have hquot : (num : ℚ) / inverseFout num p = inverseRatio p := div_div_cancel₀ hnum
  refine ⟨frac_inverseA h, hft, hb, frac_registers h, ⟨hlo, hhi⟩, ⟨?_, ?_, ?_⟩, fun hint => ⟨inverseRatio_exact h hint, ?_⟩⟩
  · exact (le_div_iff₀ hratio).mpr hlo
  · rw [hquot]
    exact (le_div_iff₀' hd).mpr hlo
  · rw [hquot, div_lt_iff₀' hd, mul_add, mul_one_div]
    exact hhi
  · exact (div_eq_iff hratio.ne').mpr (inverseRatio_exact h hint).symm

end Sys2Proof.Machine

/-! SUPPORT. The block layout BLK8: its bytes and its fields as numbers, both directions of the round trip, and the coding operations called
through `exec`. -/

namespace Sys2Proof.Machine

/-! ### The layout as numbers -/

/-- The bytes of the MultiSynth variant (spec/41_register_protocol.md R150, R151). -/
theorem encodeMs_bytes (p1 : BitVec 32) (p2 : BitVec 20) (p3 : BitVec 21) (r : BitVec 3) :
    let b := encodeMs p1 p2 p3 r
    b.b0.toNat = p3.toNat / 2 ^ 8 % 2 ^ 8 ∧ b.b1.toNat = p3.toNat % 2 ^ 8 ∧
    b.b2.toNat = r.toNat * 2 ^ 4 + p1.toNat / 2 ^ 16 % 2 ^ 2 ∧
    b.b3.toNat = p1.toNat / 2 ^ 8 % 2 ^ 8 ∧ b.b4.toNat = p1.toNat % 2 ^ 8 ∧
    b.b5.toNat = (p3.toNat / 2 ^ 16 % 2 ^ 4) * 2 ^ 4 + p2.toNat / 2 ^ 16 % 2 ^ 4 ∧
    b.b6.toNat = p2.toNat / 2 ^ 8 % 2 ^ 8 ∧ b.b7.toNat = p2.toNat % 2 ^ 8 := by
  simp only [encodeMs, encodePll, toNat_append_add, BitVec.extractLsb_toNat, Nat.shiftRight_eq_div_pow, pow_zero, Nat.div_one,
    BitVec.ofNat_eq_ofNat, BitVec.toNat_ofNat, true_and, and_true]
  omega

/-- The PLL variant is the MultiSynth variant with an R-divider of 0. -/
theorem encodePll_eq_encodeMs (p1 : BitVec 32) (p2 : BitVec 20) (p3 : BitVec 21) : encodePll p1 p2 p3 = encodeMs p1 p2 p3 0 := by
  have hb2 : (0 : BitVec 6) ++ p1.extractLsb 17 16 = (0 : BitVec 1) ++ (0 : BitVec 3) ++ (0 : BitVec 2) ++ p1.extractLsb 17 16 := rfl
  rw [encodeMs, ← hb2]
  rfl

/-- The fields of a block (spec/41_register_protocol.md R154). -/
theorem decodeBlock_fields (b : Block) :
    let d := decodeBlock b
    d.p3f.toNat = b.b5.toNat / 2 ^ 4 * 2 ^ 16 + b.b0.toNat * 2 ^ 8 + b.b1.toNat ∧
    d.p1f.toNat = b.b2.toNat % 2 ^ 2 * 2 ^ 16 + b.b3.toNat * 2 ^ 8 + b.b4.toNat ∧
    d.p2f.toNat = b.b5.toNat % 2 ^ 4 * 2 ^ 16 + b.b6.toNat * 2 ^ 8 + b.b7.toNat ∧
    d.rDivExp.toNat = b.b2.toNat / 2 ^ 4 % 2 ^ 3 ∧ d.div4f.toNat = b.b2.toNat / 2 ^ 2 % 2 ^ 2 := by
  simp only [decodeBlock, toNat_append_add, BitVec.extractLsb_toNat, Nat.shiftRight_eq_div_pow, pow_zero, Nat.div_one, and_true]
  omega

/-! ### The round trips -/

/-- Blocks are equal when their bytes are, as numbers. -/
theorem block_eq_of_toNat {a b : Block} (h0 : a.b0.toNat = b.b0.toNat) (h1 : a.b1.toNat = b.b1.toNat) (h2 : a.b2.toNat = b.b2.toNat)
    (h3 : a.b3.toNat = b.b3.toNat) (h4 : a.b4.toNat = b.b4.toNat) (h5 : a.b5.toNat = b.b5.toNat) (h6 : a.b6.toNat = b.b6.toNat)
    (h7 : a.b7.toNat = b.b7.toNat) : a = b := by
  cases a
  cases b
  simp only [Block.mk.injEq, BitVec.toNat_eq]
  exact ⟨h0, h1, h2, h3, h4, h5, h6, h7⟩

/-- Decoded fields are equal when they are as numbers. -/
theorem decoded_eq_of_toNat {a b : Decoded} (h3 : a.p3f.toNat = b.p3f.toNat) (h1 : a.p1f.toNat = b.p1f.toNat)
    (h2 : a.p2f.toNat = b.p2f.toNat) (hr : a.rDivExp.toNat = b.rDivExp.toNat) (hd : a.div4f.toNat = b.div4f.toNat) : a = b := by
  cases a
  cases b
  simp only [Decoded.mk.injEq, BitVec.toNat_eq]
  exact ⟨h3, h1, h2, hr, hd⟩

/-- Decoding gives the parameters back, `P1` and `P3` cut to the width of their fields. -/
theorem decodeBlock_encodeMs (p1 : BitVec 32) (p2 : BitVec 20) (p3 : BitVec 21) (r : BitVec 3) :
    decodeBlock (encodeMs p1 p2 p3 r) = ⟨BitVec.ofNat 20 (p3.toNat % 2 ^ 20), BitVec.ofNat 18 (p1.toNat % 2 ^ 18), p2, r, 0⟩ := by
  obtain ⟨e0, e1, e2, e3, e4, e5, e6, e7⟩ := encodeMs_bytes p1 p2 p3 r
  obtain ⟨d3, d1, d2, dr, dd⟩ := decodeBlock_fields (encodeMs p1 p2 p3 r)
  apply decoded_eq_of_toNat
  · simp only [d3, e5, e0, e1, BitVec.toNat_ofNat]
    omega
  · simp only [d1, e2, e3, e4, BitVec.toNat_ofNat]
    omega
  · simp only [d2, e5, e6, e7]
    omega
  · simp only [dr, e2]
    omega
  · simp only [dd, e2, BitVec.ofNat_eq_ofNat, BitVec.toNat_ofNat]
    omega

/-- A clear bit, as arithmetic. -/
theorem div_pow_mod_two_of_getLsbD {w i : Nat} {x : BitVec w} (h : x.getLsbD i = false) : x.toNat / 2 ^ i % 2 = 0 := by
  rw [BitVec.getLsbD, Nat.testBit_eq_decide_div_mod_eq, decide_eq_false_iff_not] at h
  omega

/-- A block is the encoding of its fields where bits 7, 3 and 2 of its third byte, which no field of the encoding fills, are clear. -/
theorem encodeMs_decodeBlock (b : Block) (h7 : b.b2.getLsbD 7 = false) (h3 : b.b2.getLsbD 3 = false) (h2 : b.b2.getLsbD 2 = false) :
    encodeMs ((decodeBlock b).p1f.setWidth 32) (decodeBlock b).p2f ((decodeBlock b).p3f.setWidth 21) (decodeBlock b).rDivExp = b := by
  obtain ⟨d3, d1, d2, dr, -⟩ := decodeBlock_fields b
  obtain ⟨e0, e1, e2, e3, e4, e5, e6, e7⟩ := encodeMs_bytes ((decodeBlock b).p1f.setWidth 32) (decodeBlock b).p2f
    ((decodeBlock b).p3f.setWidth 21) (decodeBlock b).rDivExp
  have b7 := div_pow_mod_two_of_getLsbD h7
  have b3 := div_pow_mod_two_of_getLsbD h3
  have b2 := div_pow_mod_two_of_getLsbD h2
  rw [BitVec.toNat_setWidth_of_le (by decide)] at e0 e1 e2 e3 e4 e5
  apply block_eq_of_toNat
  · rw [e0, d3]
    omega
  · rw [e1, d3]
    omega
  · rw [e2, dr, d1]
    omega
  · rw [e3, d1]
    omega
  · rw [e4, d1]
    omega
  · rw [e5, d3, d2]
    omega
  · rw [e6, d2]
    omega
  · rw [e7, d2]
    omega

/-- Settles O35: both directions for the MultiSynth variant; the PLL variant is a case of it (`encodePll_eq_encodeMs`). -/
theorem blockRoundTrips : Obligations.BlockRoundTrips :=
  ⟨fun p1 p2 p3 => by rw [encodePll_eq_encodeMs, decodeBlock_encodeMs], decodeBlock_encodeMs, encodeMs_decodeBlock⟩

/-! ### ENCP, ENCM and DECB -/

/-- Settles O31: the bytes of the MultiSynth variant, the R-divider's share of the third byte being 0. -/
theorem encpPacksTheBlock : Obligations.EncpPacksTheBlock := by
  intro s p1 p2 p3 h1 h2 h3
  refine ⟨encodePll p1 p2 p3, congrArg finishUnit (encpOp_ok h1 h2 h3), ?_⟩
  simpa [encodePll_eq_encodeMs] using encodeMs_bytes p1 p2 p3 0

/-- Settles O32: the bytes of the MultiSynth variant. -/
theorem encmPacksTheBlockWithTheRDivider : Obligations.EncmPacksTheBlockWithTheRDivider :=
  fun _ p1 p2 p3 r h1 h2 h3 hr hd =>
    ⟨encodeMs p1 p2 p3 r, congrArg finishUnit (encmOp_ok h1 h2 h3 hd hr), encodeMs_bytes p1 p2 p3 r⟩

/-- In divide-by-4 mode ENCM reads no other register (spec/41_register_protocol.md R152). -/
theorem encmOp_div4 {s : State} (h : s.w.msDiv4 = some true) : encmOp s = .ok { s with w := { s.w with blk := some s.cfg.divBy4Block } } := by
  rw [encmOp, getMsDiv4, h, need_some, bind_ok, if_pos rfl]

/-- Settles O33: ENCM reads `W.ms.div4` alone. -/
theorem encmDivideByFourIsTheFixedPattern : Obligations.EncmDivideByFourIsTheFixedPattern :=
  fun _ h => congrArg finishUnit (encmOp_div4 h)

/-- Settles O34: DECB returns the fields of `W.blk`. -/
theorem decbExtractsTheFields : Obligations.DecbExtractsTheFields := by
  intro s b h
  refine ⟨decodeBlock b, ?_, decodeBlock_fields b⟩
  rw [exec, execDecb, getBlk, h, need_some, bind_ok, finish]

end Sys2Proof.Machine

/-! SUPPORT. The coordinator's commands and the steps S1 to S8 of a SETF, each as the next state it answers. -/

namespace Sys2Proof.Machine

/-! ### A channel's constants as numbers (spec/10_state.md R33) -/

theorem ofNat_chNum (c : Channel) : BitVec.ofNat 2 (chNum c) = chBits c := by cases c <;> rfl

theorem regClk_eq (c : Channel) : regClk c = BitVec.ofNat 8 (16 + chNum c) := by cases c <;> rfl

theorem msBase_eq (c : Channel) : msBase c = BitVec.ofNat 8 (42 + 8 * chNum c) := by cases c <;> rfl

theorem rstByte_pllSrc (p : Params) (c : Channel) : rstByte p (pllSrc c) = if c = .ch0 then p.rstB else p.rstA := by cases c <;> rfl

/-! ### The commands -/

/-- The response Ok on a channel, by the arithmetic of spec/30_encoding.md R86. -/
theorem respond_ok_eq (c : Channel) (vm : Bool) (hz : Hz) (s : State) :
    respond statusOk (chBits c) vm hz s = { s with rsp := s.rsp ++ [respWord 0 (chNum c) vm hz.toNat] } := by
  rw [respond, rspWord_channel]
  rfl

/-- Settles O11: a channel number names its channel, so the command is accepted. -/
theorem setfIsAccepted : Obligations.SetfIsAccepted := by
  intro s c inv ph hz hb
  rw [exec, execSetf, hb, chOfBits_chNum]
  rfl

/-- Settles O12: a channel number names its channel, whose `realizedHz` is the answer. -/
theorem getrAnswersRealizedFrequency : Obligations.GetrAnswersRealizedFrequency := by
  intro s c hb
  rw [exec, execGetr, if_neg (by rw [hb]; decide), ofNat_chNum, chOfBits_chBits]
  exact congrArg _ (respond_ok_eq ..)

/-- Settles O13: a channel number names its channel, whose `requestedHz` is the answer. -/
theorem getqAnswersRequestedFrequency : Obligations.GetqAnswersRequestedFrequency := by
  intro s c hb
  rw [exec, execGetq, if_neg (by rw [hb]; decide), ofNat_chNum, chOfBits_chBits]
  exact congrArg _ (respond_ok_eq ..)

/-! ### The checks: S1 and S2 -/

/-- An error raised in S1 or S2 ends the command with its response (spec/42_coordinator.md R185). -/
theorem finish_raised_reject {s : State} {c : Channel} (e : ErrorKind) (hs : s.seq = .s1 ∨ s.seq = .s2) (hc : s.w.ch = some c) :
    finish (.raised e s) = .next { s with
      seq := .idle, busy := false, w := Work.unwritten, rsp := s.rsp ++ [respWord e.code.toNat (chNum c) s.vm 0] } := by
  obtain ⟨-, rejected, -⟩ := errorTaken_takeError e s
  have hrank : 1 ≤ s.seq.rank ∧ s.seq.rank ≤ 2 := by obtain hs | hs := hs <;> rw [hs] <;> decide
  exact rejected c hc hrank.1 hrank.2

/-- Settles O41: `stepS1` with its raised error taken. -/
theorem stepOneValidatesTheFrequency : Obligations.StepOneValidatesTheFrequency := by
  intro s c f hq hs hc hf
  rw [step_of_quiet hq (by rw [hs]; decide), seqStep, hs]
  dsimp only
  rw [stepS1_eq hf]
  split
  · exact finish_raised_reject .invalidFrequency (.inl hs) hc
  · rfl

/-- The shared-PLL test fails exactly on a conflict between channels 1 and 2 (spec/42_coordinator.md R184). -/
theorem not_siblingAllows_iff {cs : Channels} {c : Channel} {f : Hz} :
    ¬ siblingAllows cs c f = true ↔
      (c = .ch1 ∧ cs.c2.requestedHz ≠ 0 ∧ cs.c2.requestedHz ≠ f) ∨ (c = .ch2 ∧ cs.c1.requestedHz ≠ 0 ∧ cs.c1.requestedHz ≠ f) := by
  cases c with
  | ch0 => simp [siblingAllows, sibling]
  | ch1 => simp [siblingAllows_iff (c := .ch1) (o := .ch2) rfl, Channels.get]
  | ch2 => simp [siblingAllows_iff (c := .ch2) (o := .ch1) rfl, Channels.get]

/-- Settles O42: `stepS2` with its raised error taken; its test is that of `not_siblingAllows_iff`. -/
theorem stepTwoChecksTheSibling : Obligations.StepTwoChecksTheSibling := by
  intro s c f hq hs hc hf conflict
  rw [step_of_quiet hq (by rw [hs]; decide), seqStep, hs]
  dsimp only
  rw [stepS2_eq hc hf]
  constructor
  · intro h
    rw [if_neg (not_siblingAllows_iff.mpr h)]
    exact finish_raised_reject .phaseConstraintViolation (.inr hs) hc
  · intro h
    rw [if_pos (not_not.mp (mt not_siblingAllows_iff.mp h))]
    rfl

/-! ### The planning: S3 and S4 -/

/-- Settles O43: the fixed plan above 150 MHz, below it the search, which succeeds there (`searchVco_isSome`). -/
theorem stepThreeDeterminesTheVco : Obligations.StepThreeDeterminesTheVco := by
  intro s c f hq hs hc hf ⟨hlo, hhi⟩
  rw [step_of_quiet hq (by rw [hs]; decide), seqStep, hs]
  refine ⟨fun h => congrArg finish (stepS3_div4 hc hf h hhi), fun h => ?_⟩
  obtain ⟨v, n, r, hsearch⟩ := searchVco_isSome hlo h
  exact ⟨v, n, r, hsearch, congrArg finish (stepS3_search hc hf h hsearch)⟩

/-- Settles O44: on a plan FRAC has a result for the PLL (`planned_frac`), and `stepS4_ok` says what the step writes. -/
theorem stepFourComputesTheParameters : Obligations.StepFourComputesTheParameters := by
  intro s f vco n r ph hq hs hx hin hf hv _ hr hph hp div4
  obtain ⟨p, hfrac⟩ := planned_frac hx hp
  refine ⟨p, hfrac, ?_⟩
  rw [step_of_quiet hq (by rw [hs]; decide), seqStep, hs]
  exact congrArg finish (stepS4_ok hin hf hv hr hph hp hfrac)

/-! ### The writes: S5A to S8 -/

/-- Where ENCM does not stop it writes a block to `W.blk`, and nothing else. -/
theorem encmOp_writes_blk {E : ErrorKind → State → Prop} (s : State) :
    (encmOp s).Ends (fun t => ∃ b, t = { s with w := { s.w with blk := some b } }) E := by
  refine .bind (need_ends _ _) fun d _ => ?_
  split
  · exact .ok ⟨_, rfl⟩
  · exact .bind (need_ends _ _) fun _ _ => .bind (need_ends _ _) fun _ _ => .bind (need_ends _ _) fun _ _ =>
      .bind (need_ends _ _) fun _ _ => .ok ⟨_, rfl⟩

/-- The block a direct call of ENCM answers is the one S5B encodes. -/
theorem encmOp_of_exec {s : State} {b : Block} (h : exec .encm s = .next { s with ret := .done, w := { s.w with blk := some b } }) :
    encmOp s = .ok { s with w := { s.w with blk := some b } } := by
  have hfin : finishUnit (encmOp s) = .next { s with ret := .done, w := { s.w with blk := some b } } := h
  have ends := encmOp_writes_blk (E := fun _ _ => False) s
  generalize encmOp s = x at ends hfin
  cases ends with
  | ok hb =>
    obtain ⟨b', rfl⟩ := hb
    cases hfin
    rfl
  | raised hf => exact hf.elim
  | fault q => cases hfin
  | refused q => cases hfin

/-- Settles O45: `stepS5a_ok` and `stepS5b_ok`, with the addresses of R33 as numbers. -/
theorem stepFiveWritesBothBlocks : Obligations.StepFiveWritesBothBlocks := by
  constructor
  · intro s c p1 p2 p3 k hq hs hc h1 h2 h3 hw base b
    have h := stepS5a_ok hc h1 h2 h3 hw
    rw [pllBase_pllSrc] at h
    exact step_of_seqStep hq (by rw [hs]; decide) (by rw [seqStep, hs]; exact h)
  · intro s c b k hq hs hc hw hb base
    have h := stepS5b_ok hc (encmOp_of_exec hb) hw
    rw [msBase_eq] at h
    exact step_of_seqStep hq (by rw [hs]; decide) (by rw [seqStep, hs]; exact h)

/-- The control byte of a channel, by its bits (spec/10_state.md R37, spec/42_coordinator.md R191). -/
theorem ctlByte_channel (int div4 inv : Bool) (c : Channel) (idrv : BitVec 2) :
    ctlByte (controlIntBit int div4) (pllSrc c == .B) inv idrv =
      BitVec.ofNat 8 ((if int = true ∧ div4 = false then 64 else 0) + (if c = .ch0 then 32 else 0) + (if inv then 16 else 0) + 12 +
        idrv.toNat) := by
  have hsrc : (pllSrc c == .B) = decide (c = .ch0) := by cases c <;> rfl
  rw [ctlByte_eq, hsrc]
  simp only [controlIntBit, Bool.and_eq_true, Bool.not_eq_true', decide_eq_true_eq]

/-- Settles O46: `stepS6_ok` and `stepS6v_ok`, with register and byte as numbers. -/
theorem stepSixWritesTheControlRegister : Obligations.StepSixWritesTheControlRegister := by
  constructor
  · intro s c int div4 inv k hq hs hc hint hdiv hinv hw ctl reg
    have h := stepS6_ok hc hint hdiv hinv hw
    rw [ctlByte_channel, regClk_eq] at h
    exact step_of_seqStep hq (by rw [hs]; decide) (by rw [seqStep, hs]; exact h)
  · intro s c ctl b k hq hs hc hctl reg hr
    have h := stepS6v_ok (k := k) (b := b) hc hctl (by rw [regClk_eq]; exact hr)
    rw [regClk_eq] at h
    exact step_of_seqStep hq (by rw [hs]; decide) (by rw [seqStep, hs]; exact h)

/-- Settles O47: `stepS7_ok` and `stepS7v_ok`; the byte is the difference of `oeByte_eq`. -/
theorem stepSevenWritesTheOutputEnables : Obligations.StepSevenWritesTheOutputEnables := by
  constructor
  · intro s c k hq hs hc hw used u0 u1 u2 h0 h0' h1 h1' h2 h2' oe
    have hoe : oeByte s.chan c = oe := by
      rw [oeByte_eq, ite_eq_iff'.mpr ⟨fun h => (h0 h).symm, fun h => (h0' h).symm⟩,
        ite_eq_iff'.mpr ⟨fun h => (h1 h).symm, fun h => (h1' h).symm⟩, ite_eq_iff'.mpr ⟨fun h => (h2 h).symm, fun h => (h2' h).symm⟩]
    have h := stepS7_ok hc hw
    rw [hoe] at h
    exact step_of_seqStep hq (by rw [hs]; decide) (by rw [seqStep, hs]; exact h)
  · intro s oe b k hq hs hoe hr
    exact step_of_seqStep hq (by rw [hs]; decide) (by rw [seqStep, hs]; exact stepS7v_ok hoe hr)

/-- Settles O48: `stepS8_ok`, with the reset byte of the channel's PLL. -/
theorem stepEightResetsThePll : Obligations.StepEightResetsThePll := by
  intro s c k hq hs hc hw b
  have h := stepS8_ok hc hw
  rw [rstByte_pllSrc] at h
  exact step_of_seqStep hq (by rw [hs]; decide) (by rw [seqStep, hs]; exact h)

end Sys2Proof.Machine
